-- ==== Sys2Proof/Word.lean ====
section
/-! DEFINITION. The two bit-vector types of the VCP encoder core: the byte of its memories and the 32-bit
word of its registers and commands (spec/00_scope.md R7). -/

namespace Sys2Proof

/-- One byte: a pixel sample, a byte of a memory or of a stream (R6, R7). -/
abbrev Byte := BitVec 8

/-- One 32-bit register, command word, or device address (R7, R200, R300). -/
abbrev Word := BitVec 32

end Sys2Proof
end

