-- ==== Sys2Proof/Syntax.lean ====
section
/-! DEFINITION. The commands of the core: one constructor per row of spec/opcode_table.json
(30_encoding.md R307), with the two selectors a command word carries (R301, R302). -/

namespace Sys2Proof

/-- The stream a bit-writer command names by its S bit: "0 = stream 0 (motion vectors), 1 = stream 1
(coefficients)" (30_encoding.md R301, R308). -/
inductive Stream where
  | stream0
  | stream1
  deriving DecidableEq, Repr

/-- A command: its opcode and the SEL and S fields its row uses. SEL is the unsigned 4-bit number of the word
(30_encoding.md R302); which of its values are legal is `Instr.wf`. -/
inductive Instr where
  | nop
  | init
  | mbView (sel : BitVec 4)
  | loadSrc (sel : BitVec 4)
  | storeRef
  | meFull
  | meDiamond
  | mcBlock (sel : BitVec 4)
  | mcFrame
  | residual
  | loadBlk (sel : BitVec 4)
  | zeroBlk (sel : BitVec 4)
  | fdct8 (sel : BitVec 4)
  | idct8 (sel : BitVec 4)
  | fdct16
  | idct16
  | qpScale
  | quant (sel : BitVec 4)
  | dequant (sel : BitVec 4)
  | encBlock (sel : BitVec 4) (st : Stream)
  | encMv (st : Stream)
  | encMb (st : Stream)
  | bsClear (st : Stream)
  | bsWriteBits (st : Stream)
  | bsWriteByte (st : Stream)
  | bsFlush (st : Stream)
  | rcFrameType
  | rcChooseQp
  | encodeFrame
  deriving DecidableEq, Repr

end Sys2Proof
end

