-- ==== Sys2Proof/WellFormed.lean ====
section
/-! DEFINITION. When a command's selector is legal (30_encoding.md R306 item 4, the SEL ranges of R307). -/

namespace Sys2Proof

/-- The plane selectors 0..2 (R308). -/
def selIsPlane (sel : BitVec 4) : Bool := decide (sel.toNat ≤ 2)

/-- The block selectors 0..5 (R308). -/
def selIsBlock (sel : BitVec 4) : Bool := decide (sel.toNat ≤ 5)

/-- The command's selector lies in the SEL range of its row of R307. A command whose SEL range is "0", or that
has no S, carries no such field, so it is always well formed. -/
def Instr.wf : Instr → Bool
  | .nop => true
  | .init => true
  | .mbView sel => selIsPlane sel
  | .loadSrc sel => selIsPlane sel
  | .storeRef => true
  | .meFull => true
  | .meDiamond => true
  | .mcBlock sel => selIsPlane sel
  | .mcFrame => true
  | .residual => true
  | .loadBlk sel => selIsBlock sel
  | .zeroBlk sel => selIsBlock sel
  | .fdct8 sel => selIsBlock sel
  | .idct8 sel => selIsBlock sel
  | .fdct16 => true
  | .idct16 => true
  | .qpScale => true
  | .quant sel => selIsBlock sel
  | .dequant sel => selIsBlock sel
  | .encBlock sel _ => selIsBlock sel
  | .encMv _ => true
  | .encMb _ => true
  | .bsClear _ => true
  | .bsWriteBits _ => true
  | .bsWriteByte _ => true
  | .bsFlush _ => true
  | .rcFrameType => true
  | .rcChooseQp => true
  | .encodeFrame => true

end Sys2Proof
end

