-- ==== Sys2Proof/Decode.lean ====
section
/-! DEFINITION. Reading a command from its 32-bit word (30_encoding.md R301, R306, R307, R309): total, and
rejecting by name; after it the encoder, written from the same table. -/

namespace Sys2Proof

/-- Why a word is not a command (R306, its four items in order). Each makes the word ILLEGAL_CMD. -/
inductive DecodeError where
  /-- item 1: bits 7..0 are no opcode of R307 -/
  | reservedOpcode
  /-- item 2: bits 31..13 are not 0 -/
  | reservedBits
  /-- item 3: S = 1 and the opcode's row has S "unused" -/
  | streamUnused
  /-- item 4: SEL is outside the SEL range of the opcode's row -/
  | selOutOfRange
  deriving DecidableEq, Repr

/-- OPC, bits 7..0 (R301). -/
def Word.opc (w : Word) : BitVec 8 := w.extractLsb' 0 8
/-- SEL, bits 11..8 (R301). -/
def Word.sel (w : Word) : BitVec 4 := w.extractLsb' 8 4
/-- S, bit 12 (R301). -/
def Word.sBit (w : Word) : Bool := w.getLsbD 12
/-- RSV, bits 31..13 (R301). -/
def Word.rsv (w : Word) : BitVec 19 := w.extractLsb' 13 19

/-- The stream an S bit names (R308). -/
def Stream.ofBit (b : Bool) : Stream := if b then .stream1 else .stream0
/-- The S bit that names a stream (R308). -/
def Stream.bit : Stream → Bool
  | .stream0 => false
  | .stream1 => true

/-- One row of the opcode map R307: the opcode, the greatest legal SEL, whether S is used, and the command. -/
structure OpcodeRow where
  opc : BitVec 8
  selMax : Nat
  usesS : Bool
  command : BitVec 4 → Stream → Instr

/-- The opcode map, in the order of R307. -/
def opcodeRows : List OpcodeRow :=
  [ ⟨0x00, 0, false, fun _ _ => .nop⟩,
    ⟨0x01, 0, false, fun _ _ => .init⟩,
    ⟨0x10, 2, false, fun sel _ => .mbView sel⟩,
    ⟨0x11, 2, false, fun sel _ => .loadSrc sel⟩,
    ⟨0x12, 0, false, fun _ _ => .storeRef⟩,
    ⟨0x20, 0, false, fun _ _ => .meFull⟩,
    ⟨0x21, 0, false, fun _ _ => .meDiamond⟩,
    ⟨0x30, 2, false, fun sel _ => .mcBlock sel⟩,
    ⟨0x31, 0, false, fun _ _ => .mcFrame⟩,
    ⟨0x32, 0, false, fun _ _ => .residual⟩,
    ⟨0x40, 5, false, fun sel _ => .loadBlk sel⟩,
    ⟨0x41, 5, false, fun sel _ => .zeroBlk sel⟩,
    ⟨0x42, 5, false, fun sel _ => .fdct8 sel⟩,
    ⟨0x43, 5, false, fun sel _ => .idct8 sel⟩,
    ⟨0x44, 0, false, fun _ _ => .fdct16⟩,
    ⟨0x45, 0, false, fun _ _ => .idct16⟩,
    ⟨0x50, 0, false, fun _ _ => .qpScale⟩,
    ⟨0x51, 5, false, fun sel _ => .quant sel⟩,
    ⟨0x52, 5, false, fun sel _ => .dequant sel⟩,
    ⟨0x60, 5, true, fun sel st => .encBlock sel st⟩,
    ⟨0x61, 0, true, fun _ st => .encMv st⟩,
    ⟨0x62, 0, true, fun _ st => .encMb st⟩,
    ⟨0x70, 0, true, fun _ st => .bsClear st⟩,
    ⟨0x71, 0, true, fun _ st => .bsWriteBits st⟩,
    ⟨0x72, 0, true, fun _ st => .bsWriteByte st⟩,
    ⟨0x73, 0, true, fun _ st => .bsFlush st⟩,
    ⟨0x80, 0, false, fun _ _ => .rcFrameType⟩,
    ⟨0x81, 0, false, fun _ _ => .rcChooseQp⟩,
    ⟨0x90, 0, false, fun _ _ => .encodeFrame⟩ ]

/-- The row of an opcode, if it is assigned. -/
def findOpcodeRow (opc : BitVec 8) : Option OpcodeRow :=
  opcodeRows.find? fun r => r.opc == opc

/-- Decoding a word (R309): exactly one command of R307 with its SEL and S, or the reason it is illegal (R306). -/
def decode (w : Word) : Except DecodeError Instr :=
  match findOpcodeRow (Word.opc w) with
  | none => .error .reservedOpcode
  | some row =>
    if Word.rsv w ≠ 0 then .error .reservedBits
    else if Word.sBit w = true ∧ row.usesS = false then .error .streamUnused
    else if row.selMax < (Word.sel w).toNat then .error .selOutOfRange
    else .ok (row.command (Word.sel w) (Stream.ofBit (Word.sBit w)))

/-- The opcode of a command (R307). -/
def Instr.opcode : Instr → BitVec 8
  | .nop => 0x00
  | .init => 0x01
  | .mbView _ => 0x10
  | .loadSrc _ => 0x11
  | .storeRef => 0x12
  | .meFull => 0x20
  | .meDiamond => 0x21
  | .mcBlock _ => 0x30
  | .mcFrame => 0x31
  | .residual => 0x32
  | .loadBlk _ => 0x40
  | .zeroBlk _ => 0x41
  | .fdct8 _ => 0x42
  | .idct8 _ => 0x43
  | .fdct16 => 0x44
  | .idct16 => 0x45
  | .qpScale => 0x50
  | .quant _ => 0x51
  | .dequant _ => 0x52
  | .encBlock _ _ => 0x60
  | .encMv _ => 0x61
  | .encMb _ => 0x62
  | .bsClear _ => 0x70
  | .bsWriteBits _ => 0x71
  | .bsWriteByte _ => 0x72
  | .bsFlush _ => 0x73
  | .rcFrameType => 0x80
  | .rcChooseQp => 0x81
  | .encodeFrame => 0x90

/-- The SEL field of a command's word: 0 where the row has no selector. -/
def Instr.selField : Instr → BitVec 4
  | .mbView sel => sel
  | .loadSrc sel => sel
  | .mcBlock sel => sel
  | .loadBlk sel => sel
  | .zeroBlk sel => sel
  | .fdct8 sel => sel
  | .idct8 sel => sel
  | .quant sel => sel
  | .dequant sel => sel
  | .encBlock sel _ => sel
  | .nop => 0
  | .init => 0
  | .storeRef => 0
  | .meFull => 0
  | .meDiamond => 0
  | .mcFrame => 0
  | .residual => 0
  | .fdct16 => 0
  | .idct16 => 0
  | .qpScale => 0
  | .encMv _ => 0
  | .encMb _ => 0
  | .bsClear _ => 0
  | .bsWriteBits _ => 0
  | .bsWriteByte _ => 0
  | .bsFlush _ => 0
  | .rcFrameType => 0
  | .rcChooseQp => 0
  | .encodeFrame => 0

/-- The S field of a command's word: false where the row has S "unused". -/
def Instr.sField : Instr → Bool
  | .encBlock _ st => st.bit
  | .encMv st => st.bit
  | .encMb st => st.bit
  | .bsClear st => st.bit
  | .bsWriteBits st => st.bit
  | .bsWriteByte st => st.bit
  | .bsFlush st => st.bit
  | .nop => false
  | .init => false
  | .mbView _ => false
  | .loadSrc _ => false
  | .storeRef => false
  | .meFull => false
  | .meDiamond => false
  | .mcBlock _ => false
  | .mcFrame => false
  | .residual => false
  | .loadBlk _ => false
  | .zeroBlk _ => false
  | .fdct8 _ => false
  | .idct8 _ => false
  | .fdct16 => false
  | .idct16 => false
  | .qpScale => false
  | .quant _ => false
  | .dequant _ => false
  | .rcFrameType => false
  | .rcChooseQp => false
  | .encodeFrame => false

/-- The word of a command: `OPC | (SEL << 8) | (S << 12)` (R301). -/
def encode (i : Instr) : Word :=
  i.opcode.setWidth 32 ||| (i.selField.setWidth 32 <<< 8) ||| ((BitVec.ofBool i.sField).setWidth 32 <<< 12)

/-- The command the decoder reads from the low `nbits` bits of `w`. A command is one 32-bit word and is written to
CMD whole, never stored as bytes the engine fetches (R300, 20_memory.md R225), so the word goes to the
decoder as it stands. -/
def decodeTableWord (nbits w : Nat) : Option Instr :=
  match decode (BitVec.ofNat 32 (w % 2 ^ nbits)) with
  | .ok i => some i
  | .error _ => none

end Sys2Proof
end

