-- ==== Sys2Proof/Config.lean ====
section
/-! DEFINITION. What one core is built with and no command can change: the parameters of
spec/00_scope.md R6 (BASIS, ZIGZAG, STREAM_CAP), the values they have in the core that `State.reset`
describes, and the one free value of the model (the bytes the spec leaves unspecified). -/

namespace Sys2Proof

/-- An entry of the transform matrix C: "every entry in {-1, 0, +1}" (43_transform.md R550). -/
inductive Trit where
  | minusOne
  | zero
  | plusOne
  deriving DecidableEq, Repr, Inhabited

/-- The parameters of one core (00_scope.md R6, 92_eei_decisions.md "Open parameters").  A model takes them as an
argument: they are part of the state every step is given, so a statement about every state is a
statement about every matrix, every scan table and every stream capacity. -/
structure Params where
  /-- BASIS, the matrix C in raster order: entry 8r + c is C[r][c] (10_state.md R118, 43_transform.md R550). -/
  basis : Vector Trit 64
  /-- ZIGZAG: entry i is the raster index at scan position i (10_state.md R119, 45_entropy.md R650). -/
  zigzag : Vector (Fin 64) 64
  /-- STREAM_CAP, the bytes of each stream buffer (10_state.md R116, 46_bitstream.md R701). -/
  streamCap : Nat
  deriving DecidableEq, Repr

/-- The range the spec gives each parameter: ZIGZAG is a permutation of 0..63 and
1 ≤ STREAM_CAP ≤ 0x0100_0000 (00_scope.md R6, 45_entropy.md R650). BASIS is in range by its type. -/
def Params.wf (p : Params) : Bool :=
  decide p.zigzag.toList.Nodup && decide (1 ≤ p.streamCap) && decide (p.streamCap ≤ 0x01000000)

/-- The default ZIGZAG table (45_entropy.md R651). -/
def Config.zigzag : Vector (Fin 64) 64 :=
  #v[ 0,  1,  8, 16,  9,  2,  3, 10,
     17, 24, 32, 25, 18, 11,  4,  5,
     12, 19, 26, 33, 40, 48, 41, 34,
     27, 20, 13,  6,  7, 14, 21, 28,
     35, 42, 49, 56, 57, 50, 43, 36,
     29, 22, 15, 23, 30, 37, 44, 51,
     58, 59, 52, 45, 38, 31, 39, 46,
     53, 60, 61, 54, 47, 55, 62, 63]

/-- The example matrix C_EX of 95_test_vectors.md section 2: C_EX[r][c] = (-1)^popcount(r AND c).
DESIGN CHOICE (log entry 1): the source gives no entries of C and the spec leaves BASIS OPEN, so this is only
the value the BASIS registers have in `State.reset`; no statement rests on it. -/
def Config.basis : Vector Trit 64 :=
  Vector.ofFn fun i : Fin 64 =>
    let a := (i.val / 8) &&& (i.val % 8)
    if (a % 2 + a / 2 % 2 + a / 4) % 2 = 0 then .plusOne else .minusOne

/-- The parameters of the core that `State.reset` describes: the spec's defaults for ZIGZAG and STREAM_CAP
(00_scope.md R6) and log entry 1's matrix. -/
def Config.params : Params where
  basis := Config.basis
  zigzag := Config.zigzag
  streamCap := 0x01000000

/-- FREE VALUE (log entry 2): the byte that an address of CUR, REF, PRED, MVARR or a stream memory reads as when
nothing has written it since the reset numbered `epoch`: "some byte value the rules do not fix"
(20_memory.md R212, 70_reset_and_hazards.md R1002). It has no body, so nothing can be proved of it. -/
opaque Config.unspecifiedByte (epoch address : Nat) : Byte

/-- The alignment of plane rows, in bytes (00_scope.md R6, PLANE_ALIGN). -/
def Config.planeAlign : Nat := 16

/-- The size of one frame region in bytes, which no frame may exceed (20_memory.md R205, R207). -/
def Config.frameRegionBytes : Nat := 0x01000000

end Sys2Proof
end

