-- ==== Sys2Proof/Machine/State.lean ====
section
/-! DEFINITION. The state of the core (spec/10_state.md), as plain data, and its value right after reset
(70_reset_and_hazards.md R1001). Fields that are the model's own (what the outside world does next and
what it has been answered) say so. -/

namespace Sys2Proof.Machine

/-- Faults of the machine: there are none. "The core has no traps" (60_exceptions.md R900), every command completes
(R1030), every address answers (20_memory.md R208), and a bus error is answered to the host with no effect in the
core (R905), so no step of the core stops it. Nobody raises a fault; that is safe. -/
inductive Fault
  deriving DecidableEq, Repr

/-- Refusals of the model. -/
inductive Refusal where
  /-- An instruction that has no meaning yet. Raised by no arm of `exec`: every command has its meaning. Safe. -/
  | notModelled (mnemonic : String)
  deriving DecidableEq, Repr

/-- The error codes (60_exceptions.md R901). Codes 8..255 are reserved and never recorded. -/
inductive ErrorCode where
  | illegalCmd
  | badArg
  | busy
  | noGeometry
  | badGeometry
  | noRef
  | overflow
  deriving DecidableEq, Repr

/-- The latched geometry, GEOM_W to GEOM_VOFF (R111): ten read-only 32-bit registers. -/
structure Geometry where
  w : Word
  h : Word
  mbCols : Word
  mbRows : Word
  yStride : Word
  cStride : Word
  cw : Word
  ch : Word
  uOff : Word
  vOff : Word
  deriving DecidableEq, Repr

/-- Every geometry register 0: at reset and after an INIT that fails (R111). -/
def Geometry.zero : Geometry := ⟨0, 0, 0, 0, 0, 0, 0, 0, 0, 0⟩

/-- The configuration registers (R110), each as wide as its defined bits. -/
structure CfgRegs where
  width : BitVec 16
  height : BitVec 16
  qp : BitVec 8
  range : BitVec 8
  gop : BitVec 16
  fps : BitVec 8
  targetKbps : Word
  qpMin : BitVec 8
  qpMax : BitVec 8
  deriving DecidableEq, Repr

/-- The argument registers (R113). ARG_FTYPE has one defined bit. -/
structure ArgRegs where
  mbx : Word
  mby : Word
  mvx : Word
  mvy : Word
  value : Word
  nbits : Word
  qp : Word
  frameId : Word
  tsLo : Word
  tsHi : Word
  bitsUsed : Word
  ftype : BitVec 1
  deriving DecidableEq, Repr

/-- The rate controller's state (R115). -/
structure RateControl where
  qp : BitVec 8
  lastBits : Word
  lastFrameId : Word
  deriving DecidableEq, Repr

/-- The frame-result registers (R117). -/
structure FrameResult where
  ftype : BitVec 1
  id : Word
  tsLo : Word
  tsHi : Word
  qp : BitVec 8
  mvBytes : Word
  coefBytes : Word
  deriving DecidableEq, Repr

/-- Every frame-result register 0 (reset, and INIT: 40_frame_mb.md R403). -/
def FrameResult.zero : FrameResult := ⟨0, 0, 0, 0, 0, 0, 0⟩

/-- The pending command and its snapshot (R150, 30_encoding.md R303). Of the registers the snapshot copies, CTRL is
the only one that can change before the command completes (R304), so its copy is the only one kept. -/
structure Running where
  word : Word
  ctrl : BitVec 3
  deriving DecidableEq, Repr

/-- The device address space's storage as a list of bytes by address, in one canonical form: addresses strictly
rising, and no entry equal to what an unlisted address reads as (`Memory.wf`). -/
abbrev Memory := List Host.Cell

/-- The three widths of a host access (20_memory.md R202). -/
inductive Width where
  | w8
  | w16
  | w32
  deriving DecidableEq, Repr

/-- One host access of the device address space (R202). The low bits of `value` are the ones written. -/
inductive Access where
  | read (width : Width) (addr : Word)
  | write (width : Width) (addr : Word) (value : Word)
  deriving DecidableEq, Repr

/-- What happens next at the core's boundary. The order of the events is the interleaving of host and engine
(R220); how many accesses stand before an `engine` is the length of the BUSY window (R304, R1030). -/
inductive Event where
  /-- the engine completes the running command, if there is one -/
  | engine
  /-- the host makes one access -/
  | access (a : Access)
  /-- the `rst` input takes this level (70_reset_and_hazards.md R1000) -/
  | rst (level : Bool)
  deriving DecidableEq, Repr

/-- The bus's answer to one host access: whether it is a bus error (R202, R905), and the data (0 for a write). -/
structure Response where
  busError : Bool
  data : Word
  deriving DecidableEq, Repr

/-- The machine. -/
structure State where
  /-- CTRL bits 2..0: IE_DONE, IE_ERR, ME_MODE (R102) -/
  ctrl : BitVec 3
  /-- STATUS.DONE (R103) -/
  done : Bool
  /-- STATUS.ERR (R103) -/
  err : Bool
  /-- STATUS.GEOM_VALID (R103) -/
  geomValid : Bool
  /-- STATUS.REF_VALID (R103, R150) -/
  refValid : Bool
  /-- STATUS.ERR_CODE (R103) -/
  errCode : BitVec 8
  /-- STATUS.ERR_OPC (R103) -/
  errOpc : BitVec 8
  /-- LAST_CMD, read at CMD (R104) -/
  lastCmd : Word
  /-- the pending command; STATUS.BUSY is 1 exactly while there is one (R103, R150) -/
  running : Option Running
  /-- CFG_WIDTH to CFG_QP_MAX (R110) -/
  cfg : CfgRegs
  /-- GEOM_W to GEOM_VOFF (R111) -/
  geom : Geometry
  /-- ARG_MBX to ARG_FTYPE (R113) -/
  args : ArgRegs
  /-- RES0 to RES7 (R114) -/
  res : Vector Word 8
  /-- RC_QP, RC_LAST_BITS, RC_LAST_FRAME_ID (R115) -/
  rc : RateControl
  /-- BS0_BITS (R116) -/
  bs0Bits : Word
  /-- BS1_BITS (R116) -/
  bs1Bits : Word
  /-- FR_TYPE to FR_COEF_BYTES (R117) -/
  fr : FrameResult
  /-- BASIS0..3, ZIGZAG0..15 and BS_CAP, as the parameters they mirror (R116, R118, R119) -/
  params : Params
  /-- CUR, REF, PRED, PRED_BLK, RESID, CRES_U, CRES_V, COEF, MVARR, STREAM0, STREAM1 (R140 to R146) -/
  mem : Memory
  /-- the level of the `rst` input (R1000) -/
  rst : Bool
  /-- MODEL'S OWN: how many resets came before this one; it makes the unspecified bytes of each reset free
  (log entry 2) -/
  epoch : Nat
  /-- MODEL'S OWN: what happens next at the core's boundary (log entry 3) -/
  schedule : List Event
  /-- MODEL'S OWN: the bus's answers so far, the latest first (log entry 3) -/
  responses : List Response
  deriving DecidableEq, Repr

/-- The state right after reset of a core with parameters `p` (R1001). CUR, REF, PRED, MVARR and the stream bytes
are unspecified: nothing is listed for them. The work buffers are 0: an unlisted byte of theirs reads 0. -/
def State.resetWith (p : Params) : State where
  ctrl := 0
  done := false
  err := false
  geomValid := false
  refValid := false
  errCode := 0
  errOpc := 0
  lastCmd := 0
  running := none
  cfg := { width := 0, height := 0, qp := 0, range := 0, gop := 0, fps := 0, targetKbps := 0, qpMin := 0, qpMax := 51 }
  geom := Geometry.zero
  args :=
    { mbx := 0, mby := 0, mvx := 0, mvy := 0, value := 0, nbits := 0, qp := 0, frameId := 0, tsLo := 0, tsHi := 0,
      bitsUsed := 0, ftype := 0 }
  res := Vector.replicate 8 0
  rc := { qp := 0, lastBits := 0, lastFrameId := 0 }
  bs0Bits := 0
  bs1Bits := 0
  fr := FrameResult.zero
  params := p
  mem := []
  rst := false
  epoch := 0
  schedule := []
  responses := []

/-- The machine right after reset (R1001), for the parameters `Config.params` (log entry 1). -/
def State.reset : State := State.resetWith Config.params

end Sys2Proof.Machine
end

