-- ==== Sys2Proof/Machine/Memory.lean ====
section
/-! DEFINITION. The device address space (spec/20_memory.md): the map of R205, one byte of it, and the
little-endian elements of R203. The state of every memory is one list in canonical form. -/

namespace Sys2Proof.Machine

/-- Bases of the address map (R205). -/
def curBase : Nat := 0x01000000
def refBase : Nat := 0x02000000
def predBase : Nat := 0x03000000
def predBlkBase : Nat := 0x04000000
def residBase : Nat := 0x04000100
def cresUBase : Nat := 0x04000300
def cresVBase : Nat := 0x04000380
def coefBase : Nat := 0x04000400
def mvarrBase : Nat := 0x05000000
def stream0Base : Nat := 0x06000000
def stream1Base : Nat := 0x07000000

/-- One past the last byte of COEF, the last work buffer. -/
def workEnd : Nat := 0x04000A00

/-- Address `a` is in a work buffer: PRED_BLK, RESID, CRES_U, CRES_V or COEF. -/
def isWork (a : Nat) : Bool := decide (predBlkBase ≤ a) && decide (a < workEnd)

/-- What an unlisted address reads as: its contents at reset (70_reset_and_hazards.md R1001). "all elements 0" for
the work buffers; `none` where they are unspecified (log entry 2). -/
def resetByte (a : Nat) : Option Byte := if isWork a then some 0 else none

/-- What a memory holds at one address. -/
def Memory.lookup : Memory → Nat → Option Byte
  | [], a => resetByte a
  | (k, v) :: m, a => if k = a then some v else Memory.lookup m a

/-- Drop every entry of one address. -/
def Memory.erase (m : Memory) (a : Nat) : Memory := m.filter fun c => decide (c.1 ≠ a)

/-- Put an entry at its place in a rising list. -/
def Memory.insert : Memory → Nat → Byte → Memory
  | [], a, v => [(a, v)]
  | (k, w) :: m, a, v =>
    if a < k then (a, v) :: (k, w) :: m
    else if a = k then (a, v) :: m
    else (k, w) :: Memory.insert m a v

/-- Write one byte, keeping the canonical form. -/
def Memory.set (m : Memory) (a : Nat) (v : Byte) : Memory :=
  if resetByte a = some v then m.erase a else m.insert a v

/-- Write bytes in order. -/
def Memory.setAll (m : Memory) (cells : List Host.Cell) : Memory :=
  cells.foldl (fun m c => m.set c.1 c.2) m

/-- The canonical form: addresses strictly rising, and no entry equal to what an unlisted address reads as. -/
def Memory.wf (m : Memory) : Bool :=
  decide ((m.map Prod.fst).Pairwise (· < ·)) && m.all fun c => decide (resetByte c.1 ≠ some c.2)

/-- The byte at an address. A byte that nothing has written since reset, where reset leaves it unspecified, is a free
value (R212; log entry 2). -/
def State.readByte (s : State) (a : Nat) : Byte :=
  (s.mem.lookup a).getD (Config.unspecifiedByte s.epoch a)

/-- Write bytes in order: the one operation that changes memory. -/
def State.storeCells (s : State) (cells : List Host.Cell) : State :=
  { s with mem := s.mem.setAll cells }

/-- `MemRead(a, n)`: n bytes, least significant at `a` (00_scope.md R9, R203). -/
def State.readLE (s : State) (a : Nat) : Nat → Nat
  | 0 => 0
  | n + 1 => (s.readByte a).toNat + 256 * s.readLE (a + 1) n

/-- The bytes `MemWrite(a, n, v)` writes: the n low bytes of v, least significant at `a` (00_scope.md R9, R203). -/
def cellsLE (a : Nat) : Nat → Nat → List Host.Cell
  | 0, _ => []
  | n + 1, v => (a, BitVec.ofNat 8 v) :: cellsLE (a + 1) n (v / 256)

/-- The 16-bit element at an address (R203). -/
def State.elem16 (s : State) (a : Nat) : BitVec 16 := BitVec.ofNat 16 (s.readLE a 2)

/-- The 32-bit element at an address (R203). -/
def State.elem32 (s : State) (a : Nat) : Word := BitVec.ofNat 32 (s.readLE a 4)

/-- The bytes of a 16-bit element stored at an address. -/
def cells16 (a : Nat) (v : BitVec 16) : List Host.Cell := cellsLE a 2 v.toNat

/-- The bytes of a 32-bit element stored at an address. -/
def cells32 (a : Nat) (v : Word) : List Host.Cell := cellsLE a 4 v.toNat

/-- `n` zero bytes from an address on. -/
def zeroCells (a n : Nat) : List Host.Cell := (List.range n).map fun i => (a + i, 0)

/-- Address `a` lies in a region of R205 other than REGS: CUR, REF, PRED, the work buffers, MVARR, or the first
STREAM_CAP bytes of a stream memory. Every other address above REGS is unmapped (R208). -/
def State.mapped (s : State) (a : Nat) : Bool :=
  (decide (curBase ≤ a) && decide (a < predBase + 0x01000000))
    || isWork a
    || (decide (mvarrBase ≤ a) && decide (a < mvarrBase + 0x01000000))
    || (decide (stream0Base ≤ a) && decide (a < stream0Base + s.params.streamCap))
    || (decide (stream1Base ≤ a) && decide (a < stream1Base + s.params.streamCap))

end Sys2Proof.Machine
end

