-- ==== Sys2Proof/Machine/Numeric.lean ====
section
/-! DEFINITION. The named conversions and integer functions of spec/00_scope.md R8. Values are mathematical
integers; a value reaches a field of N bits only through one of these. -/

namespace Sys2Proof.Machine

/-- `clamp(v, lo, hi) = min(max(v, lo), hi)`; when lo > hi it is hi. -/
def clampInt (v lo hi : Int) : Int := min (max v lo) hi

/-- `sat32(v)`. -/
def sat32 (v : Int) : Int := clampInt v (-2147483648) 2147483647

/-- `sat16(v)`. -/
def sat16 (v : Int) : Int := clampInt v (-32768) 32767

/-- `asr(v, k) = v div 2^k`: floor toward minus infinity. -/
def asr (v : Int) (k : Nat) : Int := v / (2 ^ k : Int)

/-- `quot(a, b)`: division truncated toward zero, as C++ `/`. -/
def quot (a b : Int) : Int := Int.tdiv a b

/-- `ceil_div(a, b) = (a + b - 1) div b`. -/
def ceilDiv (a b : Nat) : Nat := (a + b - 1) / b

/-- `align_up(a, b) = b · ceil_div(a, b)`. -/
def alignUp (a b : Nat) : Nat := b * ceilDiv a b

/-- `low_32(v)`, the 32-bit pattern of an integer. -/
def low32 (v : Int) : Word := BitVec.ofInt 32 v

/-- `low_16(v)`, the 16-bit pattern of an integer. -/
def low16 (v : Int) : BitVec 16 := BitVec.ofInt 16 v

/-- `zext_32` of a natural number. -/
def nat32 (n : Nat) : Word := BitVec.ofNat 32 n

/-- The absolute difference of two unsigned bytes, widened before the subtraction (41_motion_estimation.md R451). -/
def absDiff (a b : Byte) : Nat := ((a.toNat : Int) - (b.toNat : Int)).natAbs

/-- The pairs (r, c) with r < h and c < w, r outer (R11: `for r ..., for c ...`). -/
def rowsCols (h w : Nat) : List (Nat × Nat) :=
  (List.range h).flatMap fun r => (List.range w).map fun c => (r, c)

end Sys2Proof.Machine
end

