-- ==== Sys2Proof/Machine/Ops.lean ====
section
/-! DEFINITION. The operations the command meanings share: how a command runs and stops, raising an error (the core's
one exception, 60_exceptions.md R904), its return (R907), completion (30_encoding.md R303), and the result
and bit-writer registers. -/

namespace Sys2Proof.Machine

/-- The code of an error (R901). -/
def ErrorCode.code : ErrorCode → BitVec 8
  | .illegalCmd => 1
  | .badArg => 2
  | .busy => 3
  | .noGeometry => 4
  | .badGeometry => 5
  | .noRef => 6
  | .overflow => 7

/-- How far a command has got: it goes on from a state, or it has raised an error, which ends it early and keeps what
it wrote before (00_scope.md R9, 60_exceptions.md R906). -/
inductive Run where
  | ok (s : State)
  | error (s : State) (e : ErrorCode)
  deriving DecidableEq, Repr

/-- Go on with the next part of a command unless an error has ended it. -/
def Run.andThen : Run → (State → Run) → Run
  | .ok s, f => f s
  | .error s e, _ => .error s e

/-- One part of a command for each element of a list, in order (00_scope.md R11). -/
def Run.forEach {α : Type} (f : α → State → Run) : List α → State → Run
  | [], s => .ok s
  | x :: xs, s => (f x s).andThen (Run.forEach f xs)

/-- The state a command has reached, with or without error. -/
def Run.state : Run → State
  | .ok s => s
  | .error s _ => s

/-- Recording an error (R904): "Nothing else is saved." -/
def State.recordError (s : State) (e : ErrorCode) (opc : BitVec 8) : State :=
  { s with err := true, errCode := e.code, errOpc := opc }

/-- The return from an error (R907): the host's W1C of STATUS bit 2. -/
def State.clearError (s : State) : State :=
  { s with err := false, errCode := 0, errOpc := 0 }

/-- Completion, with or without error: BUSY ← 0, DONE ← 1 (30_encoding.md R303). -/
def State.complete (s : State) : State :=
  { s with running := none, done := true }

/-- A command's end: the error record if it raised one, then completion (R303, R904). `opc` is its opcode. -/
def Run.finish (opc : BitVec 8) (r : Run) : Host.Outcome State Fault Refusal :=
  .next (match r with
    | .ok s => s.complete
    | .error s e => (s.recordError e opc).complete)

/-- RESn ← v (10_state.md R114). -/
def State.setRes (s : State) (n : Fin 8) (v : Word) : State :=
  { s with res := s.res.set n v }

/-- The base of a stream memory (20_memory.md R205). -/
def streamBase : Stream → Nat
  | .stream0 => stream0Base
  | .stream1 => stream1Base

/-- BSs_BITS (10_state.md R116). -/
def State.bsBits (s : State) : Stream → Word
  | .stream0 => s.bs0Bits
  | .stream1 => s.bs1Bits

/-- BSs_BITS ← v. -/
def State.setBsBits (s : State) (st : Stream) (v : Word) : State :=
  match st with
  | .stream0 => { s with bs0Bits := v }
  | .stream1 => { s with bs1Bits := v }

/-- BSs_BYTES "always reads ceil_div(BSs_BITS, 8)" (R116). -/
def State.bsBytes (s : State) (st : Stream) : Nat := ceilDiv (s.bsBits st).toNat 8

end Sys2Proof.Machine
end

