-- ==== Sys2Proof/Machine/Flags.lean ====
section
/-! DEFINITION. The flags of the core: the fields of CTRL and STATUS (10_state.md R102, R103, R132), the interrupt
line (60_exceptions.md R910) and the W1C of STATUS. -/

namespace Sys2Proof.Machine

/-- CTRL.IE_DONE (R102). -/
def State.ieDone (s : State) : Bool := s.ctrl.getLsbD 0
/-- CTRL.IE_ERR (R102). -/
def State.ieErr (s : State) : Bool := s.ctrl.getLsbD 1

/-- The ME_MODE bit of a CTRL value: false = full search, true = diamond search (R102). -/
def ctrlMeMode (ctrl : BitVec 3) : Bool := ctrl.getLsbD 2

/-- The ME_MODE a running command uses: the one read at acceptance (30_encoding.md R303, R304 item 5). -/
def State.snapshotMeMode (s : State) : Bool :=
  match s.running with
  | some r => ctrlMeMode r.ctrl
  | none => ctrlMeMode s.ctrl

/-- STATUS.BUSY (R103). -/
def State.busy (s : State) : Bool := s.running.isSome

/-- The interrupt output, shown as STATUS.IRQ (R910). -/
def State.irq (s : State) : Bool := (s.done && s.ieDone) || (s.err && s.ieErr)

/-- The STATUS word (R103). Bits 7..6 and 31..24 are reserved and read as 0. -/
def State.statusWord (s : State) : Word :=
  (BitVec.ofBool s.busy).setWidth 32
    ||| ((BitVec.ofBool s.done).setWidth 32 <<< 1)
    ||| ((BitVec.ofBool s.err).setWidth 32 <<< 2)
    ||| ((BitVec.ofBool s.geomValid).setWidth 32 <<< 3)
    ||| ((BitVec.ofBool s.refValid).setWidth 32 <<< 4)
    ||| ((BitVec.ofBool s.irq).setWidth 32 <<< 5)
    ||| (s.errCode.setWidth 32 <<< 8)
    ||| (s.errOpc.setWidth 32 <<< 16)

/-- DONE ← 0 where a 1 is written to bit 1 (R103). -/
def State.w1cDone (s : State) (v : Word) : State :=
  if v.getLsbD 1 then { s with done := false } else s

/-- A host write of `v` to STATUS: a 1 in bit 1 clears DONE, a 1 in bit 2 clears ERR, ERR_CODE and ERR_OPC; every
other bit is ignored (R103). -/
def State.writeStatus (s : State) (v : Word) : State :=
  if v.getLsbD 2 then (s.w1cDone v).clearError else s.w1cDone v

/-- A host write of `v` to CTRL: bits 31..3 are reserved and ignored (R102). -/
def State.writeCtrl (s : State) (v : Word) : State := { s with ctrl := v.extractLsb' 0 3 }

end Sys2Proof.Machine
end

