-- ==== Sys2Proof/Machine/Operands.lean ====
section
/-! DEFINITION. Where commands find their operands: the SEL field as a plane or a block (30_encoding.md R302, R308),
the argument and configuration registers with their types (10_state.md R110, R113), macroblock views
(40_frame_mb.md R400, R401), frame samples (20_memory.md R206) and the elements of the work buffers (R205). -/

namespace Sys2Proof.Machine

/-- The three planes (30_encoding.md R308). -/
inductive Plane where
  | y
  | u
  | v
  deriving DecidableEq, Repr

/-- The plane a SEL value names; `none` outside 0..2 (R308). -/
def planeOfSel (sel : BitVec 4) : Option Plane :=
  if sel = 0 then some .y else if sel = 1 then some .u else if sel = 2 then some .v else none

/-- The block a SEL value names; `none` outside 0..5 (R308). -/
def blockOfSel (sel : BitVec 4) : Option Nat :=
  if selIsBlock sel then some sel.toNat else none

/-- The frame memories (10_state.md R140). -/
inductive FrameId where
  | cur
  | ref
  | pred
  deriving DecidableEq, Repr

/-- The base of a frame region (20_memory.md R205). -/
def FrameId.base : FrameId → Nat
  | .cur => curBase
  | .ref => refBase
  | .pred => predBase

/-- (mbx, mby) is in the grid (40_frame_mb.md R400). -/
def State.inGrid (s : State) (mbx mby : Nat) : Bool :=
  s.geomValid && decide (mbx < s.geom.mbCols.toNat) && decide (mby < s.geom.mbRows.toNat)

/-- A view: the clipped rectangle of one macroblock in one plane (R401). -/
structure View where
  x0 : Nat
  y0 : Nat
  w : Nat
  h : Nat
  valid : Bool
  deriving DecidableEq, Repr

/-- The width of a plane in samples (20_memory.md R206). -/
def State.planeW (s : State) : Plane → Nat
  | .y => s.geom.w.toNat
  | .u => s.geom.cw.toNat
  | .v => s.geom.cw.toNat

/-- The height of a plane in samples (20_memory.md R206). -/
def State.planeH (s : State) : Plane → Nat
  | .y => s.geom.h.toNat
  | .u => s.geom.ch.toNat
  | .v => s.geom.ch.toNat

/-- The stride of a plane in bytes (20_memory.md R206). -/
def State.planeStride (s : State) : Plane → Nat
  | .y => s.geom.yStride.toNat
  | .u => s.geom.cStride.toNat
  | .v => s.geom.cStride.toNat

/-- `planeoff`: the offset of a plane in a frame region (40_frame_mb.md R405). -/
def State.planeOff (s : State) : Plane → Nat
  | .y => 0
  | .u => s.geom.uOff.toNat
  | .v => s.geom.vOff.toNat

/-- The macroblock's nominal size in a plane: 16 for luma, 8 for chroma (R401). -/
def mbSize : Plane → Nat
  | .y => 16
  | .u => 8
  | .v => 8

/-- `view(p, mbx, mby)` (R401). An out-of-grid coordinate gives the zero view. -/
def State.view (s : State) (p : Plane) (mbx mby : Nat) : View :=
  if s.inGrid mbx mby then
    { x0 := mbSize p * mbx
      y0 := mbSize p * mby
      w := min (mbSize p) (s.planeW p - mbSize p * mbx)
      h := min (mbSize p) (s.planeH p - mbSize p * mby)
      valid := true }
  else { x0 := 0, y0 := 0, w := 0, h := 0, valid := false }

/-- `addrY`, `addrU`, `addrV` (20_memory.md R206). -/
def State.sampleAddr (s : State) (f : FrameId) (p : Plane) (x y : Nat) : Nat :=
  f.base + s.planeOff p + y * s.planeStride p + x

/-- `Y(f, x, y)`, `U(f, x, y)`, `V(f, x, y)` (00_scope.md R9). -/
def State.sample (s : State) (f : FrameId) (p : Plane) (x y : Nat) : Byte :=
  s.readByte (s.sampleAddr f p x y)

/-- Every (mbx, mby) of the grid in row-major order, y outer, x inner (40_frame_mb.md R402). -/
def State.mbCoords (s : State) : List (Nat × Nat) :=
  (rowsCols s.geom.mbRows.toNat s.geom.mbCols.toNat).map fun p => (p.2, p.1)

/-- `mbi = mby · GEOM_MBCOLS + mbx` (R400). -/
def State.mbIndex (s : State) (mbx mby : Nat) : Nat := mby * s.geom.mbCols.toNat + mbx

/-- The address of `PRED_BLK[r][c]` (20_memory.md R205). -/
def predBlkAddr (r c : Nat) : Nat := predBlkBase + (16 * r + c)

/-- The address of the staging element of a plane: `RESID[r][c]`, `CRES_U[r][c]` or `CRES_V[r][c]` (R205). -/
def stagingAddr : Plane → Nat → Nat → Nat
  | .y, r, c => residBase + 2 * (16 * r + c)
  | .u, r, c => cresUBase + 2 * (8 * r + c)
  | .v, r, c => cresVBase + 2 * (8 * r + c)

/-- The address of `COEF[k][r][c]`, at raster index i = 8r + c (R205). -/
def coefAddr (k i : Nat) : Nat := coefBase + 256 * k + 4 * i

/-- The address of `MVARR[i].dx`; `.dy` is 2 bytes above (R205). -/
def mvAddr (i : Nat) : Nat := mvarrBase + 4 * i

/-- An 8×8 block of integers in raster order (00_scope.md R10). -/
abbrev Block := Vector Int 64

/-- The address of `stage_k[r][c]`, the staging source of block k (43_transform.md R551). -/
def stageAddr (k r c : Nat) : Nat :=
  if k = 0 then stagingAddr .y r c
  else if k = 1 then stagingAddr .y r (c + 8)
  else if k = 2 then stagingAddr .y (r + 8) c
  else if k = 3 then stagingAddr .y (r + 8) (c + 8)
  else if k = 4 then stagingAddr .u r c
  else stagingAddr .v r c

/-- `stage_k` as signed integers (43_transform.md R551, R552). -/
def State.stageBlock (s : State) (k : Nat) : Block :=
  Vector.ofFn fun i : Fin 64 => (s.elem16 (stageAddr k (i.val / 8) (i.val % 8))).toInt

/-- `COEF[k]` as signed integers (10_state.md R144). -/
def State.coefBlock (s : State) (k : Nat) : Block :=
  Vector.ofFn fun i : Fin 64 => (s.elem32 (coefAddr k i.val)).toInt

/-- The bytes that store a block into `COEF[k]`, each element as its `low_32` pattern. -/
def coefCells (k : Nat) (b : Block) : List Host.Cell :=
  (List.finRange 64).flatMap fun i => cells32 (coefAddr k i.val) (low32 b[i])

/-- `COEF[k] <- b`, all 64 elements. -/
def State.setCoef (s : State) (k : Nat) (b : Block) : State := s.storeCells (coefCells k b)

/-- ARG_MVX and ARG_MVY are signed (10_state.md R113). -/
def State.argMvx (s : State) : Int := s.args.mvx.toInt
def State.argMvy (s : State) : Int := s.args.mvy.toInt
/-- ARG_QP is signed (R113). -/
def State.argQp (s : State) : Int := s.args.qp.toInt

/-- A command that takes a plane: SEL outside the range is an illegal word (30_encoding.md R306 item 4). -/
def withPlane (sel : BitVec 4) (s : State) (f : Plane → Run) : Run :=
  match planeOfSel sel with
  | some p => f p
  | none => .error s .illegalCmd

/-- A command that takes a block: SEL outside the range is an illegal word (30_encoding.md R306 item 4). -/
def withBlock (sel : BitVec 4) (s : State) (f : Nat → Run) : Run :=
  match blockOfSel sel with
  | some k => f k
  | none => .error s .illegalCmd

/-- A command that needs the frame geometry raises NO_GEOMETRY while GEOM_VALID = 0 (60_exceptions.md R901). -/
def withGeometry (s : State) (f : Run) : Run :=
  if s.geomValid then f else .error s .noGeometry

end Sys2Proof.Machine
end

