-- ==== Sys2Proof/Machine/Bitstream.lean ====
section
/-! DEFINITION. The bitstream writers (spec/46_bitstream.md): the emit primitive, BS_CLEAR, BS_WRITE_BITS,
BS_WRITE_BYTE, BS_FLUSH. -/

namespace Sys2Proof.Machine

/-- A field of a stream: the low `width` bits of `value` (R702). -/
structure Field where
  value : Word
  width : Nat
  deriving DecidableEq, Repr

/-- A byte with bit i set to b. -/
def byteWithBit (x : Byte) (i : Nat) (b : Bool) : Byte :=
  if b then x ||| (1#8 <<< i) else x &&& ~~~(1#8 <<< i)

/-- `STREAMs[p div 8] bit (p mod 8)` (R702). -/
def State.streamBit (s : State) (st : Stream) (p : Nat) : Bool :=
  (s.readByte (streamBase st + p / 8)).getLsbD (p % 8)

/-- `STREAMs[p div 8] bit (p mod 8) <- b` (R702). -/
def State.setStreamBit (s : State) (st : Stream) (p : Nat) (b : Bool) : State :=
  s.storeCells [(streamBase st + p / 8, byteWithBit (s.readByte (streamBase st + p / 8)) (p % 8) b)]

/-- Bits i.. of v at stream positions p.., n of them, the least significant first (R702). -/
def State.putBits (s : State) (st : Stream) (p : Nat) (v : Word) (i : Nat) : Nat → State
  | 0 => s
  | n + 1 => (s.setStreamBit st p (v.getLsbD i)).putBits st (p + 1) v (i + 1) n

/-- The buffer extension: the bytes from BSs_BYTES up to `bytes` become 0 (R702). -/
def State.extendStream (s : State) (st : Stream) (bytes : Nat) : State :=
  s.storeCells (zeroCells (streamBase st + s.bsBytes st) (bytes - s.bsBytes st))

/-- `emit(s, v, n)` (R702). A field that would need more than STREAM_CAP bytes raises OVERFLOW and writes nothing. -/
def emit (st : Stream) (f : Field) (s : State) : Run :=
  let b := (s.bsBits st).toNat
  let bytes := ceilDiv (b + f.width) 8
  if s.params.streamCap < bytes then .error s .overflow
  else .ok (((s.extendStream st bytes).putBits st b f.value 0 f.width).setBsBits st (nat32 (b + f.width)))

/-- A sequence of emits, in order; the first that overflows ends it and the ones before it stay written
(60_exceptions.md R906). -/
def emitAll (st : Stream) (fs : List Field) (s : State) : Run := Run.forEach (emit st) fs s

/-- `align(s)`: pad to a byte boundary with zero bits (R703). -/
def align (st : Stream) (s : State) : Run :=
  let r := (s.bsBits st).toNat % 8
  if r = 0 then .ok s else emit st { value := 0, width := 8 - r } s

/-- BS_CLEAR (R704): the bytes are not erased. -/
def runBsClear (st : Stream) (s : State) : Run := .ok (s.setBsBits st 0)

/-- BS_WRITE_BITS (R705). -/
def runBsWriteBits (st : Stream) (s : State) : Run :=
  let n := s.args.nbits.toNat
  if n < 1 ∨ 32 < n then .error s .badArg else emit st { value := s.args.value, width := n } s

/-- BS_WRITE_BYTE (R706). -/
def runBsWriteByte (st : Stream) (s : State) : Run :=
  (align st s).andThen (emit st { value := (s.args.value.extractLsb' 0 8).setWidth 32, width := 8 })

/-- BS_FLUSH (R707). -/
def runBsFlush (st : Stream) (s : State) : Run := align st s

/-- BS_CLEAR (OPC 0x70, R704). -/
def execBsClear (st : Stream) (s : State) : Host.Outcome State Fault Refusal := Run.finish 0x70 (runBsClear st s)

/-- BS_WRITE_BITS (OPC 0x71, R705). -/
def execBsWriteBits (st : Stream) (s : State) : Host.Outcome State Fault Refusal :=
  Run.finish 0x71 (runBsWriteBits st s)

/-- BS_WRITE_BYTE (OPC 0x72, R706). -/
def execBsWriteByte (st : Stream) (s : State) : Host.Outcome State Fault Refusal :=
  Run.finish 0x72 (runBsWriteByte st s)

/-- BS_FLUSH (OPC 0x73, R707). -/
def execBsFlush (st : Stream) (s : State) : Host.Outcome State Fault Refusal := Run.finish 0x73 (runBsFlush st s)

end Sys2Proof.Machine
end

