-- ==== Sys2Proof/Machine/Entropy.lean ====
section
/-! DEFINITION. The entropy coder (spec/45_entropy.md): ENC_BLOCK, ENC_MV, ENC_MB. What a block, a vector or a
macroblock writes is a list of fields; a stream takes them with `emitAll`. -/

namespace Sys2Proof.Machine

/-- A run field (R653): the escape 15 and an 8-bit extension for a run above 15, otherwise the run in 4 bits. A run of
exactly 15 is the literal 15 (R659). -/
def runFields (r : Nat) : List Field :=
  if 15 < r then [{ value := 15, width := 4 }, { value := nat32 (r - 16), width := 8 }]
  else [{ value := nat32 r, width := 4 }]

/-- A (run, level) pair (R653): the level field holds `abs(v) mod 4096` (R660), the sign field 1 for a negative v. -/
def pairFields (r : Nat) (v : Int) : List Field :=
  runFields r ++ [{ value := nat32 (v.natAbs % 4096), width := 12 }, { value := if v < 0 then 1 else 0, width := 1 }]

/-- The pairs of the rest of a block after `run` zeros, and the end-of-block pair (R654). -/
def scanFields : Nat → List Int → List Field
  | run, [] => pairFields run 0
  | run, z :: zs => if z = 0 then scanFields (run + 1) zs else pairFields run z ++ scanFields 0 zs

/-- The scanned sequence of a block (R652). -/
def scan (zigzag : Vector (Fin 64) 64) (b : Block) : List Int := zigzag.toList.map fun j => b[j]

/-- What `encode_block(s, k)` emits for a block (R654). -/
def blockFields (zigzag : Vector (Fin 64) 64) (b : Block) : List Field := scanFields 0 (scan zigzag b)

/-- What `encode_mv(s, dx, dy)` emits: dx, then dy, 16 bits each (R656). -/
def mvFields (dx dy : Int) : List Field :=
  [{ value := (low16 dx).setWidth 32, width := 16 }, { value := (low16 dy).setWidth 32, width := 16 }]

/-- `encode_block(s, k)` on COEF[k] (R654). -/
def encodeBlock (st : Stream) (k : Nat) (s : State) : Run :=
  emitAll st (blockFields s.params.zigzag (s.coefBlock k)) s

/-- `RES0 <- BSs_BITS - b0`: the bits a command wrote to a stream since the state `s0` (R655, R657, R658). -/
def withBitsWritten (st : Stream) (s0 : State) (s : State) : Run :=
  .ok (s.setRes 0 (s.bsBits st - s0.bsBits st))

/-- ENC_BLOCK (R655). -/
def runEncBlock (sel : BitVec 4) (st : Stream) (s : State) : Run :=
  withBlock sel s fun k => (encodeBlock st k s).andThen (withBitsWritten st s)

/-- ENC_MV (R657). -/
def runEncMv (st : Stream) (s : State) : Run :=
  (emitAll st (mvFields s.argMvx s.argMvy) s).andThen (withBitsWritten st s)

/-- What ENC_MB emits: the vector of a P macroblock, then the six blocks (R658). -/
def mbFields (s : State) : List Field :=
  (if s.args.ftype = 1 then mvFields s.argMvx s.argMvy else [])
    ++ (List.range 6).flatMap fun k => blockFields s.params.zigzag (s.coefBlock k)

/-- ENC_MB (R658): every field goes to the one stream S names. -/
def runEncMb (st : Stream) (s : State) : Run := (emitAll st (mbFields s) s).andThen (withBitsWritten st s)

/-- ENC_BLOCK (OPC 0x60, R655). -/
def execEncBlock (sel : BitVec 4) (st : Stream) (s : State) : Host.Outcome State Fault Refusal :=
  Run.finish 0x60 (runEncBlock sel st s)

/-- ENC_MV (OPC 0x61, R657). -/
def execEncMv (st : Stream) (s : State) : Host.Outcome State Fault Refusal := Run.finish 0x61 (runEncMv st s)

/-- ENC_MB (OPC 0x62, R658). -/
def execEncMb (st : Stream) (s : State) : Host.Outcome State Fault Refusal := Run.finish 0x62 (runEncMb st s)

end Sys2Proof.Machine
end

