-- ==== Sys2Proof/Machine/FrameMb.lean ====
section
/-! DEFINITION. Frame storage and macroblock addressing (spec/40_frame_mb.md): NOP, INIT, MB_VIEW, LOAD_SRC,
STORE_REF. -/

namespace Sys2Proof.Machine

/-- The geometry of a W × H frame (10_state.md R111, 40_frame_mb.md R403). -/
def geometryOf (w h : Nat) : Geometry :=
  let ys := alignUp w Config.planeAlign
  let cw := w / 2
  let ch := h / 2
  let cs := alignUp cw Config.planeAlign
  { w := nat32 w, h := nat32 h, mbCols := nat32 (ceilDiv w 16), mbRows := nat32 (ceilDiv h 16),
    yStride := nat32 ys, cStride := nat32 cs, cw := nat32 cw, ch := nat32 ch,
    uOff := nat32 (ys * h), vOff := nat32 (ys * h + cs * ch) }

/-- The bytes of a W × H frame: `ys*H + 2*cs*ch` (R403). -/
def frameBytes (w h : Nat) : Nat :=
  alignUp w Config.planeAlign * h + 2 * alignUp (w / 2) Config.planeAlign * (h / 2)

/-- INIT accepts a W × H frame: neither is 0 and the frame fits its 16 MiB region (R403). -/
def geometryLegal (w h : Nat) : Bool :=
  decide (w ≠ 0) && decide (h ≠ 0) && decide (frameBytes w h ≤ Config.frameRegionBytes)

/-- INIT with an illegal size: it has cleared REF_VALID and the geometry when it raises BAD_GEOMETRY, and leaves the
rest as it was (R403). -/
def initFailed (s : State) : State :=
  { s with refValid := false, geomValid := false, geom := Geometry.zero }

/-- The bytes INIT zeroes: the five work buffers and one vector per macroblock (R403). -/
def initCells (w h : Nat) : List Host.Cell :=
  zeroCells predBlkBase (workEnd - predBlkBase) ++ zeroCells mvarrBase (4 * (ceilDiv w 16 * ceilDiv h 16))

/-- INIT with a legal size (R403). -/
def initDone (s : State) (w h : Nat) : State :=
  { s.storeCells (initCells w h) with
    refValid := false
    geomValid := true
    geom := geometryOf w h
    bs0Bits := 0
    bs1Bits := 0
    rc := { qp := s.cfg.qp, lastBits := 0, lastFrameId := 0 }
    fr := FrameResult.zero }

/-- INIT (R403). -/
def runInit (s : State) : Run :=
  if geometryLegal s.cfg.width.toNat s.cfg.height.toNat then
    .ok (initDone s s.cfg.width.toNat s.cfg.height.toNat)
  else .error (initFailed s) .badGeometry

/-- MB_VIEW's results (R405). -/
def mbViewResults (s : State) (p : Plane) : State :=
  let v := s.view p s.args.mbx.toNat s.args.mby.toNat
  let stride := if v.valid then s.planeStride p else 0
  let off := if v.valid then s.planeOff p + v.y0 * stride + v.x0 else 0
  ((((((s.setRes 0 (nat32 v.x0)).setRes 1 (nat32 v.y0)).setRes 2 (nat32 v.w)).setRes 3 (nat32 v.h)).setRes 4
    (if v.valid then 1 else 0)).setRes 5 (nat32 stride)).setRes 6 (nat32 off)

/-- MB_VIEW (R405). -/
def runMbView (sel : BitVec 4) (s : State) : Run :=
  withPlane sel s fun p => withGeometry s (.ok (mbViewResults s p))

/-- The bytes LOAD_SRC stores: the valid region of the view, each sample zero-extended to 16 bits (R406). -/
def loadSrcCells (s : State) (p : Plane) (mbx mby : Nat) : List Host.Cell :=
  let v := s.view p mbx mby
  (rowsCols v.h v.w).flatMap fun rc =>
    cells16 (stagingAddr p rc.1 rc.2) ((s.sample .cur p (v.x0 + rc.2) (v.y0 + rc.1)).setWidth 16)

/-- `load_src(p, mbx, mby)`: the body of LOAD_SRC (R406, 48_encoder.md R804). An invalid view has no samples, so it
writes nothing. -/
def loadSrc (s : State) (p : Plane) (mbx mby : Nat) : State := s.storeCells (loadSrcCells s p mbx mby)

/-- LOAD_SRC (R406). -/
def runLoadSrc (sel : BitVec 4) (s : State) : Run :=
  withPlane sel s fun p => withGeometry s (.ok (loadSrc s p s.args.mbx.toNat s.args.mby.toNat))

/-- Every sample of one plane of CUR, at its address in REF (R407). -/
def planeCopyCells (s : State) (p : Plane) : List Host.Cell :=
  (rowsCols (s.planeH p) (s.planeW p)).map fun rc =>
    (s.sampleAddr .ref p rc.2 rc.1, s.sample .cur p rc.2 rc.1)

/-- The copy of CUR into REF, with REF_VALID ← 1 (R407, 48_encoder.md R808). -/
def storeRef (s : State) : State :=
  { s.storeCells (planeCopyCells s .y ++ planeCopyCells s .u ++ planeCopyCells s .v) with refValid := true }

/-- STORE_REF (R407). -/
def runStoreRef (s : State) : Run := withGeometry s (.ok (storeRef s))

/-- NOP (OPC 0x00, R404): it "does nothing"; it still completes. -/
def execNop (s : State) : Host.Outcome State Fault Refusal := Run.finish 0x00 (.ok s)

/-- INIT (OPC 0x01, R403). -/
def execInit (s : State) : Host.Outcome State Fault Refusal := Run.finish 0x01 (runInit s)

/-- MB_VIEW (OPC 0x10, R405). -/
def execMbView (sel : BitVec 4) (s : State) : Host.Outcome State Fault Refusal := Run.finish 0x10 (runMbView sel s)

/-- LOAD_SRC (OPC 0x11, R406). -/
def execLoadSrc (sel : BitVec 4) (s : State) : Host.Outcome State Fault Refusal := Run.finish 0x11 (runLoadSrc sel s)

/-- STORE_REF (OPC 0x12, R407). -/
def execStoreRef (s : State) : Host.Outcome State Fault Refusal := Run.finish 0x12 (runStoreRef s)

end Sys2Proof.Machine
end

