-- ==== Sys2Proof/Machine/MotionComp.lean ====
section
/-! DEFINITION. Motion compensation and residual (spec/42_motion_comp_residual.md): MC_BLOCK, MC_FRAME, RESIDUAL. -/

namespace Sys2Proof.Machine

/-- One axis of the sampler: the origin plus the vector, clamped into [0, frame_dim − block_dim] (R500). -/
def clampOrigin (origin : Nat) (mv : Int) (dim block : Nat) : Nat :=
  (clampInt (origin + mv) 0 ((dim : Int) - block)).toNat

/-- `predict_block(p, mbx, mby, mvx, mvy)[r][c]` for the block's view (R500). -/
def predictSample (s : State) (p : Plane) (v : View) (mvx mvy : Int) (r c : Nat) : Byte :=
  s.sample .ref p (clampOrigin v.x0 mvx (s.planeW p) v.w + c) (clampOrigin v.y0 mvy (s.planeH p) v.h + r)

/-- The bytes `PRED_BLK[r][c] <- predict_block(...)[r][c]` stores, over the valid region (R501, 48_encoder.md R805). -/
def predBlkCells (s : State) (p : Plane) (mbx mby : Nat) (mvx mvy : Int) : List Host.Cell :=
  let v := s.view p mbx mby
  (rowsCols v.h v.w).map fun rc => (predBlkAddr rc.1 rc.2, predictSample s p v mvx mvy rc.1 rc.2)

/-- The predicted block written to PRED_BLK. An invalid view has no samples, so PRED_BLK is unchanged (R501). -/
def predictToBlk (s : State) (p : Plane) (mbx mby : Nat) (mvx mvy : Int) : State :=
  s.storeCells (predBlkCells s p mbx mby mvx mvy)

/-- MC_BLOCK (R501): the vector is applied exactly as given, in every plane. -/
def runMcBlock (sel : BitVec 4) (s : State) : Run :=
  withPlane sel s fun p =>
    withGeometry s (.ok (predictToBlk s p s.args.mbx.toNat s.args.mby.toNat s.argMvx s.argMvy))

/-- `MVARR[i]` as signed components (10_state.md R145). -/
def State.mv (s : State) (i : Nat) : Int × Int :=
  ((s.elem16 (mvAddr i)).toInt, (s.elem16 (mvAddr i + 2)).toInt)

/-- The vector MC_FRAME applies in a plane: the luma vector, and each component halved toward zero for chroma
(R502, R503). -/
def planeVector (p : Plane) (mv : Int × Int) : Int × Int :=
  match p with
  | .y => mv
  | .u => (quot mv.1 2, quot mv.2 2)
  | .v => (quot mv.1 2, quot mv.2 2)

/-- The bytes MC_FRAME stores for one macroblock in one plane of PRED (R503). -/
def predMbCells (s : State) (p : Plane) (mbx mby : Nat) : List Host.Cell :=
  let v := s.view p mbx mby
  let mv := planeVector p (s.mv (s.mbIndex mbx mby))
  (rowsCols v.h v.w).map fun rc =>
    (s.sampleAddr .pred p (v.x0 + rc.2) (v.y0 + rc.1), predictSample s p v mv.1 mv.2 rc.1 rc.2)

/-- The bytes MC_FRAME stores: every macroblock in grid order, in planes Y, U, V (R503). It reads REF and MVARR and
writes PRED only, so all values are those before the command. -/
def predFrameCells (s : State) : List Host.Cell :=
  s.mbCoords.flatMap fun mb =>
    predMbCells s .y mb.1 mb.2 ++ predMbCells s .u mb.1 mb.2 ++ predMbCells s .v mb.1 mb.2

/-- MC_FRAME (R503). -/
def runMcFrame (s : State) : Run := withGeometry s (.ok (s.storeCells (predFrameCells s)))

/-- `PRED_BLK[r][c]`. -/
def State.predBlk (s : State) (r c : Nat) : Byte := s.readByte (predBlkAddr r c)

/-- The bytes RESIDUAL stores: `low_16(Y(CUR, ...) - PRED_BLK[r][c])` over the valid luma region (R504, R505). -/
def residCells (s : State) (mbx mby : Nat) : List Host.Cell :=
  let v := s.view .y mbx mby
  (rowsCols v.h v.w).flatMap fun rc =>
    cells16 (stagingAddr .y rc.1 rc.2)
      (low16 (((s.sample .cur .y (v.x0 + rc.2) (v.y0 + rc.1)).toNat : Int) - (s.predBlk rc.1 rc.2).toNat))

/-- The residual of one macroblock. An invalid view has no samples, so RESID is unchanged (R505). -/
def residual (s : State) (mbx mby : Nat) : State := s.storeCells (residCells s mbx mby)

/-- RESIDUAL (R505). -/
def runResidual (s : State) : Run := withGeometry s (.ok (residual s s.args.mbx.toNat s.args.mby.toNat))

/-- MC_BLOCK (OPC 0x30, R501). -/
def execMcBlock (sel : BitVec 4) (s : State) : Host.Outcome State Fault Refusal := Run.finish 0x30 (runMcBlock sel s)

/-- MC_FRAME (OPC 0x31, R503). -/
def execMcFrame (s : State) : Host.Outcome State Fault Refusal := Run.finish 0x31 (runMcFrame s)

/-- RESIDUAL (OPC 0x32, R505). -/
def execResidual (s : State) : Host.Outcome State Fault Refusal := Run.finish 0x32 (runResidual s)

end Sys2Proof.Machine
end

