-- ==== Sys2Proof/Machine/MotionEstimation.lean ====
section
/-! DEFINITION. Motion estimation (spec/41_motion_estimation.md): the candidate test, the SAD cost, the full and the
diamond search, ME_FULL and ME_DIAMOND. -/

namespace Sys2Proof.Machine

/-- A vector and its matching cost (00_scope.md glossary, MotionResult). -/
structure Motion where
  dx : Int
  dy : Int
  cost : Nat
  deriving DecidableEq, Repr

/-- The sentinel result (R452). -/
def sentinel : Motion := { dx := 0, dy := 0, cost := 0xFFFFFFFF }

/-- `inb(dx, dy)` (R450): the displaced w × h block lies inside the luma plane. -/
def inBounds (s : State) (v : View) (dx dy : Int) : Bool :=
  decide (0 ≤ v.x0 + dx) && decide (0 ≤ v.y0 + dy)
    && decide (v.x0 + dx + v.w ≤ (s.geom.w.toNat : Int)) && decide (v.y0 + dy + v.h ≤ (s.geom.h.toNat : Int))

/-- `SAD(dx, dy)` of an in-bounds displacement (R451). -/
def sad (s : State) (v : View) (dx dy : Int) : Nat :=
  ((rowsCols v.h v.w).map fun rc =>
    absDiff (s.sample .cur .y (v.x0 + rc.2) (v.y0 + rc.1))
      (s.sample .ref .y ((v.x0 : Int) + dx + rc.2).toNat ((v.y0 : Int) + dy + rc.1).toNat)).sum

/-- One candidate against the best so far: it wins only when it is in bounds and strictly cheaper, so the first found
wins a tie (R453, R455). -/
def consider (s : State) (v : View) (best : Motion) (d : Int × Int) : Motion :=
  if inBounds s v d.1 d.2 then
    let cost := sad s v d.1 d.2
    if cost < best.cost then { dx := d.1, dy := d.2, cost := cost } else best
  else best

/-- -r..r in ascending order. -/
def symRange (r : Nat) : List Int := (List.range (2 * r + 1)).map fun (i : Nat) => (i : Int) - (r : Int)

/-- The candidates of the full search, dy outer, dx inner, both ascending (R453). -/
def fullCandidates (r : Nat) : List (Int × Int) :=
  (symRange r).flatMap fun dy => (symRange r).map fun dx => (dx, dy)

/-- `full_search(mbx, mby, R)` (R453). -/
def fullSearch (s : State) (mbx mby r : Nat) : Motion :=
  let v := s.view .y mbx mby
  if v.valid then (fullCandidates r).foldl (consider s v) sentinel else sentinel

/-- The probe directions of the diamond search, in order (R455). -/
def diamondDirs : List (Int × Int) :=
  [(0, -1), (0, 1), (-1, 0), (1, 0), (-1, -1), (1, -1), (-1, 1), (1, 1)]

/-- The eight probes of one step, all around the centre of the step (R455). -/
def diamondProbes (centre : Motion) (step : Nat) : List (Int × Int) :=
  diamondDirs.map fun o => (centre.dx + step * o.1, centre.dy + step * o.2)

/-- The steps of the diamond search from a centre, halving `step` until it is 0 (R455). `fuel` bounds the number of
steps; `step` itself is enough. -/
def diamondSteps (s : State) (v : View) : Nat → Nat → Motion → Motion
  | 0, _, centre => centre
  | fuel + 1, step, centre =>
    if step = 0 then centre
    else diamondSteps s v fuel (step / 2) ((diamondProbes centre step).foldl (consider s v) centre)

/-- `diamond_search(mbx, mby, R)` (R455). -/
def diamondSearch (s : State) (mbx mby r : Nat) : Motion :=
  let v := s.view .y mbx mby
  if v.valid then diamondSteps s v r r { dx := 0, dy := 0, cost := sad s v 0 0 } else sentinel

/-- RES0, RES1, RES2 of a motion search (R454, R456). -/
def setMotion (s : State) (m : Motion) : State :=
  ((s.setRes 0 (low32 m.dx)).setRes 1 (low32 m.dy)).setRes 2 (nat32 m.cost)

/-- ME_FULL (R454). -/
def runMeFull (s : State) : Run :=
  withGeometry s (.ok (setMotion s (fullSearch s s.args.mbx.toNat s.args.mby.toNat s.cfg.range.toNat)))

/-- ME_DIAMOND (R456). -/
def runMeDiamond (s : State) : Run :=
  withGeometry s (.ok (setMotion s (diamondSearch s s.args.mbx.toNat s.args.mby.toNat s.cfg.range.toNat)))

/-- ME_FULL (OPC 0x20, R454). -/
def execMeFull (s : State) : Host.Outcome State Fault Refusal := Run.finish 0x20 (runMeFull s)

/-- ME_DIAMOND (OPC 0x21, R456). -/
def execMeDiamond (s : State) : Host.Outcome State Fault Refusal := Run.finish 0x21 (runMeDiamond s)

end Sys2Proof.Machine
end

