-- ==== Sys2Proof/Machine/Quantizer.lean ====
section
/-! DEFINITION. The quantizer and the dequantizer (spec/44_quantizer.md): QP_SCALE, QUANT, DEQUANT. -/

namespace Sys2Proof.Machine

/-- `SCALE_TABLE`, qp 0 first (R601). -/
def scaleTable : List Nat :=
  [1, 1, 1, 1, 2, 2, 2, 2, 3, 3, 3, 4, 4, 4, 5, 6, 6, 7, 8, 9, 10, 11, 13, 14, 16, 18, 20, 22, 25, 28, 32, 35, 40, 44,
   50, 56, 63, 70, 79, 89, 99, 112, 125, 140, 158, 177, 198, 223, 250, 280, 314, 256]

/-- `qp_to_scale(qp)` (R600). -/
def qpToScale (qp : Int) : Nat :=
  if qp ≤ 0 then 1 else if 51 ≤ qp then 256 else scaleTable.getD qp.toNat 1

/-- `quantize(c, s) = sign(c) · ((abs(c) + (s div 2)) div s)` (R603). -/
def quantize (c : Int) (s : Nat) : Int := c.sign * ((c.natAbs + s / 2) / s : Nat)

/-- `dequantize(q, s) = sat32(q · s)` (R605). -/
def dequantize (q : Int) (s : Nat) : Int := sat32 (q * s)

/-- `COEF[k] <- quantize(COEF[k], scale)`, element by element (R604, 48_encoder.md R804). -/
def quantBlk (s : State) (k scale : Nat) : State := s.setCoef k ((s.coefBlock k).map fun c => quantize c scale)

/-- `COEF[k] <- dequantize(COEF[k], scale)`, element by element (R606). -/
def dequantBlk (s : State) (k scale : Nat) : State := s.setCoef k ((s.coefBlock k).map fun q => dequantize q scale)

/-- QP_SCALE (R602). -/
def runQpScale (s : State) : Run := .ok (s.setRes 0 (nat32 (qpToScale s.argQp)))

/-- QUANT (R604). -/
def runQuant (sel : BitVec 4) (s : State) : Run := withBlock sel s fun k => .ok (quantBlk s k (qpToScale s.argQp))

/-- DEQUANT (R606). -/
def runDequant (sel : BitVec 4) (s : State) : Run := withBlock sel s fun k => .ok (dequantBlk s k (qpToScale s.argQp))

/-- QP_SCALE (OPC 0x50, R602). -/
def execQpScale (s : State) : Host.Outcome State Fault Refusal := Run.finish 0x50 (runQpScale s)

/-- QUANT (OPC 0x51, R604). -/
def execQuant (sel : BitVec 4) (s : State) : Host.Outcome State Fault Refusal := Run.finish 0x51 (runQuant sel s)

/-- DEQUANT (OPC 0x52, R606). -/
def execDequant (sel : BitVec 4) (s : State) : Host.Outcome State Fault Refusal := Run.finish 0x52 (runDequant sel s)

end Sys2Proof.Machine
end

