-- ==== Sys2Proof/Machine/RateControl.lean ====
section
/-! DEFINITION. Rate control (spec/47_rate_control.md): RC_FRAME_TYPE, RC_CHOOSE_QP. -/

namespace Sys2Proof.Machine

/-- I-frame or P-frame; coded 0 = I, 1 = P (R750). -/
inductive FrameType where
  | i
  | p
  deriving DecidableEq, Repr

/-- The code of a frame type (R750). -/
def FrameType.code : FrameType → BitVec 1
  | .i => 0
  | .p => 1

/-- `frame_type(f)` for the GOP size g (R750). -/
def frameType (f g : Nat) : FrameType := if f = 0 ∨ (0 < g ∧ f % g = 0) then .i else .p

/-- `over(b) := 5 · F · b > 6000 · K` (R753). -/
def overTarget (fps kbps b : Nat) : Bool := decide (6000 * kbps < 5 * fps * b)

/-- `under(b) := 5 · F · b < 4000 · K` (R753). -/
def underTarget (fps kbps b : Nat) : Bool := decide (5 * fps * b < 4000 * kbps)

/-- The QP before the clamp: q + 2, q - 1 or q, without wrap (R754). -/
def nextQp (fps kbps q b : Nat) : Int :=
  if overTarget fps kbps b then (q : Int) + 2 else if underTarget fps kbps b then (q : Int) - 1 else q

/-- `choose_qp(q, b)` with the configured rate and bounds (R754). The result is 0..255, since both bounds are. -/
def chooseQp (cfg : CfgRegs) (q : BitVec 8) (b : Nat) : BitVec 8 :=
  BitVec.ofInt 8 (clampInt (nextQp cfg.fps.toNat cfg.targetKbps.toNat q.toNat b) cfg.qpMin.toNat cfg.qpMax.toNat)

/-- RC_FRAME_TYPE (R751). -/
def runRcFrameType (s : State) : Run :=
  .ok (s.setRes 0 ((frameType s.args.frameId.toNat s.cfg.gop.toNat).code.setWidth 32))

/-- RC_CHOOSE_QP (R755). -/
def runRcChooseQp (s : State) : Run :=
  let q := chooseQp s.cfg s.rc.qp s.args.bitsUsed.toNat
  .ok ({ s with rc := { qp := q, lastBits := s.args.bitsUsed, lastFrameId := s.args.frameId } }.setRes 0
    (q.setWidth 32))

/-- RC_FRAME_TYPE (OPC 0x80, R751). -/
def execRcFrameType (s : State) : Host.Outcome State Fault Refusal := Run.finish 0x80 (runRcFrameType s)

/-- RC_CHOOSE_QP (OPC 0x81, R755). -/
def execRcChooseQp (s : State) : Host.Outcome State Fault Refusal := Run.finish 0x81 (runRcChooseQp s)

end Sys2Proof.Machine
end

