-- ==== Sys2Proof/Machine/Transform.lean ====
section
/-! DEFINITION. The 8×8 integer transform (spec/43_transform.md): LOAD_BLK, ZERO_BLK, FDCT8, IDCT8, FDCT16, IDCT16.
The matrix C is the parameter BASIS; the functions take it as an argument. -/

namespace Sys2Proof.Machine

/-- An entry of C as an integer (R550). -/
def tritInt : Trit → Int
  | .minusOne => -1
  | .zero => 0
  | .plusOne => 1

/-- C as a block of integers. -/
def basisBlock (c : Vector Trit 64) : Block := c.map tritInt

/-- Element [r][c] of a block (00_scope.md R10). -/
def blockAt (x : Block) (r c : Fin 8) : Int := x[8 * r.val + c.val]'(by omega)

/-- The block with elements f r c. -/
def blockOf (f : Fin 8 → Fin 8 → Int) : Block :=
  Vector.ofFn fun i : Fin 64 => f ⟨i.val / 8, by omega⟩ ⟨i.val % 8, by omega⟩

/-- Row r of a block, left to right. -/
def blockRow (x : Block) (r : Nat) : List Int := (x.toList.drop (8 * r)).take 8

/-- Column c of a block, top to bottom. -/
def blockCol (x : Block) (c : Nat) : List Int := (List.range 8).map fun r => x.toList.getD (8 * r + c) 0

/-- A row times a column. -/
def dot (a b : List Int) : Int := (List.zipWith (· * ·) a b).sum

/-- `A · B`, the exact integer matrix product: element [r][c] is row r of A times column c of B (00_scope.md R10). -/
def matMul (a b : Block) : Block :=
  Vector.ofFn fun i : Fin 64 => dot (blockRow a (i.val / 8)) (blockCol b (i.val % 8))

/-- `Xᵗ`. -/
def transpose (x : Block) : Block := blockOf fun r c => blockAt x c r

/-- `fwd(X)`: U = C · X · Cᵗ, each element `sat32(asr(U, 3))` (R554). -/
def fwd (c : Vector Trit 64) (x : Block) : Block :=
  (matMul (matMul (basisBlock c) x) (transpose (basisBlock c))).map fun u => sat32 (asr u 3)

/-- `inv(X)`: U = Cᵗ · X · C, each element `sat16(asr(U, 3))` (R555). -/
def inv (c : Vector Trit 64) (x : Block) : Block :=
  (matMul (matMul (transpose (basisBlock c)) x) (basisBlock c)).map fun u => sat16 (asr u 3)

/-- The block of 64 zeros. -/
def zeroBlock : Block := Vector.replicate 64 0

/-- `COEF[k] <- sext_32(stage_k)` (R552). -/
def loadBlk (s : State) (k : Nat) : State := s.setCoef k (s.stageBlock k)

/-- `COEF[k] <- 0` (R553). -/
def zeroBlk (s : State) (k : Nat) : State := s.setCoef k zeroBlock

/-- `COEF[k] <- fwd(COEF[k])`, all outputs from the old block (R556). -/
def fdct8 (s : State) (k : Nat) : State := s.setCoef k (fwd s.params.basis (s.coefBlock k))

/-- `COEF[k] <- sext_32(inv(COEF[k]))`, all outputs from the old block (R557). -/
def idct8 (s : State) (k : Nat) : State := s.setCoef k (inv s.params.basis (s.coefBlock k))

/-- LOAD_BLK (R552). -/
def runLoadBlk (sel : BitVec 4) (s : State) : Run := withBlock sel s fun k => .ok (loadBlk s k)

/-- ZERO_BLK (R553). -/
def runZeroBlk (sel : BitVec 4) (s : State) : Run := withBlock sel s fun k => .ok (zeroBlk s k)

/-- FDCT8 (R556). -/
def runFdct8 (sel : BitVec 4) (s : State) : Run := withBlock sel s fun k => .ok (fdct8 s k)

/-- IDCT8 (R557). -/
def runIdct8 (sel : BitVec 4) (s : State) : Run := withBlock sel s fun k => .ok (idct8 s k)

/-- FDCT16: `for k in 0..3: COEF[k] <- fwd(COEF[k])` (R558). -/
def runFdct16 (s : State) : Run := .ok ([0, 1, 2, 3].foldl fdct8 s)

/-- IDCT16: `for k in 0..3: COEF[k] <- sext_32(inv(COEF[k]))` (R559). -/
def runIdct16 (s : State) : Run := .ok ([0, 1, 2, 3].foldl idct8 s)

/-- LOAD_BLK (OPC 0x40, R552). -/
def execLoadBlk (sel : BitVec 4) (s : State) : Host.Outcome State Fault Refusal := Run.finish 0x40 (runLoadBlk sel s)

/-- ZERO_BLK (OPC 0x41, R553). -/
def execZeroBlk (sel : BitVec 4) (s : State) : Host.Outcome State Fault Refusal := Run.finish 0x41 (runZeroBlk sel s)

/-- FDCT8 (OPC 0x42, R556). -/
def execFdct8 (sel : BitVec 4) (s : State) : Host.Outcome State Fault Refusal := Run.finish 0x42 (runFdct8 sel s)

/-- IDCT8 (OPC 0x43, R557). -/
def execIdct8 (sel : BitVec 4) (s : State) : Host.Outcome State Fault Refusal := Run.finish 0x43 (runIdct8 sel s)

/-- FDCT16 (OPC 0x44, R558). -/
def execFdct16 (s : State) : Host.Outcome State Fault Refusal := Run.finish 0x44 (runFdct16 s)

/-- IDCT16 (OPC 0x45, R559). -/
def execIdct16 (s : State) : Host.Outcome State Fault Refusal := Run.finish 0x45 (runIdct16 s)

end Sys2Proof.Machine
end

