-- ==== Sys2Proof/Machine/Encoder.lean ====
section
/-! DEFINITION. The encoder orchestrator (spec/48_encoder.md): ENCODE_FRAME, step by step. -/

namespace Sys2Proof.Machine

/-- One block from staging: `COEF[k] <- sext_32(stage_k)`, forward transform, quantize, then `encode_block(1, k)`
(R804, R805). -/
def codeStagedBlock (scale : Nat) (k : Nat) (s : State) : Run :=
  encodeBlock .stream1 k (quantBlk (fdct8 (loadBlk s k) k) k scale)

/-- One all-zero block: `COEF[k] <- 0`, then `encode_block(1, k)` (R805). -/
def codeZeroBlock (k : Nat) (s : State) : Run := encodeBlock .stream1 k (zeroBlk s k)

/-- One macroblock of an I-frame (R804). -/
def encodeIntraMb (scale : Nat) (mb : Nat × Nat) (s : State) : Run :=
  Run.forEach (codeStagedBlock scale) [0, 1, 2, 3, 4, 5]
    (loadSrc (loadSrc (loadSrc s .y mb.1 mb.2) .u mb.1 mb.2) .v mb.1 mb.2)

/-- The search ENCODE_FRAME runs: full search for ME_MODE 0, diamond for 1 (R805). -/
def searchFor (diamond : Bool) (s : State) (mb : Nat × Nat) (range : Nat) : Motion :=
  if diamond then diamondSearch s mb.1 mb.2 range else fullSearch s mb.1 mb.2 range

/-- `MVARR[i] <- (low_16(dx), low_16(dy))` (R805). -/
def setMv (s : State) (i : Nat) (dx dy : Int) : State :=
  s.storeCells (cells16 (mvAddr i) (low16 dx) ++ cells16 (mvAddr i + 2) (low16 dy))

/-- One macroblock of a P-frame (R805). -/
def encodePredictedMb (diamond : Bool) (scale range : Nat) (mb : Nat × Nat) (s : State) : Run :=
  let m := searchFor diamond s mb range
  (emitAll .stream0 (mvFields m.dx m.dy) (setMv s (s.mbIndex mb.1 mb.2) m.dx m.dy)).andThen fun s =>
    (Run.forEach (codeStagedBlock scale) [0, 1, 2, 3]
      (residual (predictToBlk s .y mb.1 mb.2 m.dx m.dy) mb.1 mb.2)).andThen
    (Run.forEach codeZeroBlock [4, 5])

/-- Step 4 for the whole frame, macroblocks in the order of R402 (R804, R805). -/
def encodeMbs (t : FrameType) (diamond : Bool) (scale range : Nat) (s : State) : Run :=
  match t with
  | .i => Run.forEach (encodeIntraMb scale) s.mbCoords s
  | .p => Run.forEach (encodePredictedMb diamond scale range) s.mbCoords s

/-- Steps 6 to 8 of a frame whose streams are flushed: rate-control bookkeeping, the reference update and the
results, written together (R807, R808, R809). -/
def commitFrame (t : FrameType) (s : State) : State :=
  let mvBytes := s.bsBytes .stream0
  let coefBytes := s.bsBytes .stream1
  let bitsUsed := 8 * (mvBytes + coefBytes)
  let q := chooseQp s.cfg s.rc.qp bitsUsed
  let s' :=
    { storeRef s with
      rc := { qp := q, lastBits := nat32 bitsUsed, lastFrameId := s.args.frameId }
      fr :=
        { ftype := t.code, id := s.args.frameId, tsLo := s.args.tsLo, tsHi := s.args.tsHi, qp := s.cfg.qp,
          mvBytes := nat32 mvBytes, coefBytes := nat32 coefBytes } }
  (((s'.setRes 0 (t.code.setWidth 32)).setRes 1 (nat32 mvBytes)).setRes 2 (nat32 coefBytes)).setRes 3 (q.setWidth 32)

/-- Steps 3 to 8 (R803 to R809): clear the streams, code the macroblocks, flush, commit. -/
def encodeFrameBody (t : FrameType) (s : State) : Run :=
  ((((encodeMbs t s.snapshotMeMode (qpToScale s.cfg.qp.toNat) s.cfg.range.toNat
      ((s.setBsBits .stream0 0).setBsBits .stream1 0)).andThen
    (align .stream0)).andThen (align .stream1)).andThen fun s => .ok (commitFrame t s))

/-- ENCODE_FRAME (R800 to R810): NO_GEOMETRY and NO_REF are raised before anything is written. -/
def runEncodeFrame (s : State) : Run :=
  withGeometry s
    (let t := frameType s.args.frameId.toNat s.cfg.gop.toNat
     if t = .p ∧ s.refValid = false then .error s .noRef else encodeFrameBody t s)

/-- ENCODE_FRAME (OPC 0x90, R800). -/
def execEncodeFrame (s : State) : Host.Outcome State Fault Refusal := Run.finish 0x90 (runEncodeFrame s)

end Sys2Proof.Machine
end

