-- ==== Sys2Proof/Machine/Dispatch.lean ====
section
/-! DEFINITION. One arm per command: the meaning it calls (30_encoding.md R307). -/

namespace Sys2Proof.Machine

def exec (i : Instr) (s : State) : Host.Outcome State Fault Refusal :=
  match i with
  | .nop => Sys2Proof.Machine.execNop s
  | .init => Sys2Proof.Machine.execInit s
  | .mbView sel => Sys2Proof.Machine.execMbView sel s
  | .loadSrc sel => Sys2Proof.Machine.execLoadSrc sel s
  | .storeRef => Sys2Proof.Machine.execStoreRef s
  | .meFull => Sys2Proof.Machine.execMeFull s
  | .meDiamond => Sys2Proof.Machine.execMeDiamond s
  | .mcBlock sel => Sys2Proof.Machine.execMcBlock sel s
  | .mcFrame => Sys2Proof.Machine.execMcFrame s
  | .residual => Sys2Proof.Machine.execResidual s
  | .loadBlk sel => Sys2Proof.Machine.execLoadBlk sel s
  | .zeroBlk sel => Sys2Proof.Machine.execZeroBlk sel s
  | .fdct8 sel => Sys2Proof.Machine.execFdct8 sel s
  | .idct8 sel => Sys2Proof.Machine.execIdct8 sel s
  | .fdct16 => Sys2Proof.Machine.execFdct16 s
  | .idct16 => Sys2Proof.Machine.execIdct16 s
  | .qpScale => Sys2Proof.Machine.execQpScale s
  | .quant sel => Sys2Proof.Machine.execQuant sel s
  | .dequant sel => Sys2Proof.Machine.execDequant sel s
  | .encBlock sel st => Sys2Proof.Machine.execEncBlock sel st s
  | .encMv st => Sys2Proof.Machine.execEncMv st s
  | .encMb st => Sys2Proof.Machine.execEncMb st s
  | .bsClear st => Sys2Proof.Machine.execBsClear st s
  | .bsWriteBits st => Sys2Proof.Machine.execBsWriteBits st s
  | .bsWriteByte st => Sys2Proof.Machine.execBsWriteByte st s
  | .bsFlush st => Sys2Proof.Machine.execBsFlush st s
  | .rcFrameType => Sys2Proof.Machine.execRcFrameType s
  | .rcChooseQp => Sys2Proof.Machine.execRcChooseQp s
  | .encodeFrame => Sys2Proof.Machine.execEncodeFrame s

end Sys2Proof.Machine
end

