-- ==== Sys2Proof/Machine/Engine.lean ====
section
/-! DEFINITION. The engine's move: it completes the running command (30_encoding.md R303). -/

namespace Sys2Proof.Machine

/-- What an illegal word does when it runs: the ILLEGAL_CMD record and completion, nothing else (30_encoding.md R306,
60_exceptions.md R904). -/
def runIllegal (w : Word) (s : State) : Host.Outcome State Fault Refusal :=
  Run.finish (w.extractLsb' 0 8) (.error s .illegalCmd)

/-- The running word: an illegal word raises ILLEGAL_CMD, a legal one runs its command (R303, R309). -/
def runWord (w : Word) (s : State) : Host.Outcome State Fault Refusal :=
  match decode w with
  | .ok i => exec i s
  | .error _ => runIllegal w s

/-- The engine completes the running command. With no command running, or while `rst` is asserted, it is idle
(10_state.md R130, 70_reset_and_hazards.md R1000). -/
def engineStep (s : State) : Host.Outcome State Fault Refusal :=
  if s.rst then .next s
  else
    match s.running with
    | none => .next s
    | some run => runWord run.word s

end Sys2Proof.Machine
end

