-- ==== Sys2Proof/Machine/Registers.lean ====
section
/-! DEFINITION. The register block (spec/10_state.md section 2): the map of 2.1, what a host read of each register
returns and what a host write of each changes. Reserved bits are not stored, so they read 0 and ignore writes
(20_memory.md R208). -/

namespace Sys2Proof.Machine

/-- The registers of the map (10_state.md section 2.1). -/
inductive Reg where
  | id
  | version
  | ctrl
  | status
  | cmd
  | cfgWidth
  | cfgHeight
  | cfgQp
  | cfgRange
  | cfgGop
  | cfgFps
  | cfgTargetKbps
  | cfgQpMin
  | cfgQpMax
  | geomW
  | geomH
  | geomMbCols
  | geomMbRows
  | geomYStride
  | geomCStride
  | geomCw
  | geomCh
  | geomUOff
  | geomVOff
  | argMbx
  | argMby
  | argMvx
  | argMvy
  | argValue
  | argNbits
  | argQp
  | argFrameId
  | argTsLo
  | argTsHi
  | argBitsUsed
  | argFtype
  | res (n : Fin 8)
  | rcQp
  | rcLastBits
  | rcLastFrameId
  | bs0Bits
  | bs0Bytes
  | bs1Bits
  | bs1Bytes
  | bsCap
  | frType
  | frId
  | frTsLo
  | frTsHi
  | frQp
  | frMvBytes
  | frCoefBytes
  | basis (n : Fin 4)
  | zigzag (n : Fin 16)
  deriving DecidableEq, Repr

/-- The offset of a register, which is its device address (10_state.md section 2.1, 20_memory.md R201). -/
def Reg.offset : Reg → Nat
  | .id => 0x000
  | .version => 0x004
  | .ctrl => 0x008
  | .status => 0x00C
  | .cmd => 0x010
  | .cfgWidth => 0x020
  | .cfgHeight => 0x024
  | .cfgQp => 0x028
  | .cfgRange => 0x02C
  | .cfgGop => 0x030
  | .cfgFps => 0x034
  | .cfgTargetKbps => 0x038
  | .cfgQpMin => 0x03C
  | .cfgQpMax => 0x040
  | .geomW => 0x050
  | .geomH => 0x054
  | .geomMbCols => 0x058
  | .geomMbRows => 0x05C
  | .geomYStride => 0x060
  | .geomCStride => 0x064
  | .geomCw => 0x068
  | .geomCh => 0x06C
  | .geomUOff => 0x070
  | .geomVOff => 0x074
  | .argMbx => 0x080
  | .argMby => 0x084
  | .argMvx => 0x088
  | .argMvy => 0x08C
  | .argValue => 0x090
  | .argNbits => 0x094
  | .argQp => 0x098
  | .argFrameId => 0x09C
  | .argTsLo => 0x0A0
  | .argTsHi => 0x0A4
  | .argBitsUsed => 0x0A8
  | .argFtype => 0x0AC
  | .res n => 0x0C0 + 4 * n.val
  | .rcQp => 0x0E0
  | .rcLastBits => 0x0E4
  | .rcLastFrameId => 0x0E8
  | .bs0Bits => 0x100
  | .bs0Bytes => 0x104
  | .bs1Bits => 0x108
  | .bs1Bytes => 0x10C
  | .bsCap => 0x110
  | .frType => 0x140
  | .frId => 0x144
  | .frTsLo => 0x148
  | .frTsHi => 0x14C
  | .frQp => 0x150
  | .frMvBytes => 0x154
  | .frCoefBytes => 0x158
  | .basis n => 0x180 + 4 * n.val
  | .zigzag n => 0x1C0 + 4 * n.val

/-- Every register, in the order of the map. -/
def allRegs : List Reg :=
  [.id, .version, .ctrl, .status, .cmd, .cfgWidth, .cfgHeight, .cfgQp, .cfgRange, .cfgGop, .cfgFps, .cfgTargetKbps,
    .cfgQpMin, .cfgQpMax, .geomW, .geomH, .geomMbCols, .geomMbRows, .geomYStride, .geomCStride, .geomCw, .geomCh,
    .geomUOff, .geomVOff, .argMbx, .argMby, .argMvx, .argMvy, .argValue, .argNbits, .argQp, .argFrameId, .argTsLo,
    .argTsHi, .argBitsUsed, .argFtype]
    ++ (List.finRange 8).map Reg.res
    ++ [.rcQp, .rcLastBits, .rcLastFrameId, .bs0Bits, .bs0Bytes, .bs1Bits, .bs1Bytes, .bsCap, .frType, .frId, .frTsLo,
      .frTsHi, .frQp, .frMvBytes, .frCoefBytes]
    ++ (List.finRange 4).map Reg.basis
    ++ (List.finRange 16).map Reg.zigzag

/-- The register at an offset; `none` for an offset the map does not list (20_memory.md R208). -/
def regAt (offset : Nat) : Option Reg := allRegs.find? fun r => r.offset == offset

/-- The 2-bit code of a matrix entry: 0b00 = 0, 0b01 = +1, 0b11 = -1 (10_state.md R118). -/
def tritCode : Trit → Nat
  | .zero => 0
  | .plusOne => 1
  | .minusOne => 3

/-- `BASISn`: the codes of entries 16n to 16n + 15, two bits each, the first lowest (R118). -/
def basisWord (m : Vector Trit 64) (n : Fin 4) : Word :=
  nat32 ((List.finRange 16).map fun j =>
    tritCode (m[16 * n.val + j.val]'(by omega)) * 4 ^ j.val).sum

/-- `ZIGZAGn`: the scan positions 4n to 4n + 3, eight bits each, the first lowest (R119). -/
def zigzagWord (z : Vector (Fin 64) 64) (n : Fin 16) : Word :=
  nat32 ((List.finRange 4).map fun j =>
    (z[4 * n.val + j.val]'(by omega)).val * 256 ^ j.val).sum

/-- The value a register has (10_state.md section 2). -/
def State.regValue (s : State) : Reg → Word
  | .id => 0x56435031
  | .version => 0x00010000
  | .ctrl => s.ctrl.setWidth 32
  | .status => s.statusWord
  | .cmd => s.lastCmd
  | .cfgWidth => s.cfg.width.setWidth 32
  | .cfgHeight => s.cfg.height.setWidth 32
  | .cfgQp => s.cfg.qp.setWidth 32
  | .cfgRange => s.cfg.range.setWidth 32
  | .cfgGop => s.cfg.gop.setWidth 32
  | .cfgFps => s.cfg.fps.setWidth 32
  | .cfgTargetKbps => s.cfg.targetKbps
  | .cfgQpMin => s.cfg.qpMin.setWidth 32
  | .cfgQpMax => s.cfg.qpMax.setWidth 32
  | .geomW => s.geom.w
  | .geomH => s.geom.h
  | .geomMbCols => s.geom.mbCols
  | .geomMbRows => s.geom.mbRows
  | .geomYStride => s.geom.yStride
  | .geomCStride => s.geom.cStride
  | .geomCw => s.geom.cw
  | .geomCh => s.geom.ch
  | .geomUOff => s.geom.uOff
  | .geomVOff => s.geom.vOff
  | .argMbx => s.args.mbx
  | .argMby => s.args.mby
  | .argMvx => s.args.mvx
  | .argMvy => s.args.mvy
  | .argValue => s.args.value
  | .argNbits => s.args.nbits
  | .argQp => s.args.qp
  | .argFrameId => s.args.frameId
  | .argTsLo => s.args.tsLo
  | .argTsHi => s.args.tsHi
  | .argBitsUsed => s.args.bitsUsed
  | .argFtype => s.args.ftype.setWidth 32
  | .res n => s.res[n]
  | .rcQp => s.rc.qp.setWidth 32
  | .rcLastBits => s.rc.lastBits
  | .rcLastFrameId => s.rc.lastFrameId
  | .bs0Bits => s.bs0Bits
  | .bs0Bytes => nat32 (s.bsBytes .stream0)
  | .bs1Bits => s.bs1Bits
  | .bs1Bytes => nat32 (s.bsBytes .stream1)
  | .bsCap => nat32 s.params.streamCap
  | .frType => s.fr.ftype.setWidth 32
  | .frId => s.fr.id
  | .frTsLo => s.fr.tsLo
  | .frTsHi => s.fr.tsHi
  | .frQp => s.fr.qp.setWidth 32
  | .frMvBytes => s.fr.mvBytes
  | .frCoefBytes => s.fr.coefBytes
  | .basis n => basisWord s.params.basis n
  | .zigzag n => zigzagWord s.params.zigzag n

/-- Acceptance of a command word (30_encoding.md R303): LAST_CMD, then BUSY and the snapshot. -/
def State.issue (s : State) (w : Word) : State :=
  { s with lastCmd := w, running := some { word := w, ctrl := s.ctrl } }

/-- What a host write changes while BUSY = 0. A read-only register ignores it (20_memory.md R209); a writable one keeps
the bits its width has (10_state.md R110, R113, R115). -/
def State.writeReg (s : State) (v : Word) : Reg → State
  | .ctrl => s.writeCtrl v
  | .status => s.writeStatus v
  | .cmd => s.issue v
  | .cfgWidth => { s with cfg := { s.cfg with width := v.setWidth 16 } }
  | .cfgHeight => { s with cfg := { s.cfg with height := v.setWidth 16 } }
  | .cfgQp => { s with cfg := { s.cfg with qp := v.setWidth 8 } }
  | .cfgRange => { s with cfg := { s.cfg with range := v.setWidth 8 } }
  | .cfgGop => { s with cfg := { s.cfg with gop := v.setWidth 16 } }
  | .cfgFps => { s with cfg := { s.cfg with fps := v.setWidth 8 } }
  | .cfgTargetKbps => { s with cfg := { s.cfg with targetKbps := v } }
  | .cfgQpMin => { s with cfg := { s.cfg with qpMin := v.setWidth 8 } }
  | .cfgQpMax => { s with cfg := { s.cfg with qpMax := v.setWidth 8 } }
  | .argMbx => { s with args := { s.args with mbx := v } }
  | .argMby => { s with args := { s.args with mby := v } }
  | .argMvx => { s with args := { s.args with mvx := v } }
  | .argMvy => { s with args := { s.args with mvy := v } }
  | .argValue => { s with args := { s.args with value := v } }
  | .argNbits => { s with args := { s.args with nbits := v } }
  | .argQp => { s with args := { s.args with qp := v } }
  | .argFrameId => { s with args := { s.args with frameId := v } }
  | .argTsLo => { s with args := { s.args with tsLo := v } }
  | .argTsHi => { s with args := { s.args with tsHi := v } }
  | .argBitsUsed => { s with args := { s.args with bitsUsed := v } }
  | .argFtype => { s with args := { s.args with ftype := v.setWidth 1 } }
  | .rcQp => { s with rc := { s.rc with qp := v.setWidth 8 } }
  | .id => s
  | .version => s
  | .geomW => s
  | .geomH => s
  | .geomMbCols => s
  | .geomMbRows => s
  | .geomYStride => s
  | .geomCStride => s
  | .geomCw => s
  | .geomCh => s
  | .geomUOff => s
  | .geomVOff => s
  | .res _ => s
  | .rcLastBits => s
  | .rcLastFrameId => s
  | .bs0Bits => s
  | .bs0Bytes => s
  | .bs1Bits => s
  | .bs1Bytes => s
  | .bsCap => s
  | .frType => s
  | .frId => s
  | .frTsLo => s
  | .frTsHi => s
  | .frQp => s
  | .frMvBytes => s
  | .frCoefBytes => s
  | .basis _ => s
  | .zigzag _ => s

end Sys2Proof.Machine
end

