-- ==== Sys2Proof/Machine/HostBus.lean ====
section
/-! DEFINITION. The host's accesses of the device address space: which are allowed (20_memory.md R202), what a read
returns and a write does outside and inside the BUSY window (R208, R209; 30_encoding.md R303 to R305), and the
reset input (70_reset_and_hazards.md R1000). -/

namespace Sys2Proof.Machine

/-- The number of bytes of an access. -/
def Width.bytes : Width → Nat
  | .w8 => 1
  | .w16 => 2
  | .w32 => 4

/-- One past the last byte of the register block (20_memory.md R201). -/
def regsEnd : Nat := 0x1000

/-- R202: the register block takes 32-bit accesses at multiples of 4; everywhere else an access is aligned to its
width. An access this refuses is a bus error. -/
def accessAllowed (width : Width) (addr : Word) : Bool :=
  if addr.toNat < regsEnd then decide (width = .w32) && decide (addr.toNat % 4 = 0)
  else decide (addr.toNat % width.bytes = 0)

/-- One byte as the host reads it: 0 where nothing is mapped (R208). -/
def State.hostByte (s : State) (a : Nat) : Byte := if s.mapped a then s.readByte a else 0

/-- `n` bytes as the host reads them, little-endian (R203). -/
def State.hostRead (s : State) (a : Nat) : Nat → Nat
  | 0 => 0
  | n + 1 => (s.hostByte a).toNat + 256 * s.hostRead (a + 1) n

/-- A host write of the low `n` bytes of `v`, little-endian; a byte that is not mapped is ignored (R203, R208). -/
def State.hostWrite (s : State) (a n : Nat) (v : Word) : State :=
  s.storeCells ((cellsLE a n v.toNat).filter fun c => s.mapped c.1)

/-- A host read of a register. In the BUSY window STATUS is live and any other register reads as at acceptance: CTRL is
the only one that can have changed since (30_encoding.md R304 items 1, 2, 5). -/
def State.busReadReg (s : State) (offset : Nat) : Word :=
  match regAt offset with
  | none => 0
  | some r =>
    match s.running, r with
    | some run, .ctrl => run.ctrl.setWidth 32
    | _, r => s.regValue r

/-- A host read: in the BUSY window every memory region reads 0 (R304 item 3). -/
def State.busRead (s : State) (width : Width) (addr : Word) : Word :=
  if addr.toNat < regsEnd then s.busReadReg addr.toNat
  else if s.busy then 0
  else nat32 (s.hostRead addr.toNat width.bytes)

/-- The opcode a BUSY error records: bits 7..0 of the written value when the target is CMD, of the running command's
word otherwise (R304 item 6). -/
def busyOpcode (run : Running) (addr value : Word) : BitVec 8 :=
  if addr.toNat = Reg.cmd.offset then value.extractLsb' 0 8 else run.word.extractLsb' 0 8

/-- A host write of `value` to `addr` is the W1C of R304 item 4: a 1 to STATUS bit 1 or bit 2. -/
def isStatusW1c (addr value : Word) : Bool :=
  decide (addr.toNat = Reg.status.offset) && (value.getLsbD 1 || value.getLsbD 2)

/-- A host write in the BUSY window: a 1 written to a W1C bit of STATUS and a write of CTRL act; "every other host write" is
lost and records BUSY, a write of STATUS that writes no such 1 among them (R304 items 4 to 6, R305; log entry 7). -/
def State.busWriteBusy (s : State) (run : Running) (addr value : Word) : State :=
  if isStatusW1c addr value then s.writeStatus value
  else if addr.toNat = Reg.ctrl.offset then s.writeCtrl value
  else s.recordError .busy (busyOpcode run addr value)

/-- A host write while no command runs. -/
def State.busWriteIdle (s : State) (width : Width) (addr value : Word) : State :=
  if addr.toNat < regsEnd then
    match regAt addr.toNat with
    | none => s
    | some r => s.writeReg value r
  else s.hostWrite addr.toNat width.bytes value

/-- A host write. -/
def State.busWrite (s : State) (width : Width) (addr value : Word) : State :=
  match s.running with
  | some run => s.busWriteBusy run addr value
  | none => s.busWriteIdle width addr value

/-- The bus answers an access. -/
def State.respond (s : State) (r : Response) : State := { s with responses := r :: s.responses }

/-- One host access. While `rst` is asserted the core ignores it and a read returns 0 (R1000); a disallowed one is a bus
error with no effect, and a read of it returns 0 (20_memory.md R202, 60_exceptions.md R905). -/
def State.access (s : State) : Access → State
  | .read width addr =>
    if s.rst then s.respond { busError := false, data := 0 }
    else if accessAllowed width addr then s.respond { busError := false, data := s.busRead width addr }
    else s.respond { busError := true, data := 0 }
  | .write width addr value =>
    if s.rst then s.respond { busError := false, data := 0 }
    else if accessAllowed width addr then (s.busWrite width addr value).respond { busError := false, data := 0 }
    else s.respond { busError := true, data := 0 }

/-- The state when `rst` is released (R1000, R1001): every piece of the core's state at its reset value. The
parameters are the core's own and stay; the bytes R1001 leaves unspecified are new free values (log entry 2). -/
def State.afterReset (s : State) : State :=
  { State.resetWith s.params with
    epoch := s.epoch + 1, schedule := s.schedule, responses := s.responses }

/-- The `rst` input takes a level (R1000). -/
def State.setRst (s : State) (level : Bool) : State :=
  if level then { s with rst := true } else if s.rst then s.afterReset else s

end Sys2Proof.Machine
end

