-- ==== Sys2Proof/Machine/Step.lean ====
section
/-! DEFINITION. One step of the machine: the next event of the schedule happens (20_memory.md R220: "every execution is
a single interleaving of host accesses and whole commands"). -/

namespace Sys2Proof.Machine

/-- One step. With nothing scheduled the engine runs: the running command completes (the BUSY window is finite,
30_encoding.md R304), and an idle core stays as it is. -/
def step (s : State) : Host.Outcome State Fault Refusal :=
  match s.schedule with
  | [] => engineStep s
  | .engine :: rest => engineStep { s with schedule := rest }
  | .access a :: rest => .next ({ s with schedule := rest }.access a)
  | .rst level :: rest => .next ({ s with schedule := rest }.setRst level)

/-- `s` with the low `nbits` bits of `w` accepted as a command word, as a host write to CMD leaves it (30_encoding.md
R303), and the engine next to move, so that the very next step runs it. The core fetches nothing, so this stands
for that host write (log entry 4). -/
def State.withFetchWord (s : State) (nbits w : Nat) : State :=
  let word : Word := BitVec.ofNat 32 (w % 2 ^ nbits)
  { s with
    rst := false
    lastCmd := word
    running := some { word := word, ctrl := s.ctrl }
    schedule := match s.schedule with
      | [] => []
      | e :: es => .engine :: e :: es }

end Sys2Proof.Machine
end

