-- ==== Sys2Proof/Machine/Checker.lean ====
section
/-! DEFINITION. The model-side checkers that are in scope "as functions the model uses to check properties but not as
hardware" (00_scope.md R4): the bit reader (46_bitstream.md R715, R716) and the block decoder (45_entropy.md R668). -/

namespace Sys2Proof.Machine

/-- A reader over a byte sequence, with its bit position (R715). -/
structure Reader where
  buf : List Byte
  pos : Nat
  deriving DecidableEq, Repr

/-- The bit at a stream position: 0 past the end (R715). -/
def bufBit (buf : List Byte) (p : Nat) : Bool := (buf.getD (p / 8) 0).getLsbD (p % 8)

/-- The value of n bits from position p, the first the least significant (R715). -/
def bitsValue (buf : List Byte) (p : Nat) : Nat → Nat
  | 0 => 0
  | n + 1 => (bufBit buf p).toNat + 2 * bitsValue buf (p + 1) n

/-- `read_bits(rd, n)` (R715): a read past the end still advances. -/
def readBits (rd : Reader) (n : Nat) : Nat × Reader :=
  (bitsValue rd.buf rd.pos n, { rd with pos := rd.pos + n })

/-- `eof(rd)`: `8 · L - rd.q < 8` (R716). -/
def readerEof (rd : Reader) : Bool := decide (8 * rd.buf.length < rd.pos + 8)

/-- How a block decode ends (R668). -/
inductive DecodeStatus where
  | ok
  | malformed
  deriving DecidableEq, Repr

/-- A decoded block in raster order, how the decode ended, and the reader after it (R668). -/
structure DecodedBlock where
  block : Block
  status : DecodeStatus
  reader : Reader
  deriving DecidableEq, Repr

/-- The run of one pair: 15 is always read as the escape (R668). -/
def readRun (rd : Reader) : Nat × Reader :=
  let r := readBits rd 4
  if r.1 = 15 then
    let x := readBits r.2 8
    (16 + x.1, x.2)
  else r

/-- The pairs of a block from scan position `pos` on (R668). Every pair that goes on moves `pos` up, so 65 rounds are
enough; with none left the position would be past 63. -/
def decodePairs (zigzag : Vector (Fin 64) 64) : Nat → Nat → Block → Reader → DecodedBlock
  | 0, _, out, rd => { block := out, status := .malformed, reader := rd }
  | fuel + 1, pos, out, rd =>
    let run := readRun rd
    let level := readBits run.2 12
    let sg := readBits level.2 1
    if level.1 = 0 then { block := out, status := .ok, reader := sg.2 }
    else if h : pos + run.1 < 64 then
      decodePairs zigzag fuel (pos + run.1 + 1)
        (out.set (zigzag[pos + run.1]).val (if sg.1 = 1 then -(level.1 : Int) else level.1)) sg.2
    else { block := out, status := .malformed, reader := sg.2 }

/-- `decode_block(rd)` (R668). -/
def decodeBlock (zigzag : Vector (Fin 64) 64) (rd : Reader) : DecodedBlock :=
  decodePairs zigzag 65 0 (Vector.replicate 64 0) rd

/-- `read_bits(n1)`, ..., `read_bits(nm)` in order (R717). -/
def readSeq (rd : Reader) : List Nat → List Nat
  | [] => []
  | n :: ns => (readBits rd n).1 :: readSeq (readBits rd n).2 ns

/-- The bits a list of fields puts into a stream, in stream order (46_bitstream.md R702). -/
def fieldBits (fs : List Field) : List Bool :=
  fs.flatMap fun f => (List.range f.width).map fun i => f.value.getLsbD i

/-- The number of bits of a list of fields. -/
def fieldsWidth (fs : List Field) : Nat := (fs.map fun f => f.width).sum

/-- The zero runs before the nonzero values of a scanned sequence, after `run` zeros (45_entropy.md R654). -/
def runsBefore : Nat → List Int → List Nat
  | _, [] => []
  | run, z :: zs => if z = 0 then runsBefore (run + 1) zs else run :: runsBefore 0 zs

/-- The trailing zero run of a scanned sequence, after `run` zeros: the run of the end-of-block pair (R654). -/
def trailingRun : Nat → List Int → Nat
  | run, [] => run
  | run, z :: zs => if z = 0 then trailingRun (run + 1) zs else trailingRun 0 zs

/-- The bytes of a stream: `STREAMs[0 .. BSs_BYTES - 1]` (46_bitstream.md R701). -/
def State.streamBytes (s : State) (st : Stream) : List Byte :=
  (List.range (s.bsBytes st)).map fun j => s.readByte (streamBase st + j)

end Sys2Proof.Machine
end

