-- ==== Sys2Proof/Machine/HostProgram.lean ====
section
/-! DEFINITION. Host programs (30_encoding.md R320, R321, R340): a program is a finite sequence of host operations. Each
form is the list of events it puts on the schedule. -/

namespace Sys2Proof.Machine

/-- The device address of a register (20_memory.md R201). -/
def Reg.addr (r : Reg) : Word := nat32 r.offset

/-- `WR <REG>, <value>` (R320). -/
def progWr (r : Reg) (v : Word) : List Event := [.access (.write .w32 r.addr v)]

/-- `RD <REG>` (R320). -/
def progRd (r : Reg) : List Event := [.access (.read .w32 r.addr)]

/-- `WRM<n> <addr>, <value>` (R320). -/
def progWrm (width : Width) (addr value : Word) : List Event := [.access (.write width addr value)]

/-- `RDM<n> <addr>` (R320). -/
def progRdm (width : Width) (addr : Word) : List Event := [.access (.read width addr)]

/-- `WAIT`: read STATUS until BUSY = 0 (R320). `polls` is how many reads still find BUSY = 1, which the spec leaves open
(R304, 70_reset_and_hazards.md R1030). -/
def progWait (polls : Nat) : List Event :=
  (List.replicate polls (progRd .status)).flatten ++ [.engine] ++ progRd .status

/-- `<MNEMONIC> <sel>, S<s>`: `WR CMD, word` (R320). -/
def progCmd (i : Instr) : List Event := progWr .cmd (encode i)

/-- `CALL <cmd>`: the command, then WAIT (R321). DESIGN CHOICE: no read of this WAIT finds BUSY = 1; the spec leaves their
number open (log entry 13). -/
def progCall (i : Instr) : List Event := progCmd i ++ progWait 0

/-- `SETMB x, y` (R321). -/
def progSetMb (x y : Word) : List Event := progWr .argMbx x ++ progWr .argMby y

/-- `SETMV dx, dy` (R321). -/
def progSetMv (dx dy : Int) : List Event := progWr .argMvx (low32 dx) ++ progWr .argMvy (low32 dy)

/-- `WRITE_BITS S<s>, v, n` (R321), with the CALL of log entry 13. -/
def progWriteBits (st : Stream) (v n : Word) : List Event :=
  progWr .argValue v ++ progWr .argNbits n ++ progCall (.bsWriteBits st)

/-- `WRITE_BYTES S<s>, b0, ..., bk` (R321): the source's `write_bytes` (46_bitstream.md R708), with the
CALL of log entry 13. -/
def progWriteBytes (st : Stream) (bytes : List Byte) : List Event :=
  bytes.flatMap fun b => progWr .argValue (b.setWidth 32) ++ progCall (.bsWriteByte st)

/-- `ENCODE_BLOCK8 k, S<s>` (R321), with the CALL of log entry 13. -/
def progEncodeBlock8 (k : BitVec 4) (st : Stream) : List Event :=
  progCall (.loadBlk k) ++ progCall (.fdct8 k) ++ progCall (.quant k) ++ progCall (.encBlock k st)

/-- The commands of a list one after another, each run to completion. -/
def runCommands : List Instr → State → State
  | [], s => s
  | i :: is, s =>
    match exec i s with
    | .next t => runCommands is t
    | .fault _ => s
    | .refused _ => s

/-- ARG_MBX, ARG_MBY and ARG_QP set by the host: the operands of one macroblock's commands (`SETMB`, R321). -/
def withMbArgs (mb : Nat × Nat) (s : State) : State :=
  { s with args := { s.args with mbx := nat32 mb.1, mby := nat32 mb.2, qp := s.cfg.qp.setWidth 32 } }

/-- The commands that code block k of a staged macroblock on stream 1 (`ENCODE_BLOCK8 k, S1`, R321). -/
def codeBlockCommands (k : BitVec 4) : List Instr := [.loadBlk k, .fdct8 k, .quant k, .encBlock k .stream1]

/-- The command sequence of one I-frame macroblock (48_encoder.md R804). -/
def intraMbCommands : List Instr :=
  [.loadSrc 0, .loadSrc 1, .loadSrc 2] ++ [0, 1, 2, 3, 4, 5].flatMap codeBlockCommands

/-- One I-frame macroblock by host commands. -/
def hostIntraMb (s : State) (mb : Nat × Nat) : State := runCommands intraMbCommands (withMbArgs mb s)

/-- The host passes a search's result on: RES0, RES1 into ARG_MVX, ARG_MVY and their low halves into MVARR. -/
def withSearchResult (i : Nat) (s : State) : State :=
  { s.storeCells (cells16 (mvAddr i) (s.res[0].setWidth 16) ++ cells16 (mvAddr i + 2) (s.res[1].setWidth 16)) with
    args := { s.args with mvx := s.res[0], mvy := s.res[1] } }

/-- One P-frame macroblock by host commands (48_encoder.md R805): search, vector, prediction, residual, blocks. -/
def hostPredictedMb (diamond : Bool) (s : State) (mb : Nat × Nat) : State :=
  runCommands
    ([.encMv .stream0, .mcBlock 0, .residual] ++ [0, 1, 2, 3].flatMap codeBlockCommands
      ++ [.zeroBlk 4, .encBlock 4 .stream1, .zeroBlk 5, .encBlock 5 .stream1])
    (withSearchResult (s.mbIndex mb.1 mb.2)
      (runCommands [if diamond then .meDiamond else .meFull] (withMbArgs mb s)))

/-- A whole frame by host commands: clear both streams, code every macroblock in grid order, flush both streams, store
the reference (48_encoder.md R803 to R808). -/
def hostFrame (codeMb : State → Nat × Nat → State) (s : State) : State :=
  runCommands [.bsFlush .stream0, .bsFlush .stream1, .storeRef]
    (s.mbCoords.foldl codeMb (runCommands [.bsClear .stream0, .bsClear .stream1] s))

end Sys2Proof.Machine
end

