-- ==== Sys2Proof/Safety.lean ====
section
/-! DEFINITION. What counts as a safe state and a safe run, in the terms the statements use. -/

namespace Sys2Proof.Machine

/-- The geometry registers are those of a legal frame while GEOM_VALID = 1, and all 0 otherwise (10_state.md R111,
40_frame_mb.md R403, 00_scope.md R6). -/
def State.geomOk (s : State) : Bool :=
  if s.geomValid then
    decide (s.geom.w.toNat ≤ 65535) && decide (s.geom.h.toNat ≤ 65535)
      && geometryLegal s.geom.w.toNat s.geom.h.toNat
      && decide (s.geom = geometryOf s.geom.w.toNat s.geom.h.toNat)
  else decide (s.geom = Geometry.zero)

/-- The error record is that of one error of R901 while ERR = 1, and cleared otherwise (10_state.md R103,
60_exceptions.md R901, R904). -/
def State.errorRecordOk (s : State) : Bool :=
  if s.err then decide (1 ≤ s.errCode.toNat) && decide (s.errCode.toNat ≤ 7)
  else decide (s.errCode = 0) && decide (s.errOpc = 0)

/-- While a command runs, LAST_CMD holds its word (10_state.md R104). -/
def State.pendingOk (s : State) : Bool :=
  match s.running with
  | some r => decide (s.lastCmd = r.word)
  | none => true

/-- The states the core can be in. -/
structure State.Inv (s : State) : Prop where
  /-- the memory list is in canonical form -/
  memory : s.mem.wf = true
  /-- the parameters lie in their ranges -/
  params : s.params.wf = true
  geometry : s.geomOk = true
  /-- a reference frame needs a geometry (40_frame_mb.md R403, R407) -/
  reference : s.refValid = true → s.geomValid = true
  /-- "BSs_BITS ≤ 8 · STREAM_CAP" (46_bitstream.md R701) -/
  stream0 : s.bs0Bits.toNat ≤ 8 * s.params.streamCap
  stream1 : s.bs1Bits.toNat ≤ 8 * s.params.streamCap
  errorRecord : s.errorRecordOk = true
  pending : s.pendingOk = true

/-- Every run from `s`, of any length, goes on, and stays in the states the core can be in. -/
def State.RunsSafely (s : State) : Prop :=
  ∀ n, ∃ t, Sys2Proof.core.run n s = .next t ∧ t.Inv

/-- The bytes of memory agree at every address. -/
def SameBytes (s t : State) : Prop := ∀ a, t.readByte a = s.readByte a

end Sys2Proof.Machine
end

