-- ==== Sys2Proof/Certificates/Slice0/Obligations.lean ====
section
/-! DEFINITION. The statements about the model, for the provers. Each docstring names the rules of spec/ it rests on.
Below, "completes" means: exec answers a next state in which BUSY is 0 and DONE is 1 (30_encoding.md R303). A state
written `{ s with mem := t.mem, ... }` says that every field it does not name is that of `s`. In a statement about `step`,
the fields `schedule` and `responses`, and what an empty schedule does, are the model's own (log entry 3). -/

open Sys2Proof Sys2Proof.Machine

/-! Vocabulary of the statements, spelled from the rules and not from the model's functions. -/

/-- The opcode map of 30_encoding.md R307: opcode, greatest legal SEL, S used. -/
def Sys2Proof.Machine.opcodeMap : List (Nat × Nat × Bool) :=
  [(0x00, 0, false), (0x01, 0, false), (0x10, 2, false), (0x11, 2, false), (0x12, 0, false), (0x20, 0, false),
    (0x21, 0, false), (0x30, 2, false), (0x31, 0, false), (0x32, 0, false), (0x40, 5, false), (0x41, 5, false),
    (0x42, 5, false), (0x43, 5, false), (0x44, 0, false), (0x45, 0, false), (0x50, 0, false), (0x51, 5, false),
    (0x52, 5, false), (0x60, 5, true), (0x61, 0, true), (0x62, 0, true), (0x70, 0, true), (0x71, 0, true),
    (0x72, 0, true), (0x73, 0, true), (0x80, 0, false), (0x81, 0, false), (0x90, 0, false)]

/-- `illegal(w)`, its four items (30_encoding.md R306). -/
def Sys2Proof.Machine.illegalWord (w : Word) : Prop :=
  (∀ row ∈ opcodeMap, row.1 ≠ w.toNat % 256)
    ∨ w.toNat / 2 ^ 13 ≠ 0
    ∨ (∃ row ∈ opcodeMap, row.1 = w.toNat % 256 ∧ w.toNat / 2 ^ 12 % 2 = 1 ∧ row.2.2 = false)
    ∨ (∃ row ∈ opcodeMap, row.1 = w.toNat % 256 ∧ row.2.1 < w.toNat / 2 ^ 8 % 16)

/-- The commands that raise NO_GEOMETRY while GEOM_VALID = 0 (60_exceptions.md R901, R902). -/
def Sys2Proof.Machine.needsGeometry : Instr → Bool
  | .mbView _ => true
  | .loadSrc _ => true
  | .storeRef => true
  | .meFull => true
  | .meDiamond => true
  | .mcBlock _ => true
  | .mcFrame => true
  | .residual => true
  | .encodeFrame => true
  | _ => false

/-- The error codes a command can record beyond ILLEGAL_CMD (60_exceptions.md R902). -/
def Sys2Proof.Machine.errorsOf : Instr → List (BitVec 8)
  | .init => [5]
  | .mbView _ => [4]
  | .loadSrc _ => [4]
  | .storeRef => [4]
  | .meFull => [4]
  | .meDiamond => [4]
  | .mcBlock _ => [4]
  | .mcFrame => [4]
  | .residual => [4]
  | .encBlock _ _ => [7]
  | .encMv _ => [7]
  | .encMb _ => [7]
  | .bsWriteByte _ => [7]
  | .bsWriteBits _ => [2, 7]
  | .encodeFrame => [4, 6, 7]
  | _ => []

/-- A host access that 20_memory.md R202 allows. -/
def Sys2Proof.Machine.allowedByR202 (width : Width) (a : Nat) : Prop :=
  if a < 0x1000 then width = .w32 ∧ a % 4 = 0 else a % width.bytes = 0

/-- The registers of 10_state.md 2.1 that stand alone, and their offsets. -/
def Sys2Proof.Machine.singleRegs : List (Reg × Nat) :=
  [(.id, 0x000), (.version, 0x004), (.ctrl, 0x008), (.status, 0x00C), (.cmd, 0x010), (.cfgWidth, 0x020),
    (.cfgHeight, 0x024), (.cfgQp, 0x028), (.cfgRange, 0x02C), (.cfgGop, 0x030), (.cfgFps, 0x034),
    (.cfgTargetKbps, 0x038), (.cfgQpMin, 0x03C), (.cfgQpMax, 0x040), (.geomW, 0x050), (.geomH, 0x054),
    (.geomMbCols, 0x058), (.geomMbRows, 0x05C), (.geomYStride, 0x060), (.geomCStride, 0x064), (.geomCw, 0x068),
    (.geomCh, 0x06C), (.geomUOff, 0x070), (.geomVOff, 0x074), (.argMbx, 0x080), (.argMby, 0x084), (.argMvx, 0x088),
    (.argMvy, 0x08C), (.argValue, 0x090), (.argNbits, 0x094), (.argQp, 0x098), (.argFrameId, 0x09C), (.argTsLo, 0x0A0),
    (.argTsHi, 0x0A4), (.argBitsUsed, 0x0A8), (.argFtype, 0x0AC), (.rcQp, 0x0E0), (.rcLastBits, 0x0E4),
    (.rcLastFrameId, 0x0E8), (.bs0Bits, 0x100), (.bs0Bytes, 0x104), (.bs1Bits, 0x108), (.bs1Bytes, 0x10C),
    (.bsCap, 0x110), (.frType, 0x140), (.frId, 0x144), (.frTsLo, 0x148), (.frTsHi, 0x14C), (.frQp, 0x150),
    (.frMvBytes, 0x154), (.frCoefBytes, 0x158)]

/-- The register map of 10_state.md 2.1: every register and its offset. -/
def Sys2Proof.Machine.registerMap : List (Reg × Nat) :=
  List.flatten [singleRegs,
    (List.finRange 8).map fun n => (Reg.res n, 0x0C0 + 4 * n.val),
    (List.finRange 4).map fun n => (Reg.basis n, 0x180 + 4 * n.val),
    (List.finRange 16).map fun n => (Reg.zigzag n, 0x1C0 + 4 * n.val)]

/-- Address a lies in a memory region of the address map, its rows but REGS, for the stream capacity cap
(20_memory.md R205). -/
def Sys2Proof.Machine.InMemoryRegion (cap a : Nat) : Prop :=
  (0x01000000 ≤ a ∧ a ≤ 0x01FFFFFF) ∨ (0x02000000 ≤ a ∧ a ≤ 0x02FFFFFF) ∨ (0x03000000 ≤ a ∧ a ≤ 0x03FFFFFF)
    ∨ (0x04000000 ≤ a ∧ a ≤ 0x040000FF) ∨ (0x04000100 ≤ a ∧ a ≤ 0x040002FF) ∨ (0x04000300 ≤ a ∧ a ≤ 0x0400037F)
    ∨ (0x04000380 ≤ a ∧ a ≤ 0x040003FF) ∨ (0x04000400 ≤ a ∧ a ≤ 0x040009FF) ∨ (0x05000000 ≤ a ∧ a ≤ 0x05FFFFFF)
    ∨ (0x06000000 ≤ a ∧ a < 0x06000000 + cap) ∨ (0x07000000 ≤ a ∧ a < 0x07000000 + cap)

/-- The RW registers with the width of their defined bits, but CTRL (10_state.md R110, R113, R115). -/
def Sys2Proof.Machine.rwRegs : List (Reg × Nat) :=
  [(.cfgWidth, 16), (.cfgHeight, 16), (.cfgQp, 8), (.cfgRange, 8), (.cfgGop, 16), (.cfgFps, 8), (.cfgTargetKbps, 32),
    (.cfgQpMin, 8), (.cfgQpMax, 8), (.argMbx, 32), (.argMby, 32), (.argMvx, 32), (.argMvy, 32), (.argValue, 32),
    (.argNbits, 32), (.argQp, 32), (.argFrameId, 32), (.argTsLo, 32), (.argTsHi, 32), (.argBitsUsed, 32),
    (.argFtype, 1), (.rcQp, 8)]

/-- `inb(dx, dy)` (41_motion_estimation.md R450). -/
def Sys2Proof.Machine.displacedInFrame (s : State) (v : View) (dx dy : Int) : Prop :=
  0 ≤ v.x0 + dx ∧ 0 ≤ v.y0 + dy ∧ v.x0 + dx + v.w ≤ (s.geom.w.toNat : Int) ∧ v.y0 + dy + v.h ≤ (s.geom.h.toNat : Int)

/-- `SAD(dx, dy)` (41_motion_estimation.md R451), on the displaced block's origin. -/
def Sys2Proof.Machine.sadSum (s : State) (v : View) (dx dy : Int) : Nat :=
  ((List.range v.h).map fun r =>
    ((List.range v.w).map fun c =>
      (((s.sample .cur .y (v.x0 + c) (v.y0 + r)).toNat : Int)
        - (s.sample .ref .y (v.x0 + dx + c).toNat (v.y0 + dy + r).toNat).toNat).natAbs).sum).sum

/-- C[r][c] as an integer (43_transform.md R550, raster order of 10_state.md R118). -/
def Sys2Proof.Machine.basisEntry (s : State) (r c : Fin 8) : Int :=
  match s.params.basis[8 * r.val + c.val]'(by omega) with
  | .zero => 0
  | .plusOne => 1
  | .minusOne => -1

/-- `COEF[k][r][c]` as a signed integer, at its address (20_memory.md R205). -/
def Sys2Proof.Machine.coefAt (s : State) (k : Nat) (r c : Fin 8) : Int :=
  (s.elem32 (0x04000400 + 256 * k + 4 * (8 * r.val + c.val))).toInt

/-- The address of `stage_k[r][c]` (43_transform.md R551 with 20_memory.md R205). -/
def Sys2Proof.Machine.stageAddress (k : Nat) (r c : Fin 8) : Nat :=
  if k < 4 then 0x04000100 + 2 * (16 * (r.val + 8 * (k / 2)) + (c.val + 8 * (k % 2)))
  else 0x04000300 + 128 * (k - 4) + 2 * (8 * r.val + c.val)

/-- Σ f over 0..7 (00_scope.md R10: the matrix product is exact). -/
def Sys2Proof.Machine.sum8 (f : Fin 8 → Int) : Int := ((List.finRange 8).map f).sum

/-- The bytes outside `COEF[k]` agree. -/
def Sys2Proof.Machine.SameOutsideBlock (s t : State) (k : Nat) : Prop :=
  ∀ a, (a < 0x04000400 + 256 * k ∨ 0x04000400 + 256 * k + 256 ≤ a) → t.readByte a = s.readByte a

/-- Nothing but the stream bits of `st` from position b up to position e, and the rest of the bytes that the stream grows
by, differs: the bits before b and the bits from e on in the bytes the stream already had agree, and so does every byte
of memory outside the stream's bytes from the one that holds position b up to the one that holds the last bit before
position e. -/
def Sys2Proof.Machine.SameOutsideStreamBits (s t : State) (st : Stream) (b e : Nat) : Prop :=
  (∀ p, (p < b ∨ (e ≤ p ∧ p < 8 * ((b + 7) / 8))) → t.streamBit st p = s.streamBit st p)
    ∧ ∀ a, (a < streamBase st + b / 8 ∨ streamBase st + (e + 7) / 8 ≤ a) → t.readByte a = s.readByte a

/-- The bits from position e on in the bytes that a write from position b to position e has added to the stream are 0
(46_bitstream.md R702). -/
def Sys2Proof.Machine.NewBitsZero (t : State) (st : Stream) (b e : Nat) : Prop :=
  ∀ p, e ≤ p → 8 * ((b + 7) / 8) ≤ p → p < 8 * ((e + 7) / 8) → t.streamBit st p = false

/-- Without a geometry the command raises NO_GEOMETRY and changes nothing but the error record, BUSY and DONE
(60_exceptions.md R901, R904). -/
def Sys2Proof.Machine.NeedsGeometry (i : Instr) : Prop :=
  ∀ s : State, s.geomValid = false → exec i s = .next { s with
    running := none, done := true, err := true, errCode := 4, errOpc := i.opcode }

/-- The low n bits of a number, the least significant first: a field in stream order (46_bitstream.md R702). -/
def Sys2Proof.Machine.lsbFirst (v n : Nat) : List Bool := (List.range n).map fun i => v.testBit i

/-- The fields of a pair (r, v), in write order (45_entropy.md R653). -/
def Sys2Proof.Machine.pairChunks (r : Nat) (v : Int) : List (List Bool) :=
  (if 15 < r then [lsbFirst 15 4, lsbFirst (r - 16) 8] else [lsbFirst r 4])
    ++ [lsbFirst (v.natAbs % 4096) 12, [decide (v < 0)]]

/-- The pairs of a scanned block (45_entropy.md R654): one for each nonzero value, with the number of zeros between it and
the nonzero value before it (or the start), and the end-of-block pair with the number of zeros after the last. -/
def Sys2Proof.Machine.blockPairs (z : Fin 64 → Int) : List (Nat × Int) :=
  let nz := (List.finRange 64).filter fun i => decide (z i ≠ 0)
  let starts := 0 :: nz.map fun i => i.val + 1
  ((starts.zip nz).map fun q => (q.2.val - q.1, z q.2)) ++ [(64 - starts.getLastD 0, 0)]

/-- The scanned sequence of block k (45_entropy.md R652). -/
def Sys2Proof.Machine.scanAt (s : State) (k : Nat) (i : Fin 64) : Int :=
  coefAt s k ⟨(s.params.zigzag[i]).val / 8, by omega⟩ ⟨(s.params.zigzag[i]).val % 8, by omega⟩

/-- The fields `encode_block(s, k)` emits, each as its bits in stream order (45_entropy.md R654). -/
def Sys2Proof.Machine.blockChunks (s : State) (k : Nat) : List (List Bool) :=
  (blockPairs (scanAt s k)).flatMap fun q => pairChunks q.1 q.2

/-- What a command of the entropy coder that emits the fields `chunks` to stream `st` does, beyond its encoding. If they
fit, it appends their bits and writes RES0 with their number; otherwise it raises OVERFLOW at the first field that would
pass STREAM_CAP, the fields before that one stay written, and RES0 is not. The unused bits of a new byte are 0
(45_entropy.md R655, 46_bitstream.md R702, 60_exceptions.md R904, R906). -/
def Sys2Proof.Machine.AppendsChunks (i : Instr) (s : State) (st : Stream) (chunks : List (List Bool)) : Prop :=
  let b := (s.bsBits st).toNat
  let n := chunks.flatten.length
  ((b + n + 7) / 8 ≤ s.params.streamCap → ∃ t, exec i s = .next t
    ∧ t = { s.setBsBits st (nat32 (b + n)) with
        mem := t.mem, res := s.res.set 0 (nat32 n), running := none, done := true }
    ∧ (∀ j < n, chunks.flatten[j]? = some (t.streamBit st (b + j)))
    ∧ NewBitsZero t st b (b + n)
    ∧ SameOutsideStreamBits s t st b (b + n))
  ∧ (s.params.streamCap < (b + n + 7) / 8 → ∃ t before field after, chunks = before ++ field :: after
    ∧ exec i s = .next t
    ∧ (let m := before.flatten.length
      (b + m + 7) / 8 ≤ s.params.streamCap ∧ s.params.streamCap < (b + m + field.length + 7) / 8
        ∧ t = { s.setBsBits st (nat32 (b + m)) with
            mem := t.mem, running := none, done := true, err := true, errCode := 7, errOpc := i.opcode }
        ∧ (∀ j < m, before.flatten[j]? = some (t.streamBit st (b + j)))
        ∧ NewBitsZero t st b (b + m)
        ∧ SameOutsideStreamBits s t st b (b + m)))

/-! Encoding and decoding. -/

/-- Decoding a command's word gives the command back: no bit of an encoding is dropped (30_encoding.md R301, R307,
R309). -/
def Obligations.DecodeOfEncodeIsTheCommand : Prop :=
  ∀ i : Instr, i.wf = true → decode (encode i) = .ok i

/-- A word decodes to at most the command whose word it is, and that command's selector is legal (30_encoding.md
R309). -/
def Obligations.DecodedWordEncodesBack : Prop :=
  ∀ (w : Word) (i : Instr), decode w = .ok i → i.wf = true ∧ encode i = w

/-- The four kinds of illegal word are exactly the words the decoder rejects, and running one at an engine's turn has no
effect but BUSY, DONE and the error record with code 1 (30_encoding.md R306). That the engine moves when nothing is
scheduled, and that its turn is taken off the schedule, is the model's choice (log entry 3). -/
def Obligations.IllegalWordsRaiseIllegalCmd : Prop :=
  ∀ w : Word,
    (illegalWord w ↔ ∀ i, decode w ≠ .ok i)
      ∧ (illegalWord w → ∀ (s : State) (run : Running), s.rst = false → s.running = some run → run.word = w →
          (s.schedule = [] → step s = .next { s with
            running := none, done := true, err := true, errCode := 1, errOpc := BitVec.ofNat 8 (w.toNat % 256) })
          ∧ ∀ rest, s.schedule = .engine :: rest → step s = .next { s with
            schedule := rest,
            running := none, done := true, err := true, errCode := 1, errOpc := BitVec.ofNat 8 (w.toNat % 256) })

/-- Words written out from the table of R307 decode to the commands they stand for. -/
def Obligations.OpcodeTableWordsDecode : Prop :=
  decode 0x00000000 = .ok .nop ∧ decode 0x00000210 = .ok (.mbView 2) ∧ decode 0x00000021 = .ok .meDiamond
    ∧ decode 0x00000130 = .ok (.mcBlock 1) ∧ decode 0x00000542 = .ok (.fdct8 5) ∧ decode 0x00000351 = .ok (.quant 3)
    ∧ decode 0x00001460 = .ok (.encBlock 4 .stream1) ∧ decode 0x00001071 = .ok (.bsWriteBits .stream1)
    ∧ decode 0x00000081 = .ok .rcChooseQp ∧ decode 0x00000090 = .ok .encodeFrame

/-! Steps and the command lifecycle. -/

/-- When the engine moves and the running word decodes to i, the step is exec of i (30_encoding.md R303, R309): with the
engine's turn taken off the schedule, or at the state itself when nothing is scheduled, which is the model's choice (log
entry 3). `withFetchWord` makes the next step run exactly the command whose word it is given: it is the model's own stand-in
for the acceptance of a word (log entry 4). -/
def Obligations.StepRunsTheAcceptedCommand : Prop :=
  (∀ (s : State) (run : Running) (i : Instr), s.rst = false → s.running = some run → decode run.word = .ok i →
    (s.schedule = [] → step s = exec i s)
      ∧ ∀ rest, s.schedule = .engine :: rest → step s = exec i { s with schedule := rest })
  ∧ ∀ (s : State) (i : Instr), i.wf = true →
      step (s.withFetchWord 32 (encode i).toNat)
        = exec i { s with
            rst := false, lastCmd := encode i, running := some { word := encode i, ctrl := s.ctrl } }

/-- A word written to CMD while BUSY = 0 is accepted (LAST_CMD, BUSY and the snapshot, nothing else), stays the running
command through any accesses of the BUSY window, and the engine's next move completes it: BUSY 0, DONE 1, with the
command's effect if the word decodes and ILLEGAL_CMD recorded if it does not. That is its only completion: an engine's
move while no command runs changes nothing but the schedule (30_encoding.md R303). That the snapshot is the word and CTRL
is the model's choice (log entry 5), and so are the schedule and the answers (log entry 3). -/
def Obligations.AcceptedWordCompletesOnce : Prop :=
  (∀ (s : State) (w : Word) (window : List Access) (rest : List Event), s.rst = false → s.running = none →
    s.schedule = .access (.write .w32 0x010 w) :: (window.map Event.access ++ .engine :: rest) →
    ∃ a m t : State,
      a = { s with
            lastCmd := w, running := some { word := w, ctrl := s.ctrl },
            schedule := window.map Event.access ++ .engine :: rest,
            responses := { busError := false, data := 0 } :: s.responses }
        ∧ step s = .next a
        ∧ Sys2Proof.core.run window.length a = .next m
        ∧ m.running = some { word := w, ctrl := s.ctrl } ∧ m.lastCmd = w ∧ m.schedule = .engine :: rest
        ∧ step m = .next t
        ∧ t.running = none ∧ t.done = true ∧ t.lastCmd = w ∧ t.schedule = rest
        ∧ (∀ i, decode w = .ok i → step m = exec i { m with schedule := rest })
        ∧ ((∀ i, decode w ≠ .ok i) →
            t = { m with
              schedule := rest, running := none, done := true, err := true, errCode := 1,
              errOpc := BitVec.ofNat 8 (w.toNat % 256) }))
  ∧ ∀ s : State, s.rst = false → s.running = none →
      (s.schedule = [] → step s = .next s)
        ∧ ∀ rest, s.schedule = .engine :: rest → step s = .next { s with schedule := rest }

/-- Every command completes from every state. It writes no CTRL, CFG or ARG register, no parameter and not LAST_CMD
(10_state.md R113); it ends either without touching the error record (60_exceptions.md R908) or with the record of an
error its row of R902 allows (in the states the core can be in), naming its opcode (R904). That exec of a command with an
illegal selector, which no word decodes to, records ILLEGAL_CMD is the model's choice (log entry 10). -/
def Obligations.EveryCommandCompletes : Prop :=
  ∀ (i : Instr) (s : State), ∃ t, exec i s = .next t
    ∧ t.running = none ∧ t.done = true ∧ t.ctrl = s.ctrl ∧ t.lastCmd = s.lastCmd ∧ t.cfg = s.cfg ∧ t.args = s.args
    ∧ t.params = s.params ∧ t.rst = s.rst ∧ t.epoch = s.epoch ∧ t.schedule = s.schedule ∧ t.responses = s.responses
    ∧ ((t.err = s.err ∧ t.errCode = s.errCode ∧ t.errOpc = s.errOpc)
      ∨ (t.err = true ∧ t.errOpc = i.opcode
        ∧ (i.wf = true → s.Inv → t.errCode ∈ errorsOf i) ∧ (i.wf = false → t.errCode = 1)))

/-- A command that needs a geometry and finds none leaves everything but the error record, BUSY and DONE as it was
(60_exceptions.md R903, R904, R906). That exec of a command with an illegal selector, which no word decodes to, records
ILLEGAL_CMD and does no more, before it looks at the geometry, is the model's choice (log entry 10). -/
def Obligations.RefusedCommandsChangeOnlyTheRecord : Prop :=
  ∀ (i : Instr) (s : State),
    (i.wf = false → exec i s = .next { s with
      running := none, done := true, err := true, errCode := 1, errOpc := i.opcode })
    ∧ (i.wf = true → needsGeometry i = true → s.geomValid = false → exec i s = .next { s with
      running := none, done := true, err := true, errCode := 4, errOpc := i.opcode })

/-- The states the core can be in are closed under steps: the memory stays canonical, the geometry legal or zero, the
streams within their capacity, the error record one of R901, and LAST_CMD the running word. -/
def Obligations.StepKeepsInvariant : Prop := ∀ s t : State, s.Inv → step s = .next t → t.Inv

/-- The reset state of every core whose parameters lie in their ranges is a state the core can be in; `State.reset` is
that of the model's parameters (log entry 1). -/
def Obligations.ResetMeetsInvariant : Prop :=
  (∀ p : Params, p.wf = true → (State.resetWith p).Inv) ∧ State.reset.Inv

/-- From a state the core can be in, runs of every length go on and stay in such states. -/
def Obligations.InvariantStatesRunSafely : Prop := ∀ s : State, s.Inv → s.RunsSafely

/-- No step stores a byte outside the memory regions of the address map (20_memory.md R205, R207, R208): while every byte the
memory lists lies in one, every byte it lists after a step does. -/
def Obligations.StoresStayInMappedMemory : Prop :=
  ∀ s t : State, s.Inv → (∀ c ∈ s.mem, InMemoryRegion s.params.streamCap c.1) → step s = .next t →
    ∀ c ∈ t.mem, InMemoryRegion t.params.streamCap c.1

/-! Reset. -/

/-- The state after reset of a core with parameters p: the value every register reads, the work buffers 0, `irq` 0, and a core
that waits (70_reset_and_hazards.md R1001). That a byte of the other memories, which R1001 leaves unspecified, reads as the
free value `Config.unspecifiedByte` is the model's choice (log entry 2); nothing is said of that value. That a core with
nothing scheduled waits by a step that changes nothing is the model's choice too (log entry 3). -/
def Obligations.ResetValues : Prop :=
  ∀ p : Params,
    let s := State.resetWith p
    s.regValue .id = 0x56435031 ∧ s.regValue .version = 0x00010000
      ∧ (∀ r ∈ [Reg.ctrl, .status, .cmd, .cfgWidth, .cfgHeight, .cfgQp, .cfgRange, .cfgGop, .cfgFps, .cfgTargetKbps,
            .cfgQpMin, .geomW, .geomH, .geomMbCols, .geomMbRows, .geomYStride, .geomCStride, .geomCw, .geomCh,
            .geomUOff, .geomVOff, .argMbx, .argMby, .argMvx, .argMvy, .argValue, .argNbits, .argQp, .argFrameId,
            .argTsLo, .argTsHi, .argBitsUsed, .argFtype, .res 0, .res 1, .res 2, .res 3, .res 4, .res 5, .res 6,
            .res 7, .rcQp, .rcLastBits, .rcLastFrameId, .bs0Bits, .bs0Bytes, .bs1Bits, .bs1Bytes, .frType, .frId,
            .frTsLo, .frTsHi, .frQp, .frMvBytes, .frCoefBytes], s.regValue r = 0)
      ∧ s.regValue .cfgQpMax = 51 ∧ s.regValue .bsCap = nat32 p.streamCap
      ∧ s.params = p
      ∧ (∀ a, 0x04000000 ≤ a → a < 0x04000A00 → s.readByte a = 0)
      ∧ (∀ a, (a < 0x04000000 ∨ 0x04000A00 ≤ a) → s.readByte a = Config.unspecifiedByte s.epoch a)
      ∧ s.irq = false ∧ step s = .next s

/-- While `rst` is asserted the core ignores host accesses and a read returns 0; when it is released every piece of the
core's state takes its reset value (70_reset_and_hazards.md R1000). That until then the registers keep their values, the
engine is idle and an access is no bus error, and that the parameters stay, is the model's choice (log entry 8); so is the
count of resets, `epoch` (log entry 2). -/
def Obligations.ResetInputBehaviour : Prop :=
  ∀ (s : State) (rest : List Event),
    (s.schedule = .rst true :: rest → step s = .next { s with rst := true, schedule := rest })
    ∧ (s.rst = true → s.schedule = .engine :: rest → step s = .next { s with schedule := rest })
    ∧ (∀ a, s.rst = true → s.schedule = .access a :: rest → step s = .next { s with
        schedule := rest, responses := { busError := false, data := 0 } :: s.responses })
    ∧ (s.rst = true → s.schedule = .rst false :: rest → step s = .next { State.resetWith s.params with
        epoch := s.epoch + 1, schedule := rest, responses := s.responses })

/-! Host accesses. -/

/-- In the register block and in every memory region, an access is a bus error exactly when the table of R202 disallows it; a
bus error has no effect, sets no STATUS bit, and a read of it returns 0 (20_memory.md R202, 60_exceptions.md R905). That it
is so in the BUSY window too, with no BUSY error, is the model's choice (log entry 6), and so is the bus error as an answer
and not as a fault of the step (log entry 12). -/
def Obligations.DisallowedAccessIsABusError : Prop :=
  ∀ (s : State) (width : Width) (addr value : Word) (rest : List Event), s.rst = false →
    (addr.toNat < 0x1000 ∨ InMemoryRegion s.params.streamCap addr.toNat) →
    ∀ a ∈ [Access.read width addr, Access.write width addr value], s.schedule = .access a :: rest →
      (¬ allowedByR202 width addr.toNat → step s = .next { s with
        schedule := rest, responses := { busError := true, data := 0 } :: s.responses })
      ∧ (allowedByR202 width addr.toNat → ∃ t data, step s = .next t
        ∧ t.responses = { busError := false, data := data } :: s.responses)

/-- Unlisted register offsets and addresses outside every region of the address map read as 0 and ignore writes
(20_memory.md R205, R208). The alignment asked of such an address above the register block is the model's choice (log
entry 6). -/
def Obligations.UnmappedAddressesReadZero : Prop :=
  ∀ (s : State) (width : Width) (addr value : Word) (rest : List Event), s.rst = false → s.running = none →
    allowedByR202 width addr.toNat →
    ((addr.toNat < 0x1000 ∧ ∀ q ∈ registerMap, q.2 ≠ addr.toNat)
      ∨ (0x1000 ≤ addr.toNat ∧ ∀ j < width.bytes, ¬ InMemoryRegion s.params.streamCap (addr.toNat + j))) →
    ∀ a ∈ [Access.read width addr, Access.write width addr value], s.schedule = .access a :: rest →
      step s = .next { s with
        schedule := rest, responses := { busError := false, data := 0 } :: s.responses }

/-- The BUSY window (30_encoding.md R304, R305). A read of STATUS is live; a read of any other register gives its value at
acceptance, which no access in the window changes; memory reads 0; a 1 written to STATUS bit 1 or 2 and a write of CTRL act;
every other write is lost and records BUSY. No access in the window changes memory or any register but STATUS and CTRL, or
ends the command. That CMD reads the word just accepted and CTRL its value at acceptance is the model's choice (log
entry 5), and so is that a write of STATUS without such a 1 is one of the other writes (log entry 7), and which accesses of
unmapped addresses are allowed and that a disallowed one records nothing (log entry 6). -/
def Obligations.BusyWindowAccesses : Prop :=
  ∀ (s : State) (run : Running) (rest : List Event), s.rst = false → s.running = some run →
    (∀ r : Reg, s.schedule = .access (.read .w32 r.addr) :: rest → step s = .next { s with
      schedule := rest,
      responses := { busError := false,
                     data := if r = .ctrl then run.ctrl.setWidth 32 else s.regValue r } :: s.responses })
    ∧ (∀ width addr, 0x1000 ≤ addr.toNat → allowedByR202 width addr.toNat →
      s.schedule = .access (.read width addr) :: rest → step s = .next { s with
        schedule := rest, responses := { busError := false, data := 0 } :: s.responses })
    ∧ (∀ v, (v.getLsbD 1 = true ∨ v.getLsbD 2 = true) →
      s.schedule = .access (.write .w32 Reg.status.addr v) :: rest → step s = .next { s with
        done := s.done && !v.getLsbD 1, err := s.err && !v.getLsbD 2,
        errCode := if v.getLsbD 2 then 0 else s.errCode, errOpc := if v.getLsbD 2 then 0 else s.errOpc,
        schedule := rest, responses := { busError := false, data := 0 } :: s.responses })
    ∧ (∀ v, s.schedule = .access (.write .w32 Reg.ctrl.addr v) :: rest → step s = .next { s with
      ctrl := v.setWidth 3,
      schedule := rest, responses := { busError := false, data := 0 } :: s.responses })
    ∧ (∀ width addr v, ¬ (addr.toNat = 0x00C ∧ (v.getLsbD 1 = true ∨ v.getLsbD 2 = true)) → addr.toNat ≠ 0x008 →
      allowedByR202 width addr.toNat →
      s.schedule = .access (.write width addr v) :: rest → step s = .next { s with
        err := true, errCode := 3,
        errOpc := BitVec.ofNat 8 ((if addr.toNat = 0x010 then v.toNat else run.word.toNat) % 256),
        schedule := rest, responses := { busError := false, data := 0 } :: s.responses })
    ∧ (∀ a, s.schedule = .access a :: rest → ∃ t, step s = .next t ∧ t.running = some run ∧ SameBytes s t
      ∧ ∀ r : Reg, r ≠ .status → r ≠ .ctrl → t.regValue r = s.regValue r)

/-- A host write to memory while BUSY = 0 stores the low bytes of the value, least significant first, at the addresses of the
access that lie in a memory region, and changes no other byte and no register; a read of bytes of a memory region returns
their little-endian number (20_memory.md R203, R205, R208). That an access that straddles STREAM_CAP goes byte by byte, and
which accesses of unmapped addresses are allowed, is the model's choice (log entry 6). -/
def Obligations.HostMemoryAccessIsLittleEndian : Prop :=
  ∀ (s : State) (width : Width) (addr : Word) (rest : List Event), s.rst = false → s.running = none →
    0x1000 ≤ addr.toNat → addr.toNat % width.bytes = 0 →
    (∀ value, s.schedule = .access (.write width addr value) :: rest → ∃ t, step s = .next t
      ∧ t = { s with
          mem := t.mem, schedule := rest, responses := { busError := false, data := 0 } :: s.responses }
      ∧ (∀ j < width.bytes, InMemoryRegion s.params.streamCap (addr.toNat + j) →
          t.readByte (addr.toNat + j) = BitVec.ofNat 8 (value.toNat / 256 ^ j))
      ∧ ∀ a, (a < addr.toNat ∨ addr.toNat + width.bytes ≤ a ∨ ¬ InMemoryRegion s.params.streamCap a) →
          t.readByte a = s.readByte a)
    ∧ ((∀ j < width.bytes, InMemoryRegion s.params.streamCap (addr.toNat + j)) →
      s.schedule = .access (.read width addr) :: rest →
      ∃ d : Word, step s = .next { s with
          schedule := rest, responses := { busError := false, data := d } :: s.responses }
        ∧ d.toNat = ((List.range width.bytes).map fun j => (s.readByte (addr.toNat + j)).toNat * 256 ^ j).sum)

/-- A host write of an RW register while BUSY = 0 keeps the bits the register has and changes no other register and no
memory; a write to a read-only register has no effect (10_state.md R110, R113, R115; 20_memory.md R208, R209). CTRL keeps
its three bits (R102); in STATUS a 1 in bit 1 clears DONE, a 1 in bit 2 clears ERR, ERR_CODE and ERR_OPC, a 0 leaves
them, and no other bit acts (R103, 60_exceptions.md R907). -/
def Obligations.RegisterWritesKeepTheirWidth : Prop :=
  ∀ (s : State) (v : Word) (rest : List Event) (r : Reg), s.rst = false → s.running = none →
    s.schedule = .access (.write .w32 r.addr v) :: rest →
    (∀ n, (r, n) ∈ rwRegs → ∃ t, step s = .next t ∧ t.regValue r = BitVec.ofNat 32 (v.toNat % 2 ^ n)
      ∧ (∀ r' : Reg, r' ≠ r → t.regValue r' = s.regValue r') ∧ SameBytes s t)
    ∧ ((∀ n, (r, n) ∉ rwRegs) → r ≠ .ctrl → r ≠ .status → r ≠ .cmd → step s = .next { s with
      schedule := rest, responses := { busError := false, data := 0 } :: s.responses })
    ∧ (r = .ctrl → step s = .next { s with
      ctrl := v.setWidth 3,
      schedule := rest, responses := { busError := false, data := 0 } :: s.responses })
    ∧ (r = .status → step s = .next { s with
      done := s.done && !v.getLsbD 1, err := s.err && !v.getLsbD 2,
      errCode := if v.getLsbD 2 then 0 else s.errCode, errOpc := if v.getLsbD 2 then 0 else s.errOpc,
      schedule := rest, responses := { busError := false, data := 0 } :: s.responses })

/-- "Host reads have no side effects anywhere" (20_memory.md R209): a read changes nothing but what is left on the schedule
and the bus's answer. A 32-bit read at a register's offset in the map of 10_state.md 2.1, while BUSY = 0, answers the value
of that register (20_memory.md R201); the map has every register of the model, each at the offset the model gives it, and
no offset twice. -/
def Obligations.HostReadsHaveNoSideEffects : Prop :=
  (∀ (s : State) (width : Width) (addr : Word) (rest : List Event),
    s.schedule = .access (.read width addr) :: rest →
    ∃ d, step s = .next { s with schedule := rest, responses := d :: s.responses })
  ∧ (∀ (s : State) (r : Reg) (o : Nat) (rest : List Event), (r, o) ∈ registerMap → s.rst = false → s.running = none →
    s.schedule = .access (.read .w32 (BitVec.ofNat 32 o)) :: rest →
    step s = .next { s with
      schedule := rest, responses := { busError := false, data := s.regValue r } :: s.responses })
  ∧ (∀ r : Reg, (r, r.offset) ∈ registerMap) ∧ (registerMap.map Prod.snd).Nodup

/-- R910: the interrupt line, and the place of every flag in STATUS, with the reserved bits 0 (10_state.md R103). -/
def Obligations.StatusBitsAndInterruptLine : Prop :=
  ∀ s : State,
    (s.irq = true ↔ (s.done = true ∧ s.ctrl.getLsbD 0 = true) ∨ (s.err = true ∧ s.ctrl.getLsbD 1 = true))
      ∧ ∀ n < 32, (s.regValue .status).getLsbD n =
          if n = 0 then s.running.isSome
          else if n = 1 then s.done
          else if n = 2 then s.err
          else if n = 3 then s.geomValid
          else if n = 4 then s.refValid
          else if n = 5 then s.irq
          else if 8 ≤ n ∧ n < 16 then s.errCode.getLsbD (n - 8)
          else if 16 ≤ n ∧ n < 24 then s.errOpc.getLsbD (n - 16)
          else false

/-- R118 and R119: where the BASIS and ZIGZAG registers show each entry of the matrix and of the scan table. -/
def Obligations.ParameterMirrors : Prop :=
  ∀ (s : State) (i : Fin 64),
    ((s.regValue (.basis ⟨i.val / 16, by omega⟩)).toNat / 2 ^ (2 * (i.val % 16)) % 4
      = match s.params.basis[i] with
        | .zero => 0
        | .plusOne => 1
        | .minusOne => 3)
    ∧ (s.regValue (.zigzag ⟨i.val / 4, by omega⟩)).toNat / 2 ^ (8 * (i.val % 4)) % 256 = (s.params.zigzag[i]).val

/-! Frame storage and macroblock addressing. -/

/-- R404: NOP changes nothing but BUSY and DONE, and its word is the all-zero word, the only word with its opcode that is
legal. -/
def Obligations.NopOnlyCompletes : Prop :=
  (∀ s : State, exec .nop s = .next { s with running := none, done := true })
    ∧ encode .nop = 0 ∧ ∀ w : Word, w.toNat % 256 = 0 → w ≠ 0 → ∀ i, decode w ≠ .ok i

/-- R403: INIT with a legal size sets the geometry of 10_state.md R111, zeroes the work buffers and the motion vectors of
the grid, and starts the writers, the rate controller and the frame results again; with W = 0, H = 0 or a frame above
16 MiB it clears REF_VALID and the geometry and raises BAD_GEOMETRY. Nothing else changes. -/
def Obligations.InitSetsUpOrRefuses : Prop :=
  encode .init = 1 ∧ ∀ s : State,
    let W := s.cfg.width.toNat
    let H := s.cfg.height.toNat
    let ys := (W + 15) / 16 * 16
    let cs := (W / 2 + 15) / 16 * 16
    let mvBytes := 4 * ((W + 15) / 16 * ((H + 15) / 16))
    ((W = 0 ∨ H = 0 ∨ 0x01000000 < ys * H + 2 * cs * (H / 2)) → exec .init s = .next { s with
      running := none, done := true, err := true, errCode := 5, errOpc := 0x01,
      refValid := false, geomValid := false, geom := ⟨0, 0, 0, 0, 0, 0, 0, 0, 0, 0⟩ })
    ∧ (¬ (W = 0 ∨ H = 0 ∨ 0x01000000 < ys * H + 2 * cs * (H / 2)) → ∃ t, exec .init s = .next t
      ∧ t = { s with
          mem := t.mem, running := none, done := true, refValid := false, geomValid := true,
          geom := ⟨nat32 W, nat32 H, nat32 ((W + 15) / 16), nat32 ((H + 15) / 16), nat32 ys, nat32 cs, nat32 (W / 2),
            nat32 (H / 2), nat32 (ys * H), nat32 (ys * H + cs * (H / 2))⟩,
          bs0Bits := 0, bs1Bits := 0, rc := ⟨s.cfg.qp, 0, 0⟩, fr := ⟨0, 0, 0, 0, 0, 0, 0⟩ }
      ∧ (∀ a, 0x04000000 ≤ a → a < 0x04000A00 → t.readByte a = 0)
      ∧ (∀ a, 0x05000000 ≤ a → a < 0x05000000 + mvBytes → t.readByte a = 0)
      ∧ ∀ a, ¬ (0x04000000 ≤ a ∧ a < 0x04000A00) → ¬ (0x05000000 ≤ a ∧ a < 0x05000000 + mvBytes) →
          t.readByte a = s.readByte a)

/-- R401: the view of an in-grid macroblock is its 16×16 (8×8 for chroma) rectangle clipped to the plane, never empty in
luma; an out-of-grid coordinate gives the zero view. -/
def Obligations.ViewsAreClippedRectangles : Prop :=
  ∀ (s : State) (p : Plane) (mbx mby : Nat), s.Inv →
    let inGrid := s.geomValid = true ∧ mbx < s.geom.mbCols.toNat ∧ mby < s.geom.mbRows.toNat
    let v := s.view p mbx mby
    let n : Int := if p = .y then 16 else 8
    let pw : Int := if p = .y then s.geom.w.toNat else s.geom.cw.toNat
    let ph : Int := if p = .y then s.geom.h.toNat else s.geom.ch.toNat
    (inGrid → v.valid = true ∧ (v.x0 : Int) = n * mbx ∧ (v.y0 : Int) = n * mby
      ∧ (v.w : Int) = max 0 (min n (pw - v.x0)) ∧ (v.h : Int) = max 0 (min n (ph - v.y0))
      ∧ (p = .y → 1 ≤ v.w ∧ 1 ≤ v.h))
    ∧ (¬ inGrid → v = { x0 := 0, y0 := 0, w := 0, h := 0, valid := false })

/-- R402 and R408: the loop over all macroblocks visits the grid in row-major order, every coordinate exactly once, and the
luma widths of a row sum to W, the heights of a column to H. -/
def Obligations.GridLoopCoversTheFrame : Prop :=
  ∀ s : State, s.Inv → s.geomValid = true →
    let W := s.geom.w.toNat
    let H := s.geom.h.toNat
    let cols := (W + 15) / 16
    let rows := (H + 15) / 16
    s.mbCoords.length = cols * rows
      ∧ (∀ j < cols * rows, s.mbCoords[j]? = some (j % cols, j / cols))
      ∧ s.mbCoords.Nodup
      ∧ (∀ mby < rows, ((List.range cols).map fun mbx => (s.view .y mbx mby).w).sum = W)
      ∧ ∀ mbx < cols, ((List.range rows).map fun mby => (s.view .y mbx mby).h).sum = H

/-- R405: MB_VIEW writes RES0 to RES6 with the view, its stride and its offset, all 0 for an out-of-grid coordinate, and
nothing else.
Without a geometry it raises NO_GEOMETRY and does nothing else. -/
def Obligations.MbViewReportsTheView : Prop :=
  ∀ (s : State) (sel : BitVec 4) (p : Plane), (sel, p) ∈ [(0#4, Plane.y), (1#4, .u), (2#4, .v)] → s.geomValid = true →
    NeedsGeometry (.mbView sel) ∧ encode (.mbView sel) = BitVec.ofNat 32 (0x10 + 256 * sel.toNat) ∧
    let v := s.view p s.args.mbx.toNat s.args.mby.toNat
    let stride := if p = .y then s.geom.yStride.toNat else s.geom.cStride.toNat
    let planeOff := if p = .y then 0 else if p = .u then s.geom.uOff.toNat else s.geom.vOff.toNat
    ∃ t, exec (.mbView sel) s = .next t ∧ t = { s with res := t.res, running := none, done := true }
      ∧ t.res[0] = nat32 v.x0 ∧ t.res[1] = nat32 v.y0 ∧ t.res[2] = nat32 v.w ∧ t.res[3] = nat32 v.h
      ∧ t.res[4] = (if v.valid then 1 else 0) ∧ t.res[5] = nat32 (if v.valid then stride else 0)
      ∧ t.res[6] = nat32 (if v.valid then planeOff + v.y0 * stride + v.x0 else 0) ∧ t.res[7] = s.res[7]

/-- R406: LOAD_SRC copies the samples of the macroblock's valid region into the plane's staging buffer, zero-extended, and
changes no other byte: the stale tail stays.
Without a geometry it raises NO_GEOMETRY and does nothing else. -/
def Obligations.LoadSrcCopiesTheValidRegion : Prop :=
  ∀ (s : State) (sel : BitVec 4) (p : Plane) (base width : Nat),
    (sel, p, base, width) ∈ [(0#4, Plane.y, 0x04000100, 16), (1#4, .u, 0x04000300, 8), (2#4, .v, 0x04000380, 8)] →
    s.geomValid = true →
    NeedsGeometry (.loadSrc sel) ∧ encode (.loadSrc sel) = BitVec.ofNat 32 (0x11 + 256 * sel.toNat) ∧
    let v := s.view p s.args.mbx.toNat s.args.mby.toNat
    ∃ t, exec (.loadSrc sel) s = .next t ∧ t = { s with mem := t.mem, running := none, done := true }
      ∧ (∀ r < v.h, ∀ c < v.w,
          (t.elem16 (base + 2 * (width * r + c))).toNat = (s.sample .cur p (v.x0 + c) (v.y0 + r)).toNat)
      ∧ ∀ a, (∀ r < v.h, ∀ c < v.w, a < base + 2 * (width * r + c) ∨ base + 2 * (width * r + c) + 2 ≤ a) →
          t.readByte a = s.readByte a

/-- R407: STORE_REF copies every sample of CUR to REF, sets REF_VALID, and changes no other byte: padding is not
written.
Without a geometry it raises NO_GEOMETRY and does nothing else. -/
def Obligations.StoreRefCopiesTheFrame : Prop :=
  encode .storeRef = 0x12 ∧ NeedsGeometry .storeRef ∧ ∀ s : State, s.Inv → s.geomValid = true →
    ∃ t, exec .storeRef s = .next t ∧ t = { s with mem := t.mem, refValid := true, running := none, done := true }
      ∧ (∀ p x y, x < s.planeW p → y < s.planeH p → t.sample .ref p x y = s.sample .cur p x y)
      ∧ ∀ a, (∀ p x y, x < s.planeW p → y < s.planeH p → a ≠ s.sampleAddr .ref p x y) → t.readByte a = s.readByte a

/-! Motion estimation. -/

/-- R453 and R454: ME_FULL gives the in-bounds displacement of the search square with the least SAD, the first in scan order
(dy outer, dx inner) among equals; out of the grid it gives the sentinel (R452). It writes RES0 to RES2 only.
Without a geometry it raises NO_GEOMETRY and does nothing else. -/
def Obligations.MeFullFindsTheFirstMinimum : Prop :=
  encode .meFull = 0x20 ∧ NeedsGeometry .meFull ∧ ∀ s : State, s.Inv → s.geomValid = true →
    let R : Int := s.cfg.range.toNat
    let v := s.view .y s.args.mbx.toNat s.args.mby.toNat
    (v.valid = true → ∃ dx dy : Int,
      exec .meFull s = .next { s with
        running := none, done := true,
        res := ((s.res.set 0 (BitVec.ofInt 32 dx)).set 1 (BitVec.ofInt 32 dy)).set 2 (nat32 (sadSum s v dx dy)) }
      ∧ dx.natAbs ≤ R ∧ dy.natAbs ≤ R ∧ displacedInFrame s v dx dy ∧ sadSum s v dx dy ≤ 65280
      ∧ ∀ dx' dy' : Int, dx'.natAbs ≤ R → dy'.natAbs ≤ R → displacedInFrame s v dx' dy' →
          sadSum s v dx dy ≤ sadSum s v dx' dy'
            ∧ ((dy' < dy ∨ (dy' = dy ∧ dx' < dx)) → sadSum s v dx dy < sadSum s v dx' dy'))
    ∧ (v.valid = false → exec .meFull s = .next { s with
        running := none, done := true, res := ((s.res.set 0 0).set 1 0).set 2 0xFFFFFFFF })

/-- R455: in one step of the diamond search the centre stays unless an in-bounds probe is strictly cheaper, and then it
moves to the cheapest such probe, the first in probe order among equals. -/
def Obligations.DiamondStepMovesToTheBestProbe : Prop :=
  ∀ (s : State) (v : View) (cx cy : Int) (cost step : Nat),
    let probes : List (Int × Int) :=
      [(cx, cy - step), (cx, cy + step), (cx - step, cy), (cx + step, cy), (cx - step, cy - step),
        (cx + step, cy - step), (cx - step, cy + step), (cx + step, cy + step)]
    let m := (diamondProbes { dx := cx, dy := cy, cost := cost } step).foldl (consider s v)
      { dx := cx, dy := cy, cost := cost }
    (∀ q ∈ probes, displacedInFrame s v q.1 q.2 → m.cost ≤ sadSum s v q.1 q.2)
      ∧ ((m = { dx := cx, dy := cy, cost := cost })
        ∨ ∃ j : Fin 8, probes[j]? = some (m.dx, m.dy) ∧ displacedInFrame s v m.dx m.dy
          ∧ m.cost = sadSum s v m.dx m.dy ∧ m.cost < cost
          ∧ ∀ j' : Fin 8, j' < j → ∀ q, probes[j']? = some q → displacedInFrame s v q.1 q.2 →
              m.cost < sadSum s v q.1 q.2)

/-- R455 and R456: ME_DIAMOND starts at (0, 0) with step R, runs the steps R, R div 2, ... down to 1, and writes RES0 to
RES2 only. Its result is in bounds, costs no more than SAD(0, 0), and each component is at most R + R div 2 + ..., below
2R for R ≥ 1. Out of the grid it gives the sentinel (R452).
Without a geometry it raises NO_GEOMETRY and does nothing else. -/
def Obligations.MeDiamondRunsTheStepsOfTheSearch : Prop :=
  encode .meDiamond = 0x21 ∧ NeedsGeometry .meDiamond ∧ ∀ s : State, s.Inv → s.geomValid = true →
    let R := s.cfg.range.toNat
    let v := s.view .y s.args.mbx.toNat s.args.mby.toNat
    let start : Motion := { dx := 0, dy := 0, cost := sadSum s v 0 0 }
    let steps := (List.range (Nat.log2 R + 1)).map fun j => R / 2 ^ j
    let m := if R = 0 then start
      else steps.foldl (fun c step => (diamondProbes c step).foldl (consider s v) c) start
    (v.valid = true →
      exec .meDiamond s = .next { s with
        running := none, done := true,
        res := ((s.res.set 0 (BitVec.ofInt 32 m.dx)).set 1 (BitVec.ofInt 32 m.dy)).set 2 (nat32 m.cost) }
      ∧ displacedInFrame s v m.dx m.dy ∧ m.cost = sadSum s v m.dx m.dy ∧ m.cost ≤ sadSum s v 0 0
      ∧ m.dx.natAbs ≤ 2 * R - 1 ∧ m.dy.natAbs ≤ 2 * R - 1)
    ∧ (v.valid = false → exec .meDiamond s = .next { s with
        running := none, done := true, res := ((s.res.set 0 0).set 1 0).set 2 0xFFFFFFFF })

/-- R457: when the luma of REF equals that of CUR, both searches return cost 0 for an in-grid macroblock, and the diamond
search returns the vector (0, 0). -/
def Obligations.IdenticalFramesCostNothing : Prop :=
  ∀ s : State, s.Inv → s.geomValid = true →
    (∀ x y, x < s.geom.w.toNat → y < s.geom.h.toNat → s.sample .ref .y x y = s.sample .cur .y x y) →
    (s.view .y s.args.mbx.toNat s.args.mby.toNat).valid = true →
    (∃ t, exec .meFull s = .next t ∧ t.res[2] = 0)
      ∧ ∃ t, exec .meDiamond s = .next t ∧ t.res[0] = 0 ∧ t.res[1] = 0 ∧ t.res[2] = 0

/-! Motion compensation and residual. -/

/-- R500 and R501: MC_BLOCK writes to PRED_BLK the samples of REF at the macroblock's origin plus the vector, clamped per
axis into [0, frame_dim − block_dim], over the valid region, and changes no other byte.
Without a geometry it raises NO_GEOMETRY and does nothing else. -/
def Obligations.McBlockSamplesTheClampedBlock : Prop :=
  ∀ (s : State) (sel : BitVec 4) (p : Plane), (sel, p) ∈ [(0#4, Plane.y), (1#4, .u), (2#4, .v)] → s.geomValid = true →
    NeedsGeometry (.mcBlock sel) ∧ encode (.mcBlock sel) = BitVec.ofNat 32 (0x30 + 256 * sel.toNat) ∧
    let v := s.view p s.args.mbx.toNat s.args.mby.toNat
    let pw : Int := if p = .y then s.geom.w.toNat else s.geom.cw.toNat
    let ph : Int := if p = .y then s.geom.h.toNat else s.geom.ch.toNat
    let ox := min (max (v.x0 + s.args.mvx.toInt) 0) (pw - v.w)
    let oy := min (max (v.y0 + s.args.mvy.toInt) 0) (ph - v.h)
    ∃ t, exec (.mcBlock sel) s = .next t ∧ t = { s with mem := t.mem, running := none, done := true }
      ∧ (∀ r < v.h, ∀ c < v.w,
          t.readByte (0x04000000 + 16 * r + c) = s.sample .ref p (ox.toNat + c) (oy.toNat + r))
      ∧ ∀ a, (∀ r < v.h, ∀ c < v.w, a ≠ 0x04000000 + 16 * r + c) → t.readByte a = s.readByte a

/-- R502 and R503: MC_FRAME writes every sample of PRED with the sample of REF that its macroblock's vector in MVARR selects,
clamped, the vector halved toward zero for chroma, and changes no other byte.
Without a geometry it raises NO_GEOMETRY and does nothing else. -/
def Obligations.McFramePredictsEverySample : Prop :=
  encode .mcFrame = 0x31 ∧ NeedsGeometry .mcFrame ∧ ∀ s : State, s.Inv → s.geomValid = true →
    ∃ t, exec .mcFrame s = .next t ∧ t = { s with mem := t.mem, running := none, done := true }
      ∧ (∀ (p : Plane) (mbx mby : Nat), mbx < s.geom.mbCols.toNat → mby < s.geom.mbRows.toNat →
          let v := s.view p mbx mby
          let i := mby * s.geom.mbCols.toNat + mbx
          let dx := (s.elem16 (0x05000000 + 4 * i)).toInt
          let dy := (s.elem16 (0x05000000 + 4 * i + 2)).toInt
          let mvx := if p = .y then dx else dx.tdiv 2
          let mvy := if p = .y then dy else dy.tdiv 2
          let ox := min (max (v.x0 + mvx) 0) ((s.planeW p : Int) - v.w)
          let oy := min (max (v.y0 + mvy) 0) ((s.planeH p : Int) - v.h)
          ∀ r < v.h, ∀ c < v.w,
            t.sample .pred p (v.x0 + c) (v.y0 + r) = s.sample .ref p (ox.toNat + c) (oy.toNat + r))
      ∧ ∀ a, (∀ p x y, x < s.planeW p → y < s.planeH p → a ≠ s.sampleAddr .pred p x y) → t.readByte a = s.readByte a

/-- R504 and R505: RESIDUAL stores the exact signed difference of CUR and PRED_BLK over the luma valid region, and changes no
other byte: the stale tail stays.
Without a geometry it raises NO_GEOMETRY and does nothing else. -/
def Obligations.ResidualIsTheExactDifference : Prop :=
  encode .residual = 0x32 ∧ NeedsGeometry .residual ∧ ∀ s : State, s.geomValid = true →
    let v := s.view .y s.args.mbx.toNat s.args.mby.toNat
    ∃ t, exec .residual s = .next t ∧ t = { s with mem := t.mem, running := none, done := true }
      ∧ (∀ r < v.h, ∀ c < v.w, (t.elem16 (0x04000100 + 2 * (16 * r + c))).toInt
          = (s.sample .cur .y (v.x0 + c) (v.y0 + r)).toNat - ((s.readByte (0x04000000 + 16 * r + c)).toNat : Int))
      ∧ ∀ a, (∀ r < v.h, ∀ c < v.w, a < 0x04000100 + 2 * (16 * r + c) ∨ 0x04000100 + 2 * (16 * r + c) + 2 ≤ a) →
          t.readByte a = s.readByte a

/-! Transform. -/

/-- R551 to R553: LOAD_BLK copies the 64 staging elements of block k, sign-extended; ZERO_BLK makes the 64 elements 0; neither
changes a byte outside the block. -/
def Obligations.LoadAndZeroBlock : Prop :=
  ∀ (s : State) (sel : BitVec 4), sel.toNat ≤ 5 →
    encode (.loadBlk sel) = BitVec.ofNat 32 (0x40 + 256 * sel.toNat)
      ∧ encode (.zeroBlk sel) = BitVec.ofNat 32 (0x41 + 256 * sel.toNat)
      ∧ (∃ t, exec (.loadBlk sel) s = .next t ∧ t = { s with mem := t.mem, running := none, done := true }
        ∧ (∀ r c, coefAt t sel.toNat r c = (s.elem16 (stageAddress sel.toNat r c)).toInt)
        ∧ SameOutsideBlock s t sel.toNat)
      ∧ ∃ t, exec (.zeroBlk sel) s = .next t ∧ t = { s with mem := t.mem, running := none, done := true }
        ∧ (∀ r c, coefAt t sel.toNat r c = 0) ∧ SameOutsideBlock s t sel.toNat

/-- R554 and R556: FDCT8 replaces block k by C · X · Cᵗ, each element shifted right by 3 toward minus infinity and saturated
to 32 bits, and changes no other byte. -/
def Obligations.Fdct8IsTheForwardTransform : Prop :=
  ∀ (s : State) (sel : BitVec 4), sel.toNat ≤ 5 →
    encode (.fdct8 sel) = BitVec.ofNat 32 (0x42 + 256 * sel.toNat) ∧
    ∃ t, exec (.fdct8 sel) s = .next t ∧ t = { s with mem := t.mem, running := none, done := true }
      ∧ (∀ r c, coefAt t sel.toNat r c =
          min (max ((sum8 fun i => sum8 fun j =>
            basisEntry s r i * coefAt s sel.toNat i j * basisEntry s c j) / 8) (-2 ^ 31)) (2 ^ 31 - 1))
      ∧ SameOutsideBlock s t sel.toNat

/-- R555 and R557: IDCT8 replaces block k by Cᵗ · X · C, each element shifted right by 3 toward minus infinity and clamped to
16 bits, sign-extended, and changes no other byte. -/
def Obligations.Idct8IsTheInverseTransform : Prop :=
  ∀ (s : State) (sel : BitVec 4), sel.toNat ≤ 5 →
    encode (.idct8 sel) = BitVec.ofNat 32 (0x43 + 256 * sel.toNat) ∧
    ∃ t, exec (.idct8 sel) s = .next t ∧ t = { s with mem := t.mem, running := none, done := true }
      ∧ (∀ r c, coefAt t sel.toNat r c =
          min (max ((sum8 fun i => sum8 fun j =>
            basisEntry s i r * coefAt s sel.toNat i j * basisEntry s j c) / 8) (-32768)) 32767)
      ∧ SameOutsideBlock s t sel.toNat

/-- R558 and R559: FDCT16 and IDCT16 are the four 8×8 commands on blocks 0 to 3 in sequence; blocks 4 and 5, and every byte
outside blocks 0 to 3, are unchanged. -/
def Obligations.Transform16IsFourTransforms8 : Prop :=
  ∀ s : State, encode .fdct16 = 0x44 ∧ encode .idct16 = 0x45
    ∧ ∀ p ∈ [(Instr.fdct16, Instr.fdct8), (Instr.idct16, Instr.idct8)], ∃ t0 t1 t2 t3,
      exec (p.2 0) s = .next t0 ∧ exec (p.2 1) t0 = .next t1 ∧ exec (p.2 2) t1 = .next t2
        ∧ exec (p.2 3) t2 = .next t3 ∧ exec p.1 s = .next t3
        ∧ t3 = { s with mem := t3.mem, running := none, done := true }
        ∧ ∀ a, (a < 0x04000400 ∨ 0x04000800 ≤ a) → t3.readByte a = s.readByte a

/-- R560: fwd and inv map the zero block to the zero block for every C; fwd(-X) differs from -fwd(X) by at most 1 in each
element; and when C · Cᵗ = Cᵗ · C = 8 · I, the two matrix products of the pair give 64 · X. -/
def Obligations.TransformProperties : Prop :=
  ∀ (m : Vector Trit 64) (x : Block),
    fwd m zeroBlock = zeroBlock ∧ inv m zeroBlock = zeroBlock
      ∧ (∀ i : Fin 64, ((fwd m (x.map fun e => -e))[i] + (fwd m x)[i]).natAbs ≤ 1)
      ∧ (let eightI : Block := blockOf fun r c => if r = c then 8 else 0
        matMul (basisBlock m) (transpose (basisBlock m)) = eightI →
        matMul (transpose (basisBlock m)) (basisBlock m) = eightI →
        matMul (matMul (transpose (basisBlock m)) (matMul (matMul (basisBlock m) x) (transpose (basisBlock m))))
          (basisBlock m) = x.map fun e => 64 * e)

/-! Quantizer. -/

/-- R600 to R602: QP_SCALE writes RES0 with 1 for qp ≤ 0, 256 for qp ≥ 51 and the table's entry between, and nothing else. -/
def Obligations.QpScaleIsTheTable : Prop :=
  encode .qpScale = 0x50 ∧ ∀ s : State,
    let qp := s.args.qp.toInt
    ∃ scale : Nat, exec .qpScale s = .next { s with running := none, done := true, res := s.res.set 0 (nat32 scale) }
      ∧ (qp ≤ 0 → scale = 1) ∧ (51 ≤ qp → scale = 256)
      ∧ (1 ≤ qp → qp ≤ 50 → [1, 1, 1, 1, 2, 2, 2, 2, 3, 3, 3, 4, 4, 4, 5, 6, 6, 7, 8, 9, 10, 11, 13, 14, 16, 18, 20, 22,
          25, 28, 32, 35, 40, 44, 50, 56, 63, 70, 79, 89, 99, 112, 125, 140, 158, 177, 198, 223, 250, 280,
          314][qp.toNat]? = some scale)

/-- R601: between 1 and 50 the scale is `round(exp(qp · 0.115))`: it is the only integer within 1/2 of it. -/
def Obligations.ScaleTableRoundsTheExponential : Prop :=
  ∀ qp : Nat, 1 ≤ qp → qp ≤ 50 → |Real.exp ((qp : ℝ) * (115 / 1000)) - (qpToScale qp : ℝ)| < 1 / 2

/-- R603 to R606: QUANT replaces each coefficient c of block k by sign(c) · ((abs(c) + (s div 2)) div s), DEQUANT replaces each
value q by q · s saturated to 32 bits, for the scale s of ARG_QP (R600); neither changes another byte. -/
def Obligations.QuantAndDequantUseTheScale : Prop :=
  ∀ (s : State) (sel : BitVec 4), sel.toNat ≤ 5 →
    encode (.quant sel) = BitVec.ofNat 32 (0x51 + 256 * sel.toNat)
      ∧ encode (.dequant sel) = BitVec.ofNat 32 (0x52 + 256 * sel.toNat) ∧
    let scale := qpToScale s.args.qp.toInt
    (∃ t, exec (.quant sel) s = .next t ∧ t = { s with mem := t.mem, running := none, done := true }
      ∧ (∀ r c, coefAt t sel.toNat r c =
          (coefAt s sel.toNat r c).sign * (((coefAt s sel.toNat r c).natAbs + scale / 2) / scale : Nat))
      ∧ SameOutsideBlock s t sel.toNat)
    ∧ ∃ t, exec (.dequant sel) s = .next t ∧ t = { s with mem := t.mem, running := none, done := true }
      ∧ (∀ r c, coefAt t sel.toNat r c =
          min (max (coefAt s sel.toNat r c * scale) (-2 ^ 31)) (2 ^ 31 - 1))
      ∧ SameOutsideBlock s t sel.toNat

/-- R603 and R607: quantize is division with the nearest integer, halves away from zero; and dequantizing a quantized
coefficient is off by at most s div 2 while |c| ≤ 2^31 - 1 - (s div 2), which for even s is reached at c = s / 2. -/
def Obligations.QuantizeRoundsAndBoundsTheError : Prop :=
  ∀ (c : Int) (s : Nat), 1 ≤ s →
    2 * (c - s * quantize c s).natAbs ≤ s
      ∧ (2 * (c - s * quantize c s).natAbs = s → c.natAbs < (s * quantize c s).natAbs)
      ∧ (quantize c s).natAbs ≤ c.natAbs
      ∧ ((c.natAbs : Int) ≤ 2 ^ 31 - 1 - (s / 2 : Nat) → (c - dequantize (quantize c s) s).natAbs ≤ s / 2)
      ∧ (s % 2 = 0 → (s : Int) ≤ 2 ^ 31 - 1 → c = (s / 2 : Nat) →
          (c - dequantize (quantize c s) s).natAbs = s / 2)

/-! Bitstream writers. -/

/-- R702 and R705: BS_WRITE_BITS puts the low ARG_NBITS bits of ARG_VALUE at the stream's bit position, the least significant
first, the new bytes otherwise 0, and moves the position; with ARG_NBITS outside 1..32 it raises BAD_ARG, and past
STREAM_CAP it raises OVERFLOW, with nothing written. Bits already written and every other byte stay. -/
def Obligations.BsWriteBitsAppendsTheField : Prop :=
  ∀ (s : State) (st : Stream),
    encode (.bsWriteBits st) = (if st = .stream0 then 0x0071 else 0x1071) ∧
    let n := s.args.nbits.toNat
    let b := (s.bsBits st).toNat
    ((n < 1 ∨ 32 < n) → exec (.bsWriteBits st) s = .next { s with
      running := none, done := true, err := true, errCode := 2, errOpc := 0x71 })
    ∧ (1 ≤ n → n ≤ 32 → s.params.streamCap < (b + n + 7) / 8 → exec (.bsWriteBits st) s = .next { s with
      running := none, done := true, err := true, errCode := 7, errOpc := 0x71 })
    ∧ (1 ≤ n → n ≤ 32 → (b + n + 7) / 8 ≤ s.params.streamCap → ∃ t, exec (.bsWriteBits st) s = .next t
      ∧ t = { s.setBsBits st (nat32 (b + n)) with mem := t.mem, running := none, done := true }
      ∧ (∀ i < n, t.streamBit st (b + i) = s.args.value.getLsbD i)
      ∧ NewBitsZero t st b (b + n)
      ∧ SameOutsideStreamBits s t st b (b + n))

/-- R706: BS_WRITE_BYTE pads to the next byte boundary with zero bits, then writes ARG_VALUE[7:0]; if only the byte does not
fit it raises OVERFLOW and the alignment stays done. -/
def Obligations.BsWriteByteAlignsFirst : Prop :=
  ∀ (s : State) (st : Stream), s.Inv →
    encode (.bsWriteByte st) = (if st = .stream0 then 0x0072 else 0x1072) ∧
    let b := (s.bsBits st).toNat
    let k := (b + 7) / 8
    (k + 1 ≤ s.params.streamCap → ∃ t, exec (.bsWriteByte st) s = .next t
      ∧ t = { s.setBsBits st (nat32 (8 * k + 8)) with mem := t.mem, running := none, done := true }
      ∧ t.readByte (streamBase st + k) = s.args.value.setWidth 8
      ∧ (∀ p, b ≤ p → p < 8 * k → t.streamBit st p = false)
      ∧ SameOutsideStreamBits s t st b (8 * k + 8))
    ∧ (s.params.streamCap < k + 1 → ∃ t, exec (.bsWriteByte st) s = .next t
      ∧ t = { s.setBsBits st (nat32 (8 * k)) with
          mem := t.mem, running := none, done := true, err := true, errCode := 7, errOpc := 0x72 }
      ∧ (∀ p, b ≤ p → p < 8 * k → t.streamBit st p = false)
      ∧ SameOutsideStreamBits s t st b (8 * k))

/-- R703, R704 and R707: BS_FLUSH pads to the next byte boundary with zero bits and never overflows; BS_CLEAR makes the
position 0 and erases no byte. -/
def Obligations.BsFlushPadsAndBsClearForgets : Prop :=
  ∀ (s : State) (st : Stream),
    encode (.bsFlush st) = (if st = .stream0 then 0x0073 else 0x1073)
      ∧ encode (.bsClear st) = (if st = .stream0 then 0x0070 else 0x1070)
      ∧ exec (.bsClear st) s = .next { s.setBsBits st 0 with running := none, done := true }
      ∧ (s.Inv →
        let b := (s.bsBits st).toNat
        let k := (b + 7) / 8
        ∃ t, exec (.bsFlush st) s = .next t
          ∧ t = { s.setBsBits st (nat32 (8 * k)) with mem := t.mem, running := none, done := true }
          ∧ (∀ p, b ≤ p → p < 8 * k → t.streamBit st p = false)
          ∧ SameOutsideStreamBits s t st b (8 * k))

/-- R717: fields of 1 to 32 bits written by emit into an empty stream read back in order, each as its value modulo 2^n, with
or without a final flush. -/
def Obligations.WrittenFieldsReadBack : Prop :=
  ∀ (s : State) (st : Stream) (fs : List Field), s.Inv → s.bsBits st = 0 → (∀ f ∈ fs, 1 ≤ f.width ∧ f.width ≤ 32) →
    fieldsWidth fs ≤ 8 * s.params.streamCap →
    ∃ t u, emitAll st fs s = .ok t ∧ align st t = .ok u
      ∧ readSeq { buf := t.streamBytes st, pos := 0 } (fs.map fun f => f.width)
          = fs.map (fun f => f.value.toNat % 2 ^ f.width)
      ∧ readSeq { buf := u.streamBytes st, pos := 0 } (fs.map fun f => f.width)
          = fs.map (fun f => f.value.toNat % 2 ^ f.width)

/-- A sequence of fields that does not fit raises OVERFLOW at the first field that would pass STREAM_CAP, and the fields
before it stay written (46_bitstream.md R702, 60_exceptions.md R906). -/
def Obligations.OverflowKeepsEarlierFields : Prop :=
  ∀ (s : State) (st : Stream) (fs : List Field), s.Inv → s.params.streamCap < ((s.bsBits st).toNat + fieldsWidth fs + 7) / 8 →
    ∃ pre f post t, fs = pre ++ f :: post ∧ emitAll st pre s = .ok t ∧ emitAll st fs s = .error t .overflow
      ∧ (t.bsBits st).toNat = (s.bsBits st).toNat + fieldsWidth pre
      ∧ s.params.streamCap < ((t.bsBits st).toNat + f.width + 7) / 8

/-! Entropy coder. -/

/-- R652 to R655: ENC_BLOCK appends the pairs of block k to stream s and writes RES0 with their number of bits, which is 25 to
1105; no other byte changes, so COEF does not. On OVERFLOW the fields before the failing one stay written and RES0 is not
written. -/
def Obligations.EncBlockAppendsThePairs : Prop :=
  ∀ (s : State) (sel : BitVec 4) (st : Stream), sel.toNat ≤ 5 → s.Inv →
    encode (.encBlock sel st) = BitVec.ofNat 32 (0x60 + 256 * sel.toNat + (if st = .stream0 then 0 else 4096))
      ∧ 25 ≤ (blockChunks s sel.toNat).flatten.length ∧ (blockChunks s sel.toNat).flatten.length ≤ 1105
      ∧ AppendsChunks (.encBlock sel st) s st (blockChunks s sel.toNat)

/-- R656 and R657: ENC_MV appends the low 16 bits of ARG_MVX, then of ARG_MVY, to stream s, and writes RES0 with 32; if the
second field overflows, the first stays written. -/
def Obligations.EncMvAppendsBothComponents : Prop :=
  ∀ (s : State) (st : Stream), s.Inv →
    encode (.encMv st) = (if st = .stream0 then 0x0061 else 0x1061)
      ∧ AppendsChunks (.encMv st) s st
          [(List.range 16).map s.args.mvx.getLsbD, (List.range 16).map s.args.mvy.getLsbD]

/-- R658: ENC_MB appends the vector of a P macroblock (none for I), then the six blocks in order, all to stream s, and writes
RES0 with the number of bits. -/
def Obligations.EncMbAppendsVectorAndBlocks : Prop :=
  ∀ (s : State) (st : Stream), s.Inv →
    encode (.encMb st) = (if st = .stream0 then 0x0062 else 0x1062)
      ∧ AppendsChunks (.encMb st) s st
          ((if s.args.ftype = 1 then
              [(List.range 16).map s.args.mvx.getLsbD, (List.range 16).map s.args.mvy.getLsbD]
            else [])
            ++ (List.range 6).flatMap fun k => blockChunks s k)

/-- R669: a block whose nonzero elements lie in -4095..4095, with no run of exactly 15 zeros before a nonzero element,
decodes back from its bits, wherever in a byte sequence they stand. With an end-of-block run other than 15 the decoder
stops at the block's last bit; with 15 it ends 8 bits late and needs the 7 bits after the block to be 0, or else it is
malformed. Written with `encode_block` into an empty stream that has room, flushed and decoded from the start, such a
block comes back. -/
def Obligations.CodedBlockDecodesBack : Prop :=
  ∀ (zigzag : Vector (Fin 64) 64) (x : Block), zigzag.toList.Nodup →
    (∀ i : Fin 64, (x[i]).natAbs ≤ 4095) →
    15 ∉ runsBefore 0 (scan zigzag x) →
    let fs := blockFields zigzag x
    let n := fieldsWidth fs
    (∀ (buf : List Byte) (q : Nat), (∀ i < n, (fieldBits fs)[i]? = some (bufBit buf (q + i))) →
      let d := decodeBlock zigzag { buf := buf, pos := q }
      (trailingRun 0 (scan zigzag x) ≠ 15 → d = { block := x, status := .ok, reader := { buf := buf, pos := q + n } })
      ∧ (trailingRun 0 (scan zigzag x) = 15 →
        ((∀ i < 7, bufBit buf (q + n + i) = false) →
          d = { block := x, status := .ok, reader := { buf := buf, pos := q + n + 8 } })
        ∧ ((∃ i < 7, bufBit buf (q + n + i) = true) → d.status = .malformed)))
    ∧ ∀ (s : State) (st : Stream) (k : Nat), s.Inv → s.bsBits st = 0 → s.params.zigzag = zigzag → s.coefBlock k = x →
      n ≤ 8 * s.params.streamCap →
      ∃ t u, encodeBlock st k s = .ok t ∧ align st t = .ok u
        ∧ (decodeBlock zigzag { buf := u.streamBytes st, pos := 0 }).block = x
        ∧ (decodeBlock zigzag { buf := u.streamBytes st, pos := 0 }).status = .ok

/-! Rate control. -/

/-- R750 and R751: RC_FRAME_TYPE writes RES0 with 0 (I) for frame 0 and for multiples of a nonzero GOP size, 1 (P) otherwise,
and nothing else. -/
def Obligations.RcFrameTypeFollowsTheGop : Prop :=
  encode .rcFrameType = 0x80 ∧ ∀ s : State,
    let f := s.args.frameId.toNat
    let g := s.cfg.gop.toNat
    ((f = 0 ∨ (0 < g ∧ f % g = 0)) →
      exec .rcFrameType s = .next { s with running := none, done := true, res := s.res.set 0 0 })
    ∧ (¬ (f = 0 ∨ (0 < g ∧ f % g = 0)) →
      exec .rcFrameType s = .next { s with running := none, done := true, res := s.res.set 0 1 })

/-- R753 to R755: RC_CHOOSE_QP moves RC_QP by +2 over 1.2 × target, by -1 under 0.8 × target, clamped into
[CFG_QP_MIN, CFG_QP_MAX] (CFG_QP_MAX when the bounds are inverted), records the frame's bits and id, and reports the QP in
RES0. It changes nothing else. -/
def Obligations.RcChooseQpAdaptsAndClamps : Prop :=
  encode .rcChooseQp = 0x81 ∧ ∀ s : State,
    let F : Int := s.cfg.fps.toNat
    let K : Int := s.cfg.targetKbps.toNat
    let b : Int := s.args.bitsUsed.toNat
    let q : Int := s.rc.qp.toNat
    let q1 := if 5 * F * b > 6000 * K then q + 2 else if 5 * F * b < 4000 * K then q - 1 else q
    ∃ q' : BitVec 8, (q'.toNat : Int) = min (max q1 s.cfg.qpMin.toNat) s.cfg.qpMax.toNat
      ∧ exec .rcChooseQp s = .next { s with
          running := none, done := true,
          rc := { qp := q', lastBits := s.args.bitsUsed, lastFrameId := s.args.frameId },
          res := s.res.set 0 (nat32 q'.toNat) }

/-! The encoder. -/

/-- R801, R802 and R810: ENCODE_FRAME without a geometry, or of a P-frame without a reference, writes nothing but the error
record and completes. -/
def Obligations.EncodeFrameRefusals : Prop :=
  encode .encodeFrame = 0x90 ∧ ∀ s : State,
    let intra := s.args.frameId.toNat = 0 ∨ (0 < s.cfg.gop.toNat ∧ s.args.frameId.toNat % s.cfg.gop.toNat = 0)
    (s.geomValid = false → exec .encodeFrame s = .next { s with
      running := none, done := true, err := true, errCode := 4, errOpc := 0x90 })
    ∧ (s.geomValid = true → ¬ intra → s.refValid = false → exec .encodeFrame s = .next { s with
      running := none, done := true, err := true, errCode := 6, errOpc := 0x90 })

/-- The frame ENCODE_FRAME codes is an I-frame (47_rate_control.md R750, 48_encoder.md R802). -/
def Sys2Proof.Machine.IntraFrame (s : State) : Prop :=
  s.args.frameId.toNat = 0 ∨ (0 < s.cfg.gop.toNat ∧ s.args.frameId.toNat % s.cfg.gop.toNat = 0)

/-- The frame by the host's own commands, for the type of the frame and the search of the ME_MODE read at acceptance
(48_encoder.md R803 to R808). -/
def Sys2Proof.Machine.FrameByCommands (s u : State) : Prop :=
  let mode := ((s.running.map Running.ctrl).getD s.ctrl).getLsbD 2
  (IntraFrame s → u = hostFrame hostIntraMb s) ∧ (¬ IntraFrame s → u = hostFrame (hostPredictedMb mode) s)

/-- The frame fits its streams: they have room for the worst case, or the host's own commands, from a clear error record,
code it without an error. -/
def Sys2Proof.Machine.FrameFits (s : State) : Prop :=
  6630 * (s.geom.mbCols.toNat * s.geom.mbRows.toNat) ≤ 8 * s.params.streamCap
    ∨ ∃ u, FrameByCommands { s with err := false } u ∧ u.err = false

/-- What an ENCODE_FRAME that raises no error leaves in t (48_encoder.md R803, R806 to R809, R813): REF is a copy of CUR and
REF_VALID is 1; the streams are whole bytes within STREAM_CAP, no vectors for an I-frame and 32 bits per macroblock for a
P-frame, and 150 to 6630 bits of coefficients per macroblock, padded to a byte; FR_*, RC_* and RES0 to RES3 are those of
R807 and R809; no other register changes, and no byte outside the work buffers, the vectors of a P-frame, the streams and
the samples of REF. -/
def Sys2Proof.Machine.FrameCommitted (s t : State) : Prop :=
  let n := s.geom.mbCols.toNat * s.geom.mbRows.toNat
  t = { s with
      mem := t.mem, res := t.res, rc := t.rc, fr := t.fr, bs0Bits := t.bs0Bits, bs1Bits := t.bs1Bits,
      refValid := true, running := none, done := true }
    ∧ (∀ p x y, x < s.planeW p → y < s.planeH p → t.sample .ref p x y = s.sample .cur p x y)
    ∧ (IntraFrame s → t.bs0Bits = 0) ∧ (¬ IntraFrame s → t.bs0Bits.toNat = 32 * n)
    ∧ t.bs1Bits.toNat % 8 = 0 ∧ 150 * n ≤ t.bs1Bits.toNat ∧ t.bs1Bits.toNat ≤ 6630 * n + 7
    ∧ t.bs0Bits.toNat ≤ 8 * s.params.streamCap ∧ t.bs1Bits.toNat ≤ 8 * s.params.streamCap
    ∧ (let mvBytes := t.bs0Bits.toNat / 8
      let coefBytes := t.bs1Bits.toNat / 8
      let bits := 8 * (mvBytes + coefBytes)
      ∃ ty : BitVec 1, (ty = 0 ↔ IntraFrame s)
        ∧ t.rc = { qp := chooseQp s.cfg s.rc.qp bits, lastBits := nat32 bits, lastFrameId := s.args.frameId }
        ∧ t.fr = { ftype := ty, id := s.args.frameId, tsLo := s.args.tsLo, tsHi := s.args.tsHi, qp := s.cfg.qp,
                   mvBytes := nat32 mvBytes, coefBytes := nat32 coefBytes }
        ∧ t.res[0] = ty.setWidth 32 ∧ t.res[1] = nat32 mvBytes ∧ t.res[2] = nat32 coefBytes
        ∧ t.res[3] = t.rc.qp.setWidth 32
        ∧ t.res[4] = s.res[4] ∧ t.res[5] = s.res[5] ∧ t.res[6] = s.res[6] ∧ t.res[7] = s.res[7])
    ∧ ∀ a, ¬ (0x04000000 ≤ a ∧ a < 0x04000A00) →
        ¬ (¬ IntraFrame s ∧ 0x05000000 ≤ a ∧ a < 0x05000000 + 4 * n) →
        ¬ (0x06000000 ≤ a ∧ a < 0x06000000 + t.bs0Bits.toNat / 8) →
        ¬ (0x07000000 ≤ a ∧ a < 0x07000000 + t.bs1Bits.toNat / 8) →
        (∀ p x y, x < s.planeW p → y < s.planeH p → a ≠ s.sampleAddr .ref p x y) →
        t.readByte a = s.readByte a

/-- R810: an ENCODE_FRAME that passes its first checks leaves the error record alone if the frame fits its streams; otherwise it
raises OVERFLOW and then commits nothing: REF_VALID, the rate-control state, the frame results,
RES0 to RES7 and every byte of CUR, REF and PRED keep their old values, and no register but the bit counts and the error
record changes. -/
def Obligations.EncodeFrameCommitsOnlyOnSuccess : Prop :=
  ∀ s : State, s.Inv → s.geomValid = true → (IntraFrame s ∨ s.refValid = true) →
    ∃ t, exec .encodeFrame s = .next t
      ∧ (FrameFits s → t.err = s.err ∧ t.errCode = s.errCode ∧ t.errOpc = s.errOpc ∧ t.refValid = true)
      ∧ (¬ FrameFits s →
        t = { s with
            mem := t.mem, bs0Bits := t.bs0Bits, bs1Bits := t.bs1Bits, running := none, done := true, err := true,
            errCode := 7, errOpc := 0x90 }
          ∧ ∀ a, a < 0x04000000 → t.readByte a = s.readByte a)

/-- R803, R806 to R809 and R813: an ENCODE_FRAME of a frame that fits its streams completes with the whole frame committed, as
`FrameCommitted` spells it out: the streams, the reference, the frame results, the rate-control state, RES0 to RES3, and
nothing else. -/
def Obligations.EncodeFrameCommitsTheFrame : Prop :=
  ∀ s : State, s.Inv → s.geomValid = true → (IntraFrame s ∨ s.refValid = true) → FrameFits s →
    ∃ t, exec .encodeFrame s = .next t ∧ FrameCommitted s t

/-- ENCODE_FRAME runs the units "with the same functions the host commands use" (48_encoder.md, introduction to R800; R803 to
R808): a frame that fits its streams leaves the memory and the streams exactly as the host's own command sequence over
every macroblock in grid order does, for I-frames and for P-frames with the search ME_MODE selects. -/
def Obligations.EncodeFrameEqualsTheHostCommands : Prop :=
  ∀ s : State, s.Inv → s.geomValid = true → (IntraFrame s ∨ s.refValid = true) → FrameFits s →
    ∀ u, FrameByCommands s u → ∃ t, exec .encodeFrame s = .next t ∧ t.err = s.err
      ∧ t.mem = u.mem ∧ t.bs0Bits = u.bs0Bits ∧ t.bs1Bits = u.bs1Bits ∧ u.refValid = true
end

