-- ==== Sys2Proof/Laws/State.lean ====
section
/-! SUPPORT. One lemma per field per update of State: what a field is after each of the model's updates. -/

namespace Sys2Proof.Machine

@[simp] theorem storeCells_ctrl (s : State) (cells : List Host.Cell) : (s.storeCells cells).ctrl = s.ctrl := rfl
@[simp] theorem storeCells_done (s : State) (cells : List Host.Cell) : (s.storeCells cells).done = s.done := rfl
@[simp] theorem storeCells_err (s : State) (cells : List Host.Cell) : (s.storeCells cells).err = s.err := rfl
@[simp] theorem storeCells_geomValid (s : State) (cells : List Host.Cell) : (s.storeCells cells).geomValid = s.geomValid := rfl
@[simp] theorem storeCells_refValid (s : State) (cells : List Host.Cell) : (s.storeCells cells).refValid = s.refValid := rfl
@[simp] theorem storeCells_errCode (s : State) (cells : List Host.Cell) : (s.storeCells cells).errCode = s.errCode := rfl
@[simp] theorem storeCells_errOpc (s : State) (cells : List Host.Cell) : (s.storeCells cells).errOpc = s.errOpc := rfl
@[simp] theorem storeCells_lastCmd (s : State) (cells : List Host.Cell) : (s.storeCells cells).lastCmd = s.lastCmd := rfl
@[simp] theorem storeCells_running (s : State) (cells : List Host.Cell) : (s.storeCells cells).running = s.running := rfl
@[simp] theorem storeCells_cfg (s : State) (cells : List Host.Cell) : (s.storeCells cells).cfg = s.cfg := rfl
@[simp] theorem storeCells_geom (s : State) (cells : List Host.Cell) : (s.storeCells cells).geom = s.geom := rfl
@[simp] theorem storeCells_args (s : State) (cells : List Host.Cell) : (s.storeCells cells).args = s.args := rfl
@[simp] theorem storeCells_res (s : State) (cells : List Host.Cell) : (s.storeCells cells).res = s.res := rfl
@[simp] theorem storeCells_rc (s : State) (cells : List Host.Cell) : (s.storeCells cells).rc = s.rc := rfl
@[simp] theorem storeCells_bs0Bits (s : State) (cells : List Host.Cell) : (s.storeCells cells).bs0Bits = s.bs0Bits := rfl
@[simp] theorem storeCells_bs1Bits (s : State) (cells : List Host.Cell) : (s.storeCells cells).bs1Bits = s.bs1Bits := rfl
@[simp] theorem storeCells_fr (s : State) (cells : List Host.Cell) : (s.storeCells cells).fr = s.fr := rfl
@[simp] theorem storeCells_params (s : State) (cells : List Host.Cell) : (s.storeCells cells).params = s.params := rfl
@[simp] theorem storeCells_mem (s : State) (cells : List Host.Cell) : (s.storeCells cells).mem = s.mem.setAll cells := rfl
@[simp] theorem storeCells_rst (s : State) (cells : List Host.Cell) : (s.storeCells cells).rst = s.rst := rfl
@[simp] theorem storeCells_epoch (s : State) (cells : List Host.Cell) : (s.storeCells cells).epoch = s.epoch := rfl
@[simp] theorem storeCells_schedule (s : State) (cells : List Host.Cell) : (s.storeCells cells).schedule = s.schedule := rfl
@[simp] theorem storeCells_responses (s : State) (cells : List Host.Cell) : (s.storeCells cells).responses = s.responses := rfl

@[simp] theorem setRes_ctrl (s : State) (n : Fin 8) (v : Word) : (s.setRes n v).ctrl = s.ctrl := rfl
@[simp] theorem setRes_done (s : State) (n : Fin 8) (v : Word) : (s.setRes n v).done = s.done := rfl
@[simp] theorem setRes_err (s : State) (n : Fin 8) (v : Word) : (s.setRes n v).err = s.err := rfl
@[simp] theorem setRes_geomValid (s : State) (n : Fin 8) (v : Word) : (s.setRes n v).geomValid = s.geomValid := rfl
@[simp] theorem setRes_refValid (s : State) (n : Fin 8) (v : Word) : (s.setRes n v).refValid = s.refValid := rfl
@[simp] theorem setRes_errCode (s : State) (n : Fin 8) (v : Word) : (s.setRes n v).errCode = s.errCode := rfl
@[simp] theorem setRes_errOpc (s : State) (n : Fin 8) (v : Word) : (s.setRes n v).errOpc = s.errOpc := rfl
@[simp] theorem setRes_lastCmd (s : State) (n : Fin 8) (v : Word) : (s.setRes n v).lastCmd = s.lastCmd := rfl
@[simp] theorem setRes_running (s : State) (n : Fin 8) (v : Word) : (s.setRes n v).running = s.running := rfl
@[simp] theorem setRes_cfg (s : State) (n : Fin 8) (v : Word) : (s.setRes n v).cfg = s.cfg := rfl
@[simp] theorem setRes_geom (s : State) (n : Fin 8) (v : Word) : (s.setRes n v).geom = s.geom := rfl
@[simp] theorem setRes_args (s : State) (n : Fin 8) (v : Word) : (s.setRes n v).args = s.args := rfl
@[simp] theorem setRes_res (s : State) (n : Fin 8) (v : Word) : (s.setRes n v).res = s.res.set n v := rfl
@[simp] theorem setRes_rc (s : State) (n : Fin 8) (v : Word) : (s.setRes n v).rc = s.rc := rfl
@[simp] theorem setRes_bs0Bits (s : State) (n : Fin 8) (v : Word) : (s.setRes n v).bs0Bits = s.bs0Bits := rfl
@[simp] theorem setRes_bs1Bits (s : State) (n : Fin 8) (v : Word) : (s.setRes n v).bs1Bits = s.bs1Bits := rfl
@[simp] theorem setRes_fr (s : State) (n : Fin 8) (v : Word) : (s.setRes n v).fr = s.fr := rfl
@[simp] theorem setRes_params (s : State) (n : Fin 8) (v : Word) : (s.setRes n v).params = s.params := rfl
@[simp] theorem setRes_mem (s : State) (n : Fin 8) (v : Word) : (s.setRes n v).mem = s.mem := rfl
@[simp] theorem setRes_rst (s : State) (n : Fin 8) (v : Word) : (s.setRes n v).rst = s.rst := rfl
@[simp] theorem setRes_epoch (s : State) (n : Fin 8) (v : Word) : (s.setRes n v).epoch = s.epoch := rfl
@[simp] theorem setRes_schedule (s : State) (n : Fin 8) (v : Word) : (s.setRes n v).schedule = s.schedule := rfl
@[simp] theorem setRes_responses (s : State) (n : Fin 8) (v : Word) : (s.setRes n v).responses = s.responses := rfl

@[simp] theorem complete_ctrl (s : State) : s.complete.ctrl = s.ctrl := rfl
@[simp] theorem complete_done (s : State) : s.complete.done = true := rfl
@[simp] theorem complete_err (s : State) : s.complete.err = s.err := rfl
@[simp] theorem complete_geomValid (s : State) : s.complete.geomValid = s.geomValid := rfl
@[simp] theorem complete_refValid (s : State) : s.complete.refValid = s.refValid := rfl
@[simp] theorem complete_errCode (s : State) : s.complete.errCode = s.errCode := rfl
@[simp] theorem complete_errOpc (s : State) : s.complete.errOpc = s.errOpc := rfl
@[simp] theorem complete_lastCmd (s : State) : s.complete.lastCmd = s.lastCmd := rfl
@[simp] theorem complete_running (s : State) : s.complete.running = none := rfl
@[simp] theorem complete_cfg (s : State) : s.complete.cfg = s.cfg := rfl
@[simp] theorem complete_geom (s : State) : s.complete.geom = s.geom := rfl
@[simp] theorem complete_args (s : State) : s.complete.args = s.args := rfl
@[simp] theorem complete_res (s : State) : s.complete.res = s.res := rfl
@[simp] theorem complete_rc (s : State) : s.complete.rc = s.rc := rfl
@[simp] theorem complete_bs0Bits (s : State) : s.complete.bs0Bits = s.bs0Bits := rfl
@[simp] theorem complete_bs1Bits (s : State) : s.complete.bs1Bits = s.bs1Bits := rfl
@[simp] theorem complete_fr (s : State) : s.complete.fr = s.fr := rfl
@[simp] theorem complete_params (s : State) : s.complete.params = s.params := rfl
@[simp] theorem complete_mem (s : State) : s.complete.mem = s.mem := rfl
@[simp] theorem complete_rst (s : State) : s.complete.rst = s.rst := rfl
@[simp] theorem complete_epoch (s : State) : s.complete.epoch = s.epoch := rfl
@[simp] theorem complete_schedule (s : State) : s.complete.schedule = s.schedule := rfl
@[simp] theorem complete_responses (s : State) : s.complete.responses = s.responses := rfl

@[simp] theorem recordError_ctrl (s : State) (e : ErrorCode) (o : BitVec 8) : (s.recordError e o).ctrl = s.ctrl := rfl
@[simp] theorem recordError_done (s : State) (e : ErrorCode) (o : BitVec 8) : (s.recordError e o).done = s.done := rfl
@[simp] theorem recordError_err (s : State) (e : ErrorCode) (o : BitVec 8) : (s.recordError e o).err = true := rfl
@[simp] theorem recordError_geomValid (s : State) (e : ErrorCode) (o : BitVec 8) : (s.recordError e o).geomValid = s.geomValid := rfl
@[simp] theorem recordError_refValid (s : State) (e : ErrorCode) (o : BitVec 8) : (s.recordError e o).refValid = s.refValid := rfl
@[simp] theorem recordError_errCode (s : State) (e : ErrorCode) (o : BitVec 8) : (s.recordError e o).errCode = e.code := rfl
@[simp] theorem recordError_errOpc (s : State) (e : ErrorCode) (o : BitVec 8) : (s.recordError e o).errOpc = o := rfl
@[simp] theorem recordError_lastCmd (s : State) (e : ErrorCode) (o : BitVec 8) : (s.recordError e o).lastCmd = s.lastCmd := rfl
@[simp] theorem recordError_running (s : State) (e : ErrorCode) (o : BitVec 8) : (s.recordError e o).running = s.running := rfl
@[simp] theorem recordError_cfg (s : State) (e : ErrorCode) (o : BitVec 8) : (s.recordError e o).cfg = s.cfg := rfl
@[simp] theorem recordError_geom (s : State) (e : ErrorCode) (o : BitVec 8) : (s.recordError e o).geom = s.geom := rfl
@[simp] theorem recordError_args (s : State) (e : ErrorCode) (o : BitVec 8) : (s.recordError e o).args = s.args := rfl
@[simp] theorem recordError_res (s : State) (e : ErrorCode) (o : BitVec 8) : (s.recordError e o).res = s.res := rfl
@[simp] theorem recordError_rc (s : State) (e : ErrorCode) (o : BitVec 8) : (s.recordError e o).rc = s.rc := rfl
@[simp] theorem recordError_bs0Bits (s : State) (e : ErrorCode) (o : BitVec 8) : (s.recordError e o).bs0Bits = s.bs0Bits := rfl
@[simp] theorem recordError_bs1Bits (s : State) (e : ErrorCode) (o : BitVec 8) : (s.recordError e o).bs1Bits = s.bs1Bits := rfl
@[simp] theorem recordError_fr (s : State) (e : ErrorCode) (o : BitVec 8) : (s.recordError e o).fr = s.fr := rfl
@[simp] theorem recordError_params (s : State) (e : ErrorCode) (o : BitVec 8) : (s.recordError e o).params = s.params := rfl
@[simp] theorem recordError_mem (s : State) (e : ErrorCode) (o : BitVec 8) : (s.recordError e o).mem = s.mem := rfl
@[simp] theorem recordError_rst (s : State) (e : ErrorCode) (o : BitVec 8) : (s.recordError e o).rst = s.rst := rfl
@[simp] theorem recordError_epoch (s : State) (e : ErrorCode) (o : BitVec 8) : (s.recordError e o).epoch = s.epoch := rfl
@[simp] theorem recordError_schedule (s : State) (e : ErrorCode) (o : BitVec 8) : (s.recordError e o).schedule = s.schedule := rfl
@[simp] theorem recordError_responses (s : State) (e : ErrorCode) (o : BitVec 8) : (s.recordError e o).responses = s.responses := rfl

@[simp] theorem clearError_ctrl (s : State) : s.clearError.ctrl = s.ctrl := rfl
@[simp] theorem clearError_done (s : State) : s.clearError.done = s.done := rfl
@[simp] theorem clearError_err (s : State) : s.clearError.err = false := rfl
@[simp] theorem clearError_geomValid (s : State) : s.clearError.geomValid = s.geomValid := rfl
@[simp] theorem clearError_refValid (s : State) : s.clearError.refValid = s.refValid := rfl
@[simp] theorem clearError_errCode (s : State) : s.clearError.errCode = 0 := rfl
@[simp] theorem clearError_errOpc (s : State) : s.clearError.errOpc = 0 := rfl
@[simp] theorem clearError_lastCmd (s : State) : s.clearError.lastCmd = s.lastCmd := rfl
@[simp] theorem clearError_running (s : State) : s.clearError.running = s.running := rfl
@[simp] theorem clearError_cfg (s : State) : s.clearError.cfg = s.cfg := rfl
@[simp] theorem clearError_geom (s : State) : s.clearError.geom = s.geom := rfl
@[simp] theorem clearError_args (s : State) : s.clearError.args = s.args := rfl
@[simp] theorem clearError_res (s : State) : s.clearError.res = s.res := rfl
@[simp] theorem clearError_rc (s : State) : s.clearError.rc = s.rc := rfl
@[simp] theorem clearError_bs0Bits (s : State) : s.clearError.bs0Bits = s.bs0Bits := rfl
@[simp] theorem clearError_bs1Bits (s : State) : s.clearError.bs1Bits = s.bs1Bits := rfl
@[simp] theorem clearError_fr (s : State) : s.clearError.fr = s.fr := rfl
@[simp] theorem clearError_params (s : State) : s.clearError.params = s.params := rfl
@[simp] theorem clearError_mem (s : State) : s.clearError.mem = s.mem := rfl
@[simp] theorem clearError_rst (s : State) : s.clearError.rst = s.rst := rfl
@[simp] theorem clearError_epoch (s : State) : s.clearError.epoch = s.epoch := rfl
@[simp] theorem clearError_schedule (s : State) : s.clearError.schedule = s.schedule := rfl
@[simp] theorem clearError_responses (s : State) : s.clearError.responses = s.responses := rfl

@[simp] theorem setBsBits_ctrl (s : State) (st : Stream) (v : Word) : (s.setBsBits st v).ctrl = s.ctrl := by cases st <;> rfl
@[simp] theorem setBsBits_done (s : State) (st : Stream) (v : Word) : (s.setBsBits st v).done = s.done := by cases st <;> rfl
@[simp] theorem setBsBits_err (s : State) (st : Stream) (v : Word) : (s.setBsBits st v).err = s.err := by cases st <;> rfl
@[simp] theorem setBsBits_geomValid (s : State) (st : Stream) (v : Word) : (s.setBsBits st v).geomValid = s.geomValid := by cases st <;> rfl
@[simp] theorem setBsBits_refValid (s : State) (st : Stream) (v : Word) : (s.setBsBits st v).refValid = s.refValid := by cases st <;> rfl
@[simp] theorem setBsBits_errCode (s : State) (st : Stream) (v : Word) : (s.setBsBits st v).errCode = s.errCode := by cases st <;> rfl
@[simp] theorem setBsBits_errOpc (s : State) (st : Stream) (v : Word) : (s.setBsBits st v).errOpc = s.errOpc := by cases st <;> rfl
@[simp] theorem setBsBits_lastCmd (s : State) (st : Stream) (v : Word) : (s.setBsBits st v).lastCmd = s.lastCmd := by cases st <;> rfl
@[simp] theorem setBsBits_running (s : State) (st : Stream) (v : Word) : (s.setBsBits st v).running = s.running := by cases st <;> rfl
@[simp] theorem setBsBits_cfg (s : State) (st : Stream) (v : Word) : (s.setBsBits st v).cfg = s.cfg := by cases st <;> rfl
@[simp] theorem setBsBits_geom (s : State) (st : Stream) (v : Word) : (s.setBsBits st v).geom = s.geom := by cases st <;> rfl
@[simp] theorem setBsBits_args (s : State) (st : Stream) (v : Word) : (s.setBsBits st v).args = s.args := by cases st <;> rfl
@[simp] theorem setBsBits_res (s : State) (st : Stream) (v : Word) : (s.setBsBits st v).res = s.res := by cases st <;> rfl
@[simp] theorem setBsBits_rc (s : State) (st : Stream) (v : Word) : (s.setBsBits st v).rc = s.rc := by cases st <;> rfl
@[simp] theorem setBsBits_fr (s : State) (st : Stream) (v : Word) : (s.setBsBits st v).fr = s.fr := by cases st <;> rfl
@[simp] theorem setBsBits_params (s : State) (st : Stream) (v : Word) : (s.setBsBits st v).params = s.params := by cases st <;> rfl
@[simp] theorem setBsBits_mem (s : State) (st : Stream) (v : Word) : (s.setBsBits st v).mem = s.mem := by cases st <;> rfl
@[simp] theorem setBsBits_rst (s : State) (st : Stream) (v : Word) : (s.setBsBits st v).rst = s.rst := by cases st <;> rfl
@[simp] theorem setBsBits_epoch (s : State) (st : Stream) (v : Word) : (s.setBsBits st v).epoch = s.epoch := by cases st <;> rfl
@[simp] theorem setBsBits_schedule (s : State) (st : Stream) (v : Word) : (s.setBsBits st v).schedule = s.schedule := by cases st <;> rfl
@[simp] theorem setBsBits_responses (s : State) (st : Stream) (v : Word) : (s.setBsBits st v).responses = s.responses := by cases st <;> rfl

@[simp] theorem respond_ctrl (s : State) (r : Response) : (s.respond r).ctrl = s.ctrl := rfl
@[simp] theorem respond_done (s : State) (r : Response) : (s.respond r).done = s.done := rfl
@[simp] theorem respond_err (s : State) (r : Response) : (s.respond r).err = s.err := rfl
@[simp] theorem respond_geomValid (s : State) (r : Response) : (s.respond r).geomValid = s.geomValid := rfl
@[simp] theorem respond_refValid (s : State) (r : Response) : (s.respond r).refValid = s.refValid := rfl
@[simp] theorem respond_errCode (s : State) (r : Response) : (s.respond r).errCode = s.errCode := rfl
@[simp] theorem respond_errOpc (s : State) (r : Response) : (s.respond r).errOpc = s.errOpc := rfl
@[simp] theorem respond_lastCmd (s : State) (r : Response) : (s.respond r).lastCmd = s.lastCmd := rfl
@[simp] theorem respond_running (s : State) (r : Response) : (s.respond r).running = s.running := rfl
@[simp] theorem respond_cfg (s : State) (r : Response) : (s.respond r).cfg = s.cfg := rfl
@[simp] theorem respond_geom (s : State) (r : Response) : (s.respond r).geom = s.geom := rfl
@[simp] theorem respond_args (s : State) (r : Response) : (s.respond r).args = s.args := rfl
@[simp] theorem respond_res (s : State) (r : Response) : (s.respond r).res = s.res := rfl
@[simp] theorem respond_rc (s : State) (r : Response) : (s.respond r).rc = s.rc := rfl
@[simp] theorem respond_bs0Bits (s : State) (r : Response) : (s.respond r).bs0Bits = s.bs0Bits := rfl
@[simp] theorem respond_bs1Bits (s : State) (r : Response) : (s.respond r).bs1Bits = s.bs1Bits := rfl
@[simp] theorem respond_fr (s : State) (r : Response) : (s.respond r).fr = s.fr := rfl
@[simp] theorem respond_params (s : State) (r : Response) : (s.respond r).params = s.params := rfl
@[simp] theorem respond_mem (s : State) (r : Response) : (s.respond r).mem = s.mem := rfl
@[simp] theorem respond_rst (s : State) (r : Response) : (s.respond r).rst = s.rst := rfl
@[simp] theorem respond_epoch (s : State) (r : Response) : (s.respond r).epoch = s.epoch := rfl
@[simp] theorem respond_schedule (s : State) (r : Response) : (s.respond r).schedule = s.schedule := rfl
@[simp] theorem respond_responses (s : State) (r : Response) : (s.respond r).responses = r :: s.responses := rfl

@[simp] theorem issue_ctrl (s : State) (w : Word) : (s.issue w).ctrl = s.ctrl := rfl
@[simp] theorem issue_done (s : State) (w : Word) : (s.issue w).done = s.done := rfl
@[simp] theorem issue_err (s : State) (w : Word) : (s.issue w).err = s.err := rfl
@[simp] theorem issue_geomValid (s : State) (w : Word) : (s.issue w).geomValid = s.geomValid := rfl
@[simp] theorem issue_refValid (s : State) (w : Word) : (s.issue w).refValid = s.refValid := rfl
@[simp] theorem issue_errCode (s : State) (w : Word) : (s.issue w).errCode = s.errCode := rfl
@[simp] theorem issue_errOpc (s : State) (w : Word) : (s.issue w).errOpc = s.errOpc := rfl
@[simp] theorem issue_lastCmd (s : State) (w : Word) : (s.issue w).lastCmd = w := rfl
@[simp] theorem issue_running (s : State) (w : Word) : (s.issue w).running = some { word := w, ctrl := s.ctrl } := rfl
@[simp] theorem issue_cfg (s : State) (w : Word) : (s.issue w).cfg = s.cfg := rfl
@[simp] theorem issue_geom (s : State) (w : Word) : (s.issue w).geom = s.geom := rfl
@[simp] theorem issue_args (s : State) (w : Word) : (s.issue w).args = s.args := rfl
@[simp] theorem issue_res (s : State) (w : Word) : (s.issue w).res = s.res := rfl
@[simp] theorem issue_rc (s : State) (w : Word) : (s.issue w).rc = s.rc := rfl
@[simp] theorem issue_bs0Bits (s : State) (w : Word) : (s.issue w).bs0Bits = s.bs0Bits := rfl
@[simp] theorem issue_bs1Bits (s : State) (w : Word) : (s.issue w).bs1Bits = s.bs1Bits := rfl
@[simp] theorem issue_fr (s : State) (w : Word) : (s.issue w).fr = s.fr := rfl
@[simp] theorem issue_params (s : State) (w : Word) : (s.issue w).params = s.params := rfl
@[simp] theorem issue_mem (s : State) (w : Word) : (s.issue w).mem = s.mem := rfl
@[simp] theorem issue_rst (s : State) (w : Word) : (s.issue w).rst = s.rst := rfl
@[simp] theorem issue_epoch (s : State) (w : Word) : (s.issue w).epoch = s.epoch := rfl
@[simp] theorem issue_schedule (s : State) (w : Word) : (s.issue w).schedule = s.schedule := rfl
@[simp] theorem issue_responses (s : State) (w : Word) : (s.issue w).responses = s.responses := rfl

@[simp] theorem writeCtrl_ctrl (s : State) (v : Word) : (s.writeCtrl v).ctrl = v.extractLsb' 0 3 := rfl
@[simp] theorem writeCtrl_done (s : State) (v : Word) : (s.writeCtrl v).done = s.done := rfl
@[simp] theorem writeCtrl_err (s : State) (v : Word) : (s.writeCtrl v).err = s.err := rfl
@[simp] theorem writeCtrl_geomValid (s : State) (v : Word) : (s.writeCtrl v).geomValid = s.geomValid := rfl
@[simp] theorem writeCtrl_refValid (s : State) (v : Word) : (s.writeCtrl v).refValid = s.refValid := rfl
@[simp] theorem writeCtrl_errCode (s : State) (v : Word) : (s.writeCtrl v).errCode = s.errCode := rfl
@[simp] theorem writeCtrl_errOpc (s : State) (v : Word) : (s.writeCtrl v).errOpc = s.errOpc := rfl
@[simp] theorem writeCtrl_lastCmd (s : State) (v : Word) : (s.writeCtrl v).lastCmd = s.lastCmd := rfl
@[simp] theorem writeCtrl_running (s : State) (v : Word) : (s.writeCtrl v).running = s.running := rfl
@[simp] theorem writeCtrl_cfg (s : State) (v : Word) : (s.writeCtrl v).cfg = s.cfg := rfl
@[simp] theorem writeCtrl_geom (s : State) (v : Word) : (s.writeCtrl v).geom = s.geom := rfl
@[simp] theorem writeCtrl_args (s : State) (v : Word) : (s.writeCtrl v).args = s.args := rfl
@[simp] theorem writeCtrl_res (s : State) (v : Word) : (s.writeCtrl v).res = s.res := rfl
@[simp] theorem writeCtrl_rc (s : State) (v : Word) : (s.writeCtrl v).rc = s.rc := rfl
@[simp] theorem writeCtrl_bs0Bits (s : State) (v : Word) : (s.writeCtrl v).bs0Bits = s.bs0Bits := rfl
@[simp] theorem writeCtrl_bs1Bits (s : State) (v : Word) : (s.writeCtrl v).bs1Bits = s.bs1Bits := rfl
@[simp] theorem writeCtrl_fr (s : State) (v : Word) : (s.writeCtrl v).fr = s.fr := rfl
@[simp] theorem writeCtrl_params (s : State) (v : Word) : (s.writeCtrl v).params = s.params := rfl
@[simp] theorem writeCtrl_mem (s : State) (v : Word) : (s.writeCtrl v).mem = s.mem := rfl
@[simp] theorem writeCtrl_rst (s : State) (v : Word) : (s.writeCtrl v).rst = s.rst := rfl
@[simp] theorem writeCtrl_epoch (s : State) (v : Word) : (s.writeCtrl v).epoch = s.epoch := rfl
@[simp] theorem writeCtrl_schedule (s : State) (v : Word) : (s.writeCtrl v).schedule = s.schedule := rfl
@[simp] theorem writeCtrl_responses (s : State) (v : Word) : (s.writeCtrl v).responses = s.responses := rfl

@[simp] theorem setBsBits_bsBits_self (s : State) (st : Stream) (v : Word) : (s.setBsBits st v).bsBits st = v := by
  cases st <;> rfl

theorem setBsBits_bsBits_other (s : State) {st st' : Stream} (v : Word) (h : st' ≠ st) :
    (s.setBsBits st v).bsBits st' = s.bsBits st' := by
  cases st <;> cases st' <;> first | rfl | exact absurd rfl h

@[simp] theorem storeCells_bsBits (s : State) (cells : List Host.Cell) (st : Stream) :
    (s.storeCells cells).bsBits st = s.bsBits st := by cases st <;> rfl

@[simp] theorem setRes_bsBits (s : State) (n : Fin 8) (v : Word) (st : Stream) :
    (s.setRes n v).bsBits st = s.bsBits st := by cases st <;> rfl

@[simp] theorem complete_bsBits (s : State) (st : Stream) : s.complete.bsBits st = s.bsBits st := by cases st <;> rfl

@[simp] theorem recordError_bsBits (s : State) (e : ErrorCode) (o : BitVec 8) (st : Stream) :
    (s.recordError e o).bsBits st = s.bsBits st := by cases st <;> rfl

end Sys2Proof.Machine
end

