-- ==== Sys2Proof/Laws/Memory.lean ====
section
/-! SUPPORT. The laws of memory: read after write, what a list of writes leaves alone, and that every memory operation
keeps the canonical form. -/

namespace Sys2Proof.Machine

theorem lookup_insert_self (m : Memory) (a : Nat) (v : Byte) : (m.insert a v).lookup a = some v := by
  induction m with
  | nil => simp [Memory.insert, Memory.lookup]
  | cons c m ih =>
    obtain ⟨k, w⟩ := c
    simp only [Memory.insert]
    split
    · simp [Memory.lookup]
    · split
      · simp [Memory.lookup]
      · rename_i h1 h2
        simp [Memory.lookup, ih, Ne.symm h2]

theorem lookup_insert_other (m : Memory) {a b : Nat} (v : Byte) (h : b ≠ a) :
    (m.insert a v).lookup b = m.lookup b := by
  induction m with
  | nil => simp [Memory.insert, Memory.lookup, Ne.symm h]
  | cons c m ih =>
    obtain ⟨k, w⟩ := c
    simp only [Memory.insert]
    split
    · simp [Memory.lookup, Ne.symm h]
    · split
      · rename_i h1 h2; subst h2
        simp [Memory.lookup, Ne.symm h]
      · simp [Memory.lookup, ih]

theorem lookup_erase_self (m : Memory) (a : Nat) : (m.erase a).lookup a = resetByte a := by
  induction m with
  | nil => rfl
  | cons c m ih =>
    obtain ⟨k, w⟩ := c
    by_cases hk : k = a
    · simpa [Memory.erase, hk] using ih
    · have hf : Memory.erase ((k, w) :: m) a = (k, w) :: Memory.erase m a := by simp [Memory.erase, hk]
      rw [hf]; simpa [Memory.lookup, hk] using ih

theorem lookup_erase_other (m : Memory) {a b : Nat} (h : b ≠ a) : (m.erase a).lookup b = m.lookup b := by
  induction m with
  | nil => rfl
  | cons c m ih =>
    obtain ⟨k, w⟩ := c
    by_cases hk : k = a
    · have hf : Memory.erase ((k, w) :: m) a = Memory.erase m a := by simp [Memory.erase, hk]
      rw [hf]
      have : k ≠ b := by omega
      simpa [Memory.lookup, this] using ih
    · have hf : Memory.erase ((k, w) :: m) a = (k, w) :: Memory.erase m a := by simp [Memory.erase, hk]
      rw [hf]; simp [Memory.lookup, ih]

@[simp] theorem lookup_set_self (m : Memory) (a : Nat) (v : Byte) : (m.set a v).lookup a = some v := by
  unfold Memory.set
  split
  · rename_i h; rw [lookup_erase_self, h]
  · exact lookup_insert_self m a v

theorem lookup_set_other (m : Memory) {a b : Nat} (v : Byte) (h : b ≠ a) : (m.set a v).lookup b = m.lookup b := by
  unfold Memory.set
  split
  · exact lookup_erase_other m h
  · exact lookup_insert_other m v h

theorem setAll_nil (m : Memory) : m.setAll [] = m := rfl

theorem setAll_cons (m : Memory) (c : Host.Cell) (cs : List Host.Cell) :
    m.setAll (c :: cs) = (m.set c.1 c.2).setAll cs := rfl

theorem setAll_append (m : Memory) (cs ds : List Host.Cell) : m.setAll (cs ++ ds) = (m.setAll cs).setAll ds := by
  simp [Memory.setAll, List.foldl_append]

/-- A list of writes leaves every address that is not in it alone. -/
theorem lookup_setAll_notMem (cells : List Host.Cell) (m : Memory) (a : Nat) (h : ∀ c ∈ cells, c.1 ≠ a) :
    (m.setAll cells).lookup a = m.lookup a := by
  induction cells generalizing m with
  | nil => rfl
  | cons c cs ih =>
    rw [setAll_cons, ih _ (fun d hd => h d (by simp [hd]))]
    exact lookup_set_other m c.2 (Ne.symm (h c (by simp)))

/-- A list of writes in which an address is only ever written one value leaves that value there. -/
theorem lookup_setAll_mem (cells : List Host.Cell) (m : Memory) (a : Nat) (v : Byte) (hmem : (a, v) ∈ cells)
    (hval : ∀ c ∈ cells, c.1 = a → c.2 = v) : (m.setAll cells).lookup a = some v := by
  induction cells generalizing m with
  | nil => simp at hmem
  | cons c cs ih =>
    rw [setAll_cons]
    by_cases hin : (a, v) ∈ cs
    · exact ih _ hin (fun d hd => hval d (by simp [hd]))
    · have hc : c = (a, v) := by simpa [hin, eq_comm] using hmem
      subst hc
      rw [lookup_setAll_notMem]
      · simp
      · intro d hd hda
        exact hin (by have := hval d (by simp [hd]) hda; rw [← hda, ← this]; exact hd)

theorem readByte_storeCells_notMem (s : State) (cells : List Host.Cell) (a : Nat) (h : ∀ c ∈ cells, c.1 ≠ a) :
    (s.storeCells cells).readByte a = s.readByte a := by
  simp [State.readByte, lookup_setAll_notMem cells s.mem a h]

theorem readByte_storeCells_mem (s : State) (cells : List Host.Cell) (a : Nat) (v : Byte) (hmem : (a, v) ∈ cells)
    (hval : ∀ c ∈ cells, c.1 = a → c.2 = v) : (s.storeCells cells).readByte a = v := by
  simp [State.readByte, lookup_setAll_mem cells s.mem a v hmem hval]

@[simp] theorem storeCells_nil (s : State) : s.storeCells [] = s := rfl

theorem storeCells_append (s : State) (cs ds : List Host.Cell) :
    s.storeCells (cs ++ ds) = (s.storeCells cs).storeCells ds := by
  simp [State.storeCells, setAll_append]

/-- A byte depends on the memory and the epoch alone. -/
theorem readByte_congr {s t : State} (hm : t.mem = s.mem) (he : t.epoch = s.epoch) (a : Nat) :
    t.readByte a = s.readByte a := by simp [State.readByte, hm, he]

@[simp] theorem setRes_readByte (s : State) (n : Fin 8) (v : Word) (a : Nat) :
    (s.setRes n v).readByte a = s.readByte a := rfl

@[simp] theorem complete_readByte (s : State) (a : Nat) : s.complete.readByte a = s.readByte a := rfl

@[simp] theorem recordError_readByte (s : State) (e : ErrorCode) (o : BitVec 8) (a : Nat) :
    (s.recordError e o).readByte a = s.readByte a := rfl

@[simp] theorem setBsBits_readByte (s : State) (st : Stream) (v : Word) (a : Nat) :
    (s.setBsBits st v).readByte a = s.readByte a := by cases st <;> rfl

/-! The canonical form. -/

theorem wf_iff (m : Memory) :
    m.wf = true ↔ m.Pairwise (fun c d => c.1 < d.1) ∧ ∀ c ∈ m, resetByte c.1 ≠ some c.2 := by
  simp [Memory.wf, List.pairwise_map]

theorem mem_insert_sub (m : Memory) (a : Nat) (v : Byte) (c : Host.Cell) (h : c ∈ m.insert a v) :
    c = (a, v) ∨ c ∈ m := by
  induction m with
  | nil => simpa [Memory.insert] using h
  | cons d m ih =>
    obtain ⟨k, w⟩ := d
    simp only [Memory.insert] at h
    split at h
    · simpa using h
    · split at h
      · rcases List.mem_cons.1 h with h | h
        · exact .inl h
        · exact .inr (by simp [h])
      · rcases List.mem_cons.1 h with h | h
        · exact .inr (by simp [h])
        · rcases ih h with h | h
          · exact .inl h
          · exact .inr (by simp [h])

theorem pairwise_insert (m : Memory) (a : Nat) (v : Byte) (h : m.Pairwise fun c d => c.1 < d.1) :
    (m.insert a v).Pairwise fun c d => c.1 < d.1 := by
  induction m with
  | nil => simp [Memory.insert]
  | cons d m ih =>
    obtain ⟨k, w⟩ := d
    obtain ⟨hk, hm⟩ := List.pairwise_cons.1 h
    simp only [Memory.insert]
    split
    · rename_i hlt
      refine List.pairwise_cons.2 ⟨?_, h⟩
      intro c hc
      rcases List.mem_cons.1 hc with rfl | hc
      · exact hlt
      · exact Nat.lt_trans hlt (hk c hc)
    · split
      · rename_i _ heq; subst heq
        exact List.pairwise_cons.2 ⟨hk, hm⟩
      · rename_i h1 h2
        refine List.pairwise_cons.2 ⟨?_, ih hm⟩
        intro c hc
        rcases mem_insert_sub m a v c hc with rfl | hc
        · exact Nat.lt_of_le_of_ne (Nat.le_of_not_lt h1) (Ne.symm h2)
        · exact hk c hc

/-- A write keeps the canonical form. -/
theorem wf_set (m : Memory) (a : Nat) (v : Byte) (h : m.wf = true) : (m.set a v).wf = true := by
  obtain ⟨hp, hr⟩ := (wf_iff m).1 h
  refine (wf_iff _).2 ?_
  unfold Memory.set
  split
  · exact ⟨hp.filter _, fun c hc => hr c (List.mem_of_mem_filter hc)⟩
  · rename_i hv
    refine ⟨pairwise_insert m a v hp, fun c hc => ?_⟩
    rcases mem_insert_sub m a v c hc with rfl | hc
    · exact hv
    · exact hr c hc

theorem wf_setAll (cells : List Host.Cell) (m : Memory) (h : m.wf = true) : (m.setAll cells).wf = true := by
  induction cells generalizing m with
  | nil => exact h
  | cons c cs ih => rw [setAll_cons]; exact ih _ (wf_set m c.1 c.2 h)

theorem mem_set_sub (m : Memory) (a : Nat) (v : Byte) (c : Host.Cell) (h : c ∈ m.set a v) : c = (a, v) ∨ c ∈ m := by
  unfold Memory.set at h
  split at h
  · exact .inr (List.mem_of_mem_filter h)
  · exact mem_insert_sub m a v c h

/-- Every entry after a list of writes is one of them or was there before. -/
theorem mem_setAll_sub (cells : List Host.Cell) (m : Memory) (c : Host.Cell) (h : c ∈ m.setAll cells) :
    c ∈ cells ∨ c ∈ m := by
  induction cells generalizing m with
  | nil => exact .inr h
  | cons d ds ih =>
    rw [setAll_cons] at h
    rcases ih _ h with h | h
    · exact .inl (by simp [h])
    · rcases mem_set_sub m d.1 d.2 c h with h | h
      · exact .inl (by rw [h]; simp)
      · exact .inr h

theorem lookup_eq_some_of_mem {m : Memory} (h : m.wf = true) {c : Host.Cell} (hc : c ∈ m) :
    m.lookup c.1 = some c.2 := by
  obtain ⟨hp, -⟩ := (wf_iff m).1 h
  clear h
  induction m with
  | nil => simp at hc
  | cons d m ih =>
    obtain ⟨hd, hm⟩ := List.pairwise_cons.1 hp
    rcases List.mem_cons.1 hc with rfl | hcm
    · obtain ⟨k, w⟩ := c; simp [Memory.lookup]
    · obtain ⟨k, w⟩ := d
      have := hd c hcm
      simp only at this
      have hk : k ≠ c.1 := by omega
      simp only [Memory.lookup, hk, if_false]
      exact ih hcm hm

theorem lookup_eq_reset_of_notMem {m : Memory} {a : Nat} (h : ∀ c ∈ m, c.1 ≠ a) : m.lookup a = resetByte a := by
  induction m with
  | nil => rfl
  | cons d m ih =>
    obtain ⟨k, w⟩ := d
    have hk : k ≠ a := h (k, w) (by simp)
    simp only [Memory.lookup, hk, if_false]
    exact ih fun c hc => h c (by simp [hc])

/-- A canonical memory lists exactly the addresses that do not hold what an unlisted address reads as. -/
theorem mem_iff_lookup {m : Memory} (h : m.wf = true) (c : Host.Cell) :
    c ∈ m ↔ m.lookup c.1 = some c.2 ∧ resetByte c.1 ≠ some c.2 := by
  constructor
  · intro hc
    exact ⟨lookup_eq_some_of_mem h hc, ((wf_iff m).1 h).2 c hc⟩
  · rintro ⟨h1, h2⟩
    by_cases hm : ∃ d ∈ m, d.1 = c.1
    · obtain ⟨d, hd, he⟩ := hm
      have := lookup_eq_some_of_mem h hd
      rw [he, h1] at this
      have hv : d = c := Prod.ext he (Option.some.inj this).symm
      exact hv ▸ hd
    · rw [lookup_eq_reset_of_notMem (fun d hd e => hm ⟨d, hd, e⟩)] at h1
      exact absurd h1 h2

/-- Canonical memories that read the same are the same list: equal memories are equal data. -/
theorem eq_of_lookup {m n : Memory} (hm : m.wf = true) (hn : n.wf = true) (h : ∀ a, m.lookup a = n.lookup a) :
    m = n := by
  have hp := ((wf_iff m).1 hm).1
  have hq := ((wf_iff n).1 hn).1
  refine List.Perm.eq_of_pairwise (le := fun c d => c.1 < d.1) ?_ hp hq ?_
  · intro a b _ _ h1 h2; omega
  · refine (List.perm_ext_iff_of_nodup ?_ ?_).2 fun c => ?_
    · exact hp.imp fun h e => by rw [e] at h; omega
    · exact hq.imp fun h e => by rw [e] at h; omega
    · rw [mem_iff_lookup hm, mem_iff_lookup hn, h]

end Sys2Proof.Machine
end

