-- ==== Sys2Proof/Laws/Elements.lean ====
section
/-! SUPPORT. Little-endian elements: what a list of element writes leaves in each element, and which bytes it leaves
alone (spec/20_memory.md R203, R204). -/

namespace Sys2Proof.Machine

theorem mem_cellsLE (a n v : Nat) (c : Host.Cell) :
    c ∈ cellsLE a n v ↔ ∃ j < n, c = (a + j, BitVec.ofNat 8 (v / 256 ^ j)) := by
  induction n generalizing a v with
  | zero => simp [cellsLE]
  | succ n ih =>
    simp only [cellsLE, List.mem_cons, ih]
    constructor
    · rintro (h | ⟨j, hj, h⟩)
      · exact ⟨0, by omega, by simpa using h⟩
      · refine ⟨j + 1, by omega, ?_⟩
        rw [h, Nat.div_div_eq_div_mul, Nat.pow_succ', Nat.add_right_comm, Nat.add_assoc]
    · rintro ⟨j, hj, h⟩
      cases j with
      | zero => exact .inl (by simpa using h)
      | succ j =>
        refine .inr ⟨j, by omega, ?_⟩
        rw [h, Nat.div_div_eq_div_mul, Nat.pow_succ', Nat.add_assoc, Nat.add_comm 1 j]

/-- `MemRead` of bytes that are those of v returns v mod 256^n. -/
theorem readLE_eq (s : State) (a n v : Nat)
    (h : ∀ j < n, s.readByte (a + j) = BitVec.ofNat 8 (v / 256 ^ j)) : s.readLE a n = v % 256 ^ n := by
  induction n generalizing a v with
  | zero => simp [State.readLE, Nat.mod_one]
  | succ n ih =>
    have h0 := h 0 (by omega)
    have hs := ih (a + 1) (v / 256) (fun j hj => by
      have := h (j + 1) (by omega)
      rw [show a + 1 + j = a + (j + 1) by omega, this, Nat.div_div_eq_div_mul, Nat.pow_succ'])
    have hb : (s.readByte a).toNat = v % 256 := by simpa using congrArg BitVec.toNat h0
    simp only [State.readLE]
    rw [hs, hb, Nat.pow_succ', Nat.mod_mul]

theorem readLE_lt (s : State) (a n : Nat) : s.readLE a n < 256 ^ n := by
  induction n generalizing a with
  | zero => simp [State.readLE]
  | succ n ih =>
    have h1 := ih (a + 1)
    have h2 := (s.readByte a).isLt
    simp only [State.readLE, Nat.pow_succ']
    omega

theorem readLE_congr {s t : State} {a : Nat} {n : Nat} (h : ∀ j < n, t.readByte (a + j) = s.readByte (a + j)) :
    t.readLE a n = s.readLE a n := by
  induction n generalizing a with
  | zero => rfl
  | succ n ih =>
    simp only [State.readLE]
    rw [ih (fun j hj => by rw [show a + 1 + j = a + (j + 1) by omega]; exact h (j + 1) (by omega))]
    rw [show t.readByte a = s.readByte a from h 0 (by omega)]

theorem elem16_congr {s t : State} {a : Nat} (h : ∀ j < 2, t.readByte (a + j) = s.readByte (a + j)) :
    t.elem16 a = s.elem16 a := by simp only [State.elem16, readLE_congr h]

theorem elem32_congr {s t : State} {a : Nat} (h : ∀ j < 4, t.readByte (a + j) = s.readByte (a + j)) :
    t.elem32 a = s.elem32 a := by simp only [State.elem32, readLE_congr h]

/-- Elements of n bytes at addresses that do not overlap: each byte of each is the one stored. -/
theorem readByte_storeElems {ι : Type} (s : State) (l : List ι) (addr val : ι → Nat) (n : Nat)
    (sep : ∀ x ∈ l, ∀ y ∈ l, addr x < addr y + n → addr y < addr x + n → x = y) (x : ι) (hx : x ∈ l) (j : Nat)
    (hj : j < n) :
    (s.storeCells (l.flatMap fun x => cellsLE (addr x) n (val x))).readByte (addr x + j)
      = BitVec.ofNat 8 (val x / 256 ^ j) := by
  apply readByte_storeCells_mem
  · exact List.mem_flatMap.2 ⟨x, hx, (mem_cellsLE _ _ _ _).2 ⟨j, hj, rfl⟩⟩
  · intro c hc hca
    obtain ⟨y, hy, hcy⟩ := List.mem_flatMap.1 hc
    obtain ⟨i, hi, rfl⟩ := (mem_cellsLE _ _ _ _).1 hcy
    simp only at hca
    have hxy : x = y := sep x hx y hy (by omega) (by omega)
    subst hxy
    have : i = j := by omega
    rw [this]

/-- The bytes outside every stored element are unchanged. -/
theorem readByte_storeElems_outside {ι : Type} (s : State) (l : List ι) (addr val : ι → Nat) (n a : Nat)
    (h : ∀ x ∈ l, a < addr x ∨ addr x + n ≤ a) :
    (s.storeCells (l.flatMap fun x => cellsLE (addr x) n (val x))).readByte a = s.readByte a := by
  apply readByte_storeCells_notMem
  intro c hc
  obtain ⟨y, hy, hcy⟩ := List.mem_flatMap.1 hc
  obtain ⟨i, hi, rfl⟩ := (mem_cellsLE _ _ _ _).1 hcy
  have := h y hy
  simp only; omega

theorem elem16_storeElems {ι : Type} (s : State) (l : List ι) (addr : ι → Nat) (val : ι → BitVec 16)
    (sep : ∀ x ∈ l, ∀ y ∈ l, addr x < addr y + 2 → addr y < addr x + 2 → x = y) (x : ι) (hx : x ∈ l) :
    (s.storeCells (l.flatMap fun x => cells16 (addr x) (val x))).elem16 (addr x) = val x := by
  have h := readLE_eq (s.storeCells (l.flatMap fun x => cells16 (addr x) (val x))) (addr x) 2 (val x).toNat
    (fun j hj => readByte_storeElems s l addr (fun x => (val x).toNat) 2 sep x hx j hj)
  apply BitVec.eq_of_toNat_eq
  simp only [State.elem16, h, BitVec.toNat_ofNat]
  have := (val x).isLt
  omega

theorem elem32_storeElems {ι : Type} (s : State) (l : List ι) (addr : ι → Nat) (val : ι → Word)
    (sep : ∀ x ∈ l, ∀ y ∈ l, addr x < addr y + 4 → addr y < addr x + 4 → x = y) (x : ι) (hx : x ∈ l) :
    (s.storeCells (l.flatMap fun x => cells32 (addr x) (val x))).elem32 (addr x) = val x := by
  have h := readLE_eq (s.storeCells (l.flatMap fun x => cells32 (addr x) (val x))) (addr x) 4 (val x).toNat
    (fun j hj => readByte_storeElems s l addr (fun x => (val x).toNat) 4 sep x hx j hj)
  apply BitVec.eq_of_toNat_eq
  simp only [State.elem32, h, BitVec.toNat_ofNat]
  have := (val x).isLt
  omega

/-- Single bytes at distinct addresses. -/
theorem readByte_storeBytes {ι : Type} (s : State) (l : List ι) (addr : ι → Nat) (val : ι → Byte)
    (sep : ∀ x ∈ l, ∀ y ∈ l, addr x = addr y → x = y) (x : ι) (hx : x ∈ l) :
    (s.storeCells (l.map fun x => (addr x, val x))).readByte (addr x) = val x := by
  apply readByte_storeCells_mem
  · exact List.mem_map.2 ⟨x, hx, rfl⟩
  · intro c hc hca
    obtain ⟨y, hy, rfl⟩ := List.mem_map.1 hc
    rw [sep x hx y hy hca.symm]

theorem readByte_storeBytes_outside {ι : Type} (s : State) (l : List ι) (addr : ι → Nat) (val : ι → Byte) (a : Nat)
    (h : ∀ x ∈ l, addr x ≠ a) : (s.storeCells (l.map fun x => (addr x, val x))).readByte a = s.readByte a := by
  apply readByte_storeCells_notMem
  intro c hc
  obtain ⟨y, hy, rfl⟩ := List.mem_map.1 hc
  exact h y hy

theorem readByte_zeroCells (s : State) (a n b : Nat) (h1 : a ≤ b) (h2 : b < a + n) :
    (s.storeCells (zeroCells a n)).readByte b = 0 := by
  have := readByte_storeBytes s (List.range n) (fun i => a + i) (fun _ => 0) (by intros; omega) (b - a)
    (List.mem_range.2 (by omega))
  simpa [zeroCells, show a + (b - a) = b by omega] using this

theorem readByte_zeroCells_outside (s : State) (a n b : Nat) (h : b < a ∨ a + n ≤ b) :
    (s.storeCells (zeroCells a n)).readByte b = s.readByte b := by
  apply readByte_storeBytes_outside
  intro i hi
  have := List.mem_range.1 hi
  omega

theorem mem_rowsCols (h w : Nat) (p : Nat × Nat) : p ∈ rowsCols h w ↔ p.1 < h ∧ p.2 < w := by
  obtain ⟨r, c⟩ := p
  simp [rowsCols]

/-! The coefficient blocks. -/

theorem coefAddr_sep (k : Nat) : ∀ x ∈ List.finRange 64, ∀ y ∈ List.finRange 64,
    coefAddr k x.val < coefAddr k y.val + 4 → coefAddr k y.val < coefAddr k x.val + 4 → x = y := by
  intro x _ y _ h1 h2
  simp only [coefAddr] at h1 h2
  exact Fin.ext (by omega)

/-- What `setCoef` leaves in an element of the block. -/
theorem elem32_setCoef (s : State) (k : Nat) (b : Block) (i : Fin 64) :
    (s.setCoef k b).elem32 (coefAddr k i.val) = low32 b[i] :=
  elem32_storeElems s (List.finRange 64) (fun i => coefAddr k i.val) (fun i => low32 b[i]) (coefAddr_sep k) i
    (List.mem_finRange i)

/-- The bytes outside the block are unchanged. -/
theorem readByte_setCoef_outside (s : State) (k : Nat) (b : Block) (a : Nat)
    (h : a < coefBase + 256 * k ∨ coefBase + 256 * k + 256 ≤ a) : (s.setCoef k b).readByte a = s.readByte a := by
  apply readByte_storeElems_outside s (List.finRange 64) (fun i => coefAddr k i.val) (fun i => (low32 b[i]).toNat) 4
  intro i _
  have := i.isLt
  simp only [coefAddr]; omega

theorem toInt_low32 {v : Int} (h : -2147483648 ≤ v ∧ v ≤ 2147483647) : (low32 v).toInt = v :=
  BitVec.toInt_ofInt_eq_self (by decide) (by simpa using h.1) (by have := h.2; norm_num; omega)

theorem toInt_low16 {v : Int} (h : -32768 ≤ v ∧ v ≤ 32767) : (low16 v).toInt = v :=
  BitVec.toInt_ofInt_eq_self (by decide) (by simpa using h.1) (by have := h.2; norm_num; omega)

/-- A block whose elements fit 32 bits signed reads back as it was written. -/
theorem coefBlock_setCoef (s : State) (k : Nat) (b : Block)
    (hb : ∀ i : Fin 64, -2147483648 ≤ b[i] ∧ b[i] ≤ 2147483647) : (s.setCoef k b).coefBlock k = b := by
  apply Vector.ext
  intro i hi
  have h := elem32_setCoef s k b ⟨i, hi⟩
  have hb' := hb ⟨i, hi⟩
  simp only [State.coefBlock, Vector.getElem_ofFn, h]
  exact toInt_low32 hb'

/-- Another block is unchanged. -/
theorem coefBlock_setCoef_other (s : State) {k k' : Nat} (b : Block) (h : k' ≠ k) :
    (s.setCoef k b).coefBlock k' = s.coefBlock k' := by
  apply Vector.ext
  intro i hi
  simp only [State.coefBlock, Vector.getElem_ofFn]
  refine congrArg BitVec.toInt (elem32_congr fun j hj => readByte_setCoef_outside s k b _ ?_)
  simp only [coefAddr]
  omega

end Sys2Proof.Machine
end

