-- ==== Sys2Proof/Laws/Run.lean ====
section
/-! SUPPORT. How a command runs: `Run.andThen`, `Run.forEach` and `Run.finish`, each with what it can do, and the one
equation of all commands: exec is the end of a run under the command's opcode. -/

namespace Sys2Proof.Machine

@[simp] theorem andThen_ok (s : State) (f : State → Run) : (Run.ok s).andThen f = f s := rfl

@[simp] theorem andThen_error (s : State) (e : ErrorCode) (f : State → Run) :
    (Run.error s e).andThen f = .error s e := rfl

@[simp] theorem state_ok (s : State) : (Run.ok s).state = s := rfl

@[simp] theorem state_error (s : State) (e : ErrorCode) : (Run.error s e).state = s := rfl

theorem andThen_assoc (r : Run) (f g : State → Run) : (r.andThen f).andThen g = r.andThen fun s => (f s).andThen g := by
  cases r <;> rfl

/-- What `andThen` can do. -/
theorem andThen_cases (r : Run) (f : State → Run) :
    (∃ s, r = .ok s ∧ r.andThen f = f s) ∨ ∃ s e, r = .error s e ∧ r.andThen f = .error s e := by
  cases r with
  | ok s => exact .inl ⟨s, rfl, rfl⟩
  | error s e => exact .inr ⟨s, e, rfl, rfl⟩

theorem andThen_eq_ok {r : Run} {f : State → Run} {t : State} :
    r.andThen f = .ok t ↔ ∃ s, r = .ok s ∧ f s = .ok t := by
  cases r <;> simp

@[simp] theorem forEach_nil {α : Type} (f : α → State → Run) (s : State) : Run.forEach f [] s = .ok s := rfl

@[simp] theorem forEach_cons {α : Type} (f : α → State → Run) (x : α) (xs : List α) (s : State) :
    Run.forEach f (x :: xs) s = (f x s).andThen (Run.forEach f xs) := rfl

theorem forEach_append {α : Type} (f : α → State → Run) (xs ys : List α) (s : State) :
    Run.forEach f (xs ++ ys) s = (Run.forEach f xs s).andThen (Run.forEach f ys) := by
  induction xs generalizing s with
  | nil => rfl
  | cons x xs ih =>
    simp only [List.cons_append, forEach_cons, andThen_assoc]
    exact congrArg _ (funext fun t => ih t)

/-- A relation that every part keeps, a sequence of two parts keeps. -/
theorem andThen_keeps {R : State → State → Prop} (trans : ∀ a b c, R a b → R b c → R a c) {s : State} {r : Run}
    {f : State → Run} (hr : R s r.state) (hf : ∀ t, R t (f t).state) : R s (r.andThen f).state := by
  cases r with
  | ok t => exact trans _ _ _ hr (hf t)
  | error t e => exact hr

/-- A relation that every part keeps, the whole loop keeps. -/
theorem forEach_keeps {α : Type} {R : State → State → Prop} (refl : ∀ a, R a a)
    (trans : ∀ a b c, R a b → R b c → R a c) {f : α → State → Run} (hf : ∀ x t, R t (f x t).state) (xs : List α)
    (s : State) : R s (Run.forEach f xs s).state := by
  induction xs generalizing s with
  | nil => exact refl s
  | cons x xs ih => exact andThen_keeps trans (hf x s) ih

/-- Every error of the loop is one of a part. -/
theorem forEach_error {α : Type} {P : ErrorCode → Prop} {f : α → State → Run}
    (hf : ∀ x t u e, f x t = .error u e → P e) (xs : List α) (s u : State) (e : ErrorCode)
    (h : Run.forEach f xs s = .error u e) : P e := by
  induction xs generalizing s with
  | nil => simp at h
  | cons x xs ih =>
    rw [forEach_cons] at h
    rcases hx : f x s with t | ⟨t, e'⟩
    · rw [hx] at h; exact ih t h
    · rw [hx] at h
      simp only [andThen_error, Run.error.injEq] at h
      exact h.2 ▸ hf x s t e' hx

@[simp] theorem finish_ok (opc : BitVec 8) (s : State) : Run.finish opc (.ok s) = .next s.complete := rfl

@[simp] theorem finish_error (opc : BitVec 8) (s : State) (e : ErrorCode) :
    Run.finish opc (.error s e) = .next (s.recordError e opc).complete := rfl

/-- The run of a command, before its end. -/
def runInstr (i : Instr) (s : State) : Run :=
  match i with
  | .nop => .ok s
  | .init => runInit s
  | .mbView sel => runMbView sel s
  | .loadSrc sel => runLoadSrc sel s
  | .storeRef => runStoreRef s
  | .meFull => runMeFull s
  | .meDiamond => runMeDiamond s
  | .mcBlock sel => runMcBlock sel s
  | .mcFrame => runMcFrame s
  | .residual => runResidual s
  | .loadBlk sel => runLoadBlk sel s
  | .zeroBlk sel => runZeroBlk sel s
  | .fdct8 sel => runFdct8 sel s
  | .idct8 sel => runIdct8 sel s
  | .fdct16 => runFdct16 s
  | .idct16 => runIdct16 s
  | .qpScale => runQpScale s
  | .quant sel => runQuant sel s
  | .dequant sel => runDequant sel s
  | .encBlock sel st => runEncBlock sel st s
  | .encMv st => runEncMv st s
  | .encMb st => runEncMb st s
  | .bsClear st => runBsClear st s
  | .bsWriteBits st => runBsWriteBits st s
  | .bsWriteByte st => runBsWriteByte st s
  | .bsFlush st => runBsFlush st s
  | .rcFrameType => runRcFrameType s
  | .rcChooseQp => runRcChooseQp s
  | .encodeFrame => runEncodeFrame s

/-- Every command is a run and its end. -/
theorem exec_eq (i : Instr) (s : State) : exec i s = Run.finish i.opcode (runInstr i s) := by cases i <;> rfl

/-- What `withPlane` can do. -/
theorem withPlane_cases (sel : BitVec 4) (s : State) (f : Plane → Run) :
    (∃ p, planeOfSel sel = some p ∧ selIsPlane sel = true ∧ withPlane sel s f = f p)
      ∨ (planeOfSel sel = none ∧ selIsPlane sel = false ∧ withPlane sel s f = .error s .illegalCmd) := by
  have h : ∀ x : BitVec 4, (planeOfSel x).isSome = selIsPlane x := by decide
  unfold withPlane
  rcases hp : planeOfSel sel with _ | p
  · exact .inr ⟨rfl, by rw [← h, hp]; rfl, rfl⟩
  · exact .inl ⟨p, rfl, by rw [← h, hp]; rfl, rfl⟩

/-- What `withBlock` can do. -/
theorem withBlock_cases (sel : BitVec 4) (s : State) (f : Nat → Run) :
    (sel.toNat ≤ 5 ∧ selIsBlock sel = true ∧ withBlock sel s f = f sel.toNat)
      ∨ (5 < sel.toNat ∧ selIsBlock sel = false ∧ withBlock sel s f = .error s .illegalCmd) := by
  unfold withBlock blockOfSel
  by_cases h : sel.toNat ≤ 5
  · have hb : selIsBlock sel = true := by simpa [selIsBlock] using h
    exact .inl ⟨h, hb, by simp [hb]⟩
  · have hb : selIsBlock sel = false := by simpa [selIsBlock] using h
    exact .inr ⟨by omega, hb, by simp [hb]⟩

/-- What `withGeometry` can do. -/
theorem withGeometry_cases (s : State) (f : Run) :
    (s.geomValid = true ∧ withGeometry s f = f) ∨ (s.geomValid = false ∧ withGeometry s f = .error s .noGeometry) := by
  unfold withGeometry
  cases s.geomValid <;> simp

end Sys2Proof.Machine
end

