-- ==== Sys2Proof/Laws/Frame.lean ====
section
/-! SUPPORT. What no command changes, up to its end: the control fields (`SameControl`); what only INIT changes
(`SameGeometry`); and what a command that stores nothing keeps. -/

namespace Sys2Proof.Machine

/-- The fields no command changes before its end: CTRL, the STATUS record, LAST_CMD, the running command, CFG, ARG, the
parameters, and the model's own fields; and the memory changes by writes only. -/
structure SameControl (s t : State) : Prop where
  ctrl : t.ctrl = s.ctrl
  done : t.done = s.done
  err : t.err = s.err
  errCode : t.errCode = s.errCode
  errOpc : t.errOpc = s.errOpc
  lastCmd : t.lastCmd = s.lastCmd
  running : t.running = s.running
  cfg : t.cfg = s.cfg
  args : t.args = s.args
  params : t.params = s.params
  rst : t.rst = s.rst
  epoch : t.epoch = s.epoch
  schedule : t.schedule = s.schedule
  responses : t.responses = s.responses
  memory : ∃ cells, t.mem = s.mem.setAll cells

/-- The fields no command but INIT changes before its end. -/
structure SameGeometry (s t : State) : Prop extends SameControl s t where
  geomValid : t.geomValid = s.geomValid
  geom : t.geom = s.geom

theorem SameControl.refl (s : State) : SameControl s s :=
  ⟨rfl, rfl, rfl, rfl, rfl, rfl, rfl, rfl, rfl, rfl, rfl, rfl, rfl, rfl, [], rfl⟩

theorem SameControl.trans {s t u : State} (h : SameControl s t) (k : SameControl t u) : SameControl s u :=
  ⟨k.ctrl.trans h.ctrl, k.done.trans h.done, k.err.trans h.err, k.errCode.trans h.errCode, k.errOpc.trans h.errOpc,
    k.lastCmd.trans h.lastCmd, k.running.trans h.running, k.cfg.trans h.cfg, k.args.trans h.args,
    k.params.trans h.params, k.rst.trans h.rst, k.epoch.trans h.epoch, k.schedule.trans h.schedule,
    k.responses.trans h.responses, by
      obtain ⟨cs, hc⟩ := h.memory
      obtain ⟨ds, hd⟩ := k.memory
      exact ⟨cs ++ ds, by rw [hd, hc, setAll_append]⟩⟩

/-- The memory stays in canonical form. -/
theorem SameControl.wf {s t : State} (h : SameControl s t) (hs : s.mem.wf = true) : t.mem.wf = true := by
  obtain ⟨cells, hc⟩ := h.memory
  exact hc ▸ wf_setAll cells s.mem hs

theorem SameGeometry.refl (s : State) : SameGeometry s s := ⟨SameControl.refl s, rfl, rfl⟩

theorem SameGeometry.trans {s t u : State} (h : SameGeometry s t) (k : SameGeometry t u) : SameGeometry s u :=
  ⟨h.toSameControl.trans k.toSameControl, k.geomValid.trans h.geomValid, k.geom.trans h.geom⟩

/-- An update of the other fields. -/
theorem update_sameGeometry (s : State) (refValid : Bool) (res : Vector Word 8) (rc : RateControl) (bs0 bs1 : Word)
    (fr : FrameResult) (cells : List Host.Cell) :
    SameGeometry s { s with
      refValid := refValid, res := res, rc := rc, bs0Bits := bs0, bs1Bits := bs1, fr := fr,
      mem := s.mem.setAll cells } :=
  ⟨⟨rfl, rfl, rfl, rfl, rfl, rfl, rfl, rfl, rfl, rfl, rfl, rfl, rfl, rfl, cells, rfl⟩, rfl, rfl⟩

theorem storeCells_sameGeometry (s : State) (cells : List Host.Cell) : SameGeometry s (s.storeCells cells) :=
  update_sameGeometry s _ _ _ _ _ _ _

theorem setRes_sameGeometry (s : State) (n : Fin 8) (v : Word) : SameGeometry s (s.setRes n v) :=
  update_sameGeometry s _ _ _ _ _ _ []

theorem storeRef_sameGeometry (s : State) : SameGeometry s (storeRef s) := update_sameGeometry s _ _ _ _ _ _ _

theorem setMotion_sameGeometry (s : State) (m : Motion) : SameGeometry s (setMotion s m) :=
  update_sameGeometry s _ _ _ _ _ _ []

theorem mbViewResults_sameGeometry (s : State) (p : Plane) : SameGeometry s (mbViewResults s p) :=
  ((((((setRes_sameGeometry s _ _).trans (setRes_sameGeometry _ _ _)).trans (setRes_sameGeometry _ _ _)).trans
    (setRes_sameGeometry _ _ _)).trans (setRes_sameGeometry _ _ _)).trans (setRes_sameGeometry _ _ _)).trans
    (setRes_sameGeometry _ _ _)

theorem setMv_sameGeometry (s : State) (i : Nat) (dx dy : Int) : SameGeometry s (setMv s i dx dy) :=
  storeCells_sameGeometry s _

/-- An update that changes the geometry too. -/
theorem update_sameControl (s : State) (refValid geomValid : Bool) (geom : Geometry) (rc : RateControl) (bs0 bs1 : Word)
    (fr : FrameResult) (cells : List Host.Cell) :
    SameControl s { s with
      refValid := refValid, geomValid := geomValid, geom := geom, rc := rc, bs0Bits := bs0, bs1Bits := bs1, fr := fr,
      mem := s.mem.setAll cells } :=
  ⟨rfl, rfl, rfl, rfl, rfl, rfl, rfl, rfl, rfl, rfl, rfl, rfl, rfl, rfl, cells, rfl⟩

theorem initFailed_sameControl (s : State) : SameControl s (initFailed s) := update_sameControl s _ _ _ _ _ _ _ []

theorem initDone_sameControl (s : State) (w h : Nat) : SameControl s (initDone s w h) := by
  unfold initDone
  generalize initCells w h = cells
  exact update_sameControl s _ _ _ _ _ _ _ cells

theorem setBsBits_sameGeometry (s : State) (st : Stream) (v : Word) : SameGeometry s (s.setBsBits st v) := by
  cases st <;> exact update_sameGeometry s _ _ _ _ _ _ []

theorem putBits_sameGeometry (s : State) (st : Stream) (p : Nat) (v : Word) (i n : Nat) :
    SameGeometry s (s.putBits st p v i n) := by
  induction n generalizing s p i with
  | zero => exact SameGeometry.refl s
  | succ n ih => exact (storeCells_sameGeometry s _).trans (ih _ _ _)

theorem emit_sameGeometry (st : Stream) (f : Field) (s : State) : SameGeometry s (emit st f s).state := by
  unfold emit
  simp only
  split
  · exact SameGeometry.refl s
  · exact ((storeCells_sameGeometry s _).trans (putBits_sameGeometry _ st _ _ _ _)).trans
      (setBsBits_sameGeometry _ st _)

theorem emitAll_sameGeometry (st : Stream) (fs : List Field) (s : State) : SameGeometry s (emitAll st fs s).state :=
  forEach_keeps SameGeometry.refl (fun _ _ _ => SameGeometry.trans) (fun f t => emit_sameGeometry st f t) fs s

theorem align_sameGeometry (st : Stream) (s : State) : SameGeometry s (align st s).state := by
  unfold align
  simp only
  split
  · exact SameGeometry.refl s
  · exact emit_sameGeometry st _ s

theorem codeStagedBlock_sameGeometry (scale k : Nat) (s : State) :
    SameGeometry s (codeStagedBlock scale k s).state :=
  ((storeCells_sameGeometry s _).trans ((storeCells_sameGeometry _ _).trans (storeCells_sameGeometry _ _))).trans
    (emitAll_sameGeometry .stream1 _ _)

theorem codeZeroBlock_sameGeometry (k : Nat) (s : State) : SameGeometry s (codeZeroBlock k s).state :=
  (storeCells_sameGeometry s _).trans (emitAll_sameGeometry .stream1 _ _)

theorem encodeIntraMb_sameGeometry (scale : Nat) (mb : Nat × Nat) (s : State) :
    SameGeometry s (encodeIntraMb scale mb s).state :=
  ((storeCells_sameGeometry s _).trans ((storeCells_sameGeometry _ _).trans (storeCells_sameGeometry _ _))).trans
    (forEach_keeps SameGeometry.refl (fun _ _ _ => SameGeometry.trans)
      (fun k t => codeStagedBlock_sameGeometry scale k t) _ _)

theorem encodePredictedMb_sameGeometry (diamond : Bool) (scale range : Nat) (mb : Nat × Nat) (s : State) :
    SameGeometry s (encodePredictedMb diamond scale range mb s).state := by
  unfold encodePredictedMb
  simp only
  refine andThen_keeps (R := SameGeometry) (fun _ _ _ => SameGeometry.trans)
    ((setMv_sameGeometry s _ _ _).trans (emitAll_sameGeometry .stream0 _ _)) fun t => ?_
  refine andThen_keeps (R := SameGeometry) (fun _ _ _ => SameGeometry.trans) ?_ fun u =>
    forEach_keeps SameGeometry.refl (fun _ _ _ => SameGeometry.trans)
      (fun k t => codeZeroBlock_sameGeometry k t) _ _
  exact ((storeCells_sameGeometry t _).trans (storeCells_sameGeometry _ _)).trans
    (forEach_keeps SameGeometry.refl (fun _ _ _ => SameGeometry.trans)
      (fun k t => codeStagedBlock_sameGeometry scale k t) _ _)

theorem encodeMbs_sameGeometry (t : FrameType) (diamond : Bool) (scale range : Nat) (s : State) :
    SameGeometry s (encodeMbs t diamond scale range s).state := by
  cases t
  · exact forEach_keeps SameGeometry.refl (fun _ _ _ => SameGeometry.trans)
      (fun mb t => encodeIntraMb_sameGeometry scale mb t) _ _
  · exact forEach_keeps SameGeometry.refl (fun _ _ _ => SameGeometry.trans)
      (fun mb t => encodePredictedMb_sameGeometry diamond scale range mb t) _ _

theorem commitFrame_sameGeometry (t : FrameType) (s : State) : SameGeometry s (commitFrame t s) :=
  (((((storeRef_sameGeometry s).trans (update_sameGeometry (storeRef s) _ _ _ _ _ _ [])).trans
    (setRes_sameGeometry _ _ _)).trans (setRes_sameGeometry _ _ _)).trans (setRes_sameGeometry _ _ _)).trans
    (setRes_sameGeometry _ _ _)

theorem encodeFrameBody_sameGeometry (t : FrameType) (s : State) : SameGeometry s (encodeFrameBody t s).state := by
  have tr : ∀ a b c, SameGeometry a b → SameGeometry b c → SameGeometry a c := fun _ _ _ => SameGeometry.trans
  refine andThen_keeps tr (andThen_keeps tr (andThen_keeps tr ?_ fun u => align_sameGeometry .stream0 u) fun u =>
    align_sameGeometry .stream1 u) fun u => commitFrame_sameGeometry t u
  exact ((setBsBits_sameGeometry s .stream0 0).trans (setBsBits_sameGeometry _ .stream1 0)).trans
    (encodeMbs_sameGeometry t _ _ _ _)

/-- No command but INIT changes the control fields or the geometry before its end. -/
theorem runInstr_sameGeometry (i : Instr) (s : State) (h : i ≠ .init) : SameGeometry s (runInstr i s).state := by
  have plane : ∀ (sel : BitVec 4) (f : Plane → Run), (∀ p, SameGeometry s (f p).state) →
      SameGeometry s (withPlane sel s f).state := fun sel f hf => by
    rcases withPlane_cases sel s f with ⟨p, -, -, e⟩ | ⟨-, -, e⟩ <;> rw [e]
    · exact hf p
    · exact SameGeometry.refl s
  have block : ∀ (sel : BitVec 4) (f : Nat → Run), (∀ k, SameGeometry s (f k).state) →
      SameGeometry s (withBlock sel s f).state := fun sel f hf => by
    rcases withBlock_cases sel s f with ⟨-, -, e⟩ | ⟨-, -, e⟩ <;> rw [e]
    · exact hf _
    · exact SameGeometry.refl s
  have geom : ∀ r : Run, SameGeometry s r.state → SameGeometry s (withGeometry s r).state := fun r hr => by
    rcases withGeometry_cases s r with ⟨-, e⟩ | ⟨-, e⟩ <;> rw [e]
    · exact hr
    · exact SameGeometry.refl s
  have tr : ∀ a b c, SameGeometry a b → SameGeometry b c → SameGeometry a c := fun _ _ _ => SameGeometry.trans
  cases i with
  | init => exact absurd rfl h
  | nop => exact SameGeometry.refl s
  | mbView sel => exact plane sel _ fun p => geom _ (mbViewResults_sameGeometry s p)
  | loadSrc sel => exact plane sel _ fun p => geom _ (storeCells_sameGeometry s _)
  | storeRef => exact geom _ (storeRef_sameGeometry s)
  | meFull => exact geom _ (setMotion_sameGeometry s _)
  | meDiamond => exact geom _ (setMotion_sameGeometry s _)
  | mcBlock sel => exact plane sel _ fun p => geom _ (storeCells_sameGeometry s _)
  | mcFrame => exact geom _ (storeCells_sameGeometry s _)
  | residual => exact geom _ (storeCells_sameGeometry s _)
  | loadBlk sel => exact block sel _ fun k => storeCells_sameGeometry s _
  | zeroBlk sel => exact block sel _ fun k => storeCells_sameGeometry s _
  | fdct8 sel => exact block sel _ fun k => storeCells_sameGeometry s _
  | idct8 sel => exact block sel _ fun k => storeCells_sameGeometry s _
  | fdct16 =>
    exact (((storeCells_sameGeometry s _).trans (storeCells_sameGeometry _ _)).trans (storeCells_sameGeometry _ _)).trans
      (storeCells_sameGeometry _ _)
  | idct16 =>
    exact (((storeCells_sameGeometry s _).trans (storeCells_sameGeometry _ _)).trans (storeCells_sameGeometry _ _)).trans
      (storeCells_sameGeometry _ _)
  | qpScale => exact setRes_sameGeometry s _ _
  | quant sel => exact block sel _ fun k => storeCells_sameGeometry s _
  | dequant sel => exact block sel _ fun k => storeCells_sameGeometry s _
  | encBlock sel st =>
    exact block sel _ fun k => andThen_keeps tr (emitAll_sameGeometry st _ s) fun t => setRes_sameGeometry t _ _
  | encMv st => exact andThen_keeps tr (emitAll_sameGeometry st _ s) fun t => setRes_sameGeometry t _ _
  | encMb st => exact andThen_keeps tr (emitAll_sameGeometry st _ s) fun t => setRes_sameGeometry t _ _
  | bsClear st => exact setBsBits_sameGeometry s st 0
  | bsWriteBits st =>
    show SameGeometry s (runBsWriteBits st s).state
    unfold runBsWriteBits
    simp only
    split
    · exact SameGeometry.refl s
    · exact emit_sameGeometry st _ s
  | bsWriteByte st => exact andThen_keeps tr (align_sameGeometry st s) fun t => emit_sameGeometry st _ t
  | bsFlush st => exact align_sameGeometry st s
  | rcFrameType => exact setRes_sameGeometry s _ _
  | rcChooseQp => exact update_sameGeometry s _ _ _ _ _ _ []
  | encodeFrame =>
    refine geom _ ?_
    split
    · exact SameGeometry.refl s
    · exact encodeFrameBody_sameGeometry _ s

/-- No command changes the control fields before its end. -/
theorem runInstr_sameControl (i : Instr) (s : State) : SameControl s (runInstr i s).state := by
  by_cases h : i = .init
  · subst h
    show SameControl s (runInit s).state
    unfold runInit
    split
    · exact initDone_sameControl s _ _
    · exact initFailed_sameControl s
  · exact (runInstr_sameGeometry i s h).toSameControl

end Sys2Proof.Machine
end

