-- ==== Sys2Proof/Laws/Bitstream.lean ====
section
/-! SUPPORT. Stream bits: what one bit write leaves, what `emit`, `emitAll` and `align` can do. -/

namespace Sys2Proof.Machine

theorem byteWithBit_getLsbD (x : Byte) (i j : Nat) (b : Bool) (hi : i < 8) (hj : j < 8) :
    (byteWithBit x i b).getLsbD j = if j = i then b else x.getLsbD j := by
  have h : ∀ (x : Byte) (i j : Fin 8) (b : Bool),
      (byteWithBit x i.val b).getLsbD j.val = if j = i then b else x.getLsbD j.val := by
    intro x i j b
    unfold byteWithBit
    cases b <;>
    · simp only [Bool.false_eq_true, if_false, if_true, BitVec.getLsbD_or, BitVec.getLsbD_and, BitVec.getLsbD_not,
        BitVec.getLsbD_shiftLeft, BitVec.getLsbD_one, j.isLt, Fin.ext_iff]
      by_cases hji : j.val = i.val
      · simp [hji]
      · by_cases hlt : j.val < i.val
        · simp [hji, hlt]
        · have : j.val - i.val ≠ 0 := by omega
          simp [hji, this]
  simpa [Fin.ext_iff] using h x ⟨i, hi⟩ ⟨j, hj⟩ b

theorem readByte_setStreamBit (s : State) (st : Stream) (p : Nat) (b : Bool) (a : Nat)
    (h : a ≠ streamBase st + p / 8) : (s.setStreamBit st p b).readByte a = s.readByte a :=
  readByte_storeCells_notMem s _ a (by simpa using Ne.symm h)

/-- A bit write leaves its bit, and every other bit of the stream alone. -/
theorem streamBit_setStreamBit (s : State) (st : Stream) (p q : Nat) (b : Bool) :
    (s.setStreamBit st p b).streamBit st q = if q = p then b else s.streamBit st q := by
  unfold State.streamBit
  by_cases hq : q / 8 = p / 8
  · have : (s.setStreamBit st p b).readByte (streamBase st + q / 8)
        = byteWithBit (s.readByte (streamBase st + p / 8)) (p % 8) b := by
      rw [hq]
      exact readByte_storeCells_mem s _ _ _ (by simp) (by simp)
    rw [this, byteWithBit_getLsbD _ _ _ _ (by omega) (by omega), hq]
    by_cases h : q = p
    · simp [h]
    · have : q % 8 ≠ p % 8 := by omega
      simp [h, this]
  · rw [readByte_setStreamBit s st p b _ (by omega)]
    have : q ≠ p := fun h => hq (by rw [h])
    simp [this]

theorem streamBit_congr {s t : State} (st : Stream) {p : Nat}
    (h : t.readByte (streamBase st + p / 8) = s.readByte (streamBase st + p / 8)) :
    t.streamBit st p = s.streamBit st p := by
  unfold State.streamBit; rw [h]

@[simp] theorem setBsBits_streamBit (s : State) (st st' : Stream) (v : Word) (p : Nat) :
    (s.setBsBits st v).streamBit st' p = s.streamBit st' p := by
  unfold State.streamBit; rw [setBsBits_readByte]

@[simp] theorem setRes_streamBit (s : State) (n : Fin 8) (v : Word) (st : Stream) (p : Nat) :
    (s.setRes n v).streamBit st p = s.streamBit st p := rfl

@[simp] theorem complete_streamBit (s : State) (st : Stream) (p : Nat) :
    s.complete.streamBit st p = s.streamBit st p := rfl

@[simp] theorem recordError_streamBit (s : State) (e : ErrorCode) (o : BitVec 8) (st : Stream) (p : Nat) :
    (s.recordError e o).streamBit st p = s.streamBit st p := rfl

/-- `putBits` is a list of byte writes. -/
theorem putBits_eq (s : State) (st : Stream) (p : Nat) (v : Word) (i n : Nat) :
    ∃ cells, s.putBits st p v i n = s.storeCells cells := by
  induction n generalizing s p i with
  | zero => exact ⟨[], rfl⟩
  | succ n ih =>
    obtain ⟨cells, h⟩ := ih (s.setStreamBit st p (v.getLsbD i)) (p + 1) (i + 1)
    exact ⟨_, by rw [State.putBits, h]; exact (storeCells_append s _ cells).symm⟩

/-- The bits of a field land at their positions, and every other bit of the stream stays. -/
theorem streamBit_putBits (s : State) (st : Stream) (p : Nat) (v : Word) (i n q : Nat) :
    (s.putBits st p v i n).streamBit st q = if p ≤ q ∧ q < p + n then v.getLsbD (i + (q - p)) else s.streamBit st q := by
  induction n generalizing s p i with
  | zero =>
    have : ¬ (p ≤ q ∧ q < p + 0) := by omega
    rw [if_neg this]; rfl
  | succ n ih =>
    rw [State.putBits, ih, streamBit_setStreamBit]
    by_cases h : q = p
    · subst h
      have h1 : ¬ (q + 1 ≤ q ∧ q < q + 1 + n) := by omega
      have h2 : q ≤ q ∧ q < q + (n + 1) := by omega
      rw [if_neg h1, if_pos h2]; simp
    · by_cases h2 : p ≤ q ∧ q < p + (n + 1)
      · have h1 : p + 1 ≤ q ∧ q < p + 1 + n := by omega
        rw [if_pos h1, if_pos h2]; congr 1; omega
      · have h1 : ¬ (p + 1 ≤ q ∧ q < p + 1 + n) := by omega
        rw [if_neg h1, if_neg h2, if_neg h]

/-- The bytes outside the field's are unchanged. -/
theorem readByte_putBits_outside (s : State) (st : Stream) (p : Nat) (v : Word) (i n a : Nat)
    (h : a < streamBase st + p / 8 ∨ streamBase st + (p + n + 7) / 8 ≤ a) :
    (s.putBits st p v i n).readByte a = s.readByte a := by
  induction n generalizing s p i with
  | zero => rfl
  | succ n ih => rw [State.putBits, ih _ _ _ (by omega), readByte_setStreamBit _ _ _ _ _ (by omega)]

theorem bsBytes_eq (s : State) (st : Stream) : s.bsBytes st = ((s.bsBits st).toNat + 7) / 8 := rfl

theorem ceilDiv_eight (n : Nat) : ceilDiv n 8 = (n + 7) / 8 := rfl

/-- The buffer extension zeroes the new bytes and leaves the others alone. -/
theorem readByte_extendStream (s : State) (st : Stream) (bytes a : Nat) :
    (s.extendStream st bytes).readByte a
      = if streamBase st + s.bsBytes st ≤ a ∧ a < streamBase st + bytes then 0 else s.readByte a := by
  unfold State.extendStream
  split
  · exact readByte_zeroCells s _ _ _ (by omega) (by omega)
  · exact readByte_zeroCells_outside s _ _ _ (by omega)

/-- What a write of the bits at positions b up to e leaves of the rest of a stream and of memory: bits before b, bits
from e on in the bytes the stream had, and every byte outside those of the positions, are unchanged. -/
structure StreamWrite (s t : State) (st : Stream) (b e : Nat) : Prop where
  bits : ∀ p, (p < b ∨ (e ≤ p ∧ p < 8 * ((b + 7) / 8))) → t.streamBit st p = s.streamBit st p
  bytes : ∀ a, (a < streamBase st + b / 8 ∨ streamBase st + (e + 7) / 8 ≤ a) → t.readByte a = s.readByte a

theorem StreamWrite.refl (s : State) (st : Stream) (b : Nat) : StreamWrite s s st b b :=
  ⟨fun _ _ => rfl, fun _ _ => rfl⟩

theorem StreamWrite.trans {s t u : State} {st : Stream} {b m e : Nat} (h : StreamWrite s t st b m)
    (k : StreamWrite t u st m e) (hbm : b ≤ m) (hme : m ≤ e) : StreamWrite s u st b e where
  bits p hp := by
    rw [k.bits p (by omega), h.bits p (by omega)]
  bytes a ha := by
    rw [k.bytes a (by omega), h.bytes a (by omega)]

/-- What `emit` can do. A field that does not fit raises OVERFLOW and changes nothing; a field that fits lands at the
bit position, which moves by its width, over bytes whose new bits are 0. -/
theorem emit_cases (st : Stream) (f : Field) (s : State) :
    (s.params.streamCap < ((s.bsBits st).toNat + f.width + 7) / 8 ∧ emit st f s = .error s .overflow)
    ∨ (((s.bsBits st).toNat + f.width + 7) / 8 ≤ s.params.streamCap ∧ ∃ t, emit st f s = .ok t
      ∧ t = { s.setBsBits st (nat32 ((s.bsBits st).toNat + f.width)) with mem := t.mem }
      ∧ (∀ i < f.width, t.streamBit st ((s.bsBits st).toNat + i) = f.value.getLsbD i)
      ∧ (∀ p, (s.bsBits st).toNat + f.width ≤ p → 8 * (((s.bsBits st).toNat + 7) / 8) ≤ p →
          p < 8 * (((s.bsBits st).toNat + f.width + 7) / 8) → t.streamBit st p = false)
      ∧ StreamWrite s t st (s.bsBits st).toNat ((s.bsBits st).toNat + f.width)) := by
  by_cases hc : s.params.streamCap < ((s.bsBits st).toNat + f.width + 7) / 8
  · refine .inl ⟨hc, ?_⟩
    unfold emit
    simp only [ceilDiv_eight, hc, if_true]
  · refine .inr ⟨by omega, ?_⟩
    have he : emit st f s = .ok (((s.extendStream st (((s.bsBits st).toNat + f.width + 7) / 8)).putBits st
        (s.bsBits st).toNat f.value 0 f.width).setBsBits st (nat32 ((s.bsBits st).toNat + f.width))) := by
      unfold emit
      simp only [ceilDiv_eight, hc, if_false]
    refine ⟨_, he, ?_, ?_, ?_, ?_⟩
    · obtain ⟨cells, h⟩ := putBits_eq (s.extendStream st (((s.bsBits st).toNat + f.width + 7) / 8)) st
        (s.bsBits st).toNat f.value 0 f.width
      rw [h]
      cases st <;> rfl
    · intro i hi
      rw [setBsBits_streamBit, streamBit_putBits, if_pos (by omega)]
      congr 1; omega
    · intro p h1 h2 h3
      rw [setBsBits_streamBit, streamBit_putBits, if_neg (by omega)]
      unfold State.streamBit
      rw [readByte_extendStream, if_pos (by rw [bsBytes_eq]; omega)]
      simp
    · constructor
      · intro p hp
        rw [setBsBits_streamBit, streamBit_putBits, if_neg (by omega)]
        refine streamBit_congr st ?_
        rw [readByte_extendStream, if_neg (by rw [bsBytes_eq]; omega)]
      · intro a ha
        rw [setBsBits_readByte, readByte_putBits_outside _ _ _ _ _ _ _ ha, readByte_extendStream,
          if_neg (by rw [bsBytes_eq]; omega)]

theorem fieldsWidth_cons (f : Field) (fs : List Field) : fieldsWidth (f :: fs) = f.width + fieldsWidth fs := by
  simp [fieldsWidth]

theorem fieldsWidth_append (fs gs : List Field) : fieldsWidth (fs ++ gs) = fieldsWidth fs + fieldsWidth gs := by
  simp [fieldsWidth]

theorem fieldBits_cons (f : Field) (fs : List Field) :
    fieldBits (f :: fs) = ((List.range f.width).map fun i => f.value.getLsbD i) ++ fieldBits fs := by
  simp [fieldBits]

theorem fieldBits_append (fs gs : List Field) : fieldBits (fs ++ gs) = fieldBits fs ++ fieldBits gs := by
  simp [fieldBits]

@[simp] theorem fieldBits_length (fs : List Field) : (fieldBits fs).length = fieldsWidth fs := by
  induction fs with
  | nil => rfl
  | cons f fs ih => rw [fieldBits_cons, fieldsWidth_cons, List.length_append, ih]; simp

/-- A bit count below the capacity of any stream fits a register. -/
theorem toNat_nat32 {n : Nat} (h : n < 2 ^ 32) : (nat32 n).toNat = n := by
  simp only [nat32, BitVec.toNat_ofNat]
  exact Nat.mod_eq_of_lt h

/-- What `emitAll` can do with a stream of at most 16 MiB. If the fields fit, their bits are appended, over bytes whose other
new bits are 0; if not, it raises OVERFLOW at the first field that would pass the capacity, with the fields before it
written. -/
theorem emitAll_cases (st : Stream) (fs : List Field) (s : State) (hcap : s.params.streamCap ≤ 0x01000000) :
    (((s.bsBits st).toNat + fieldsWidth fs + 7) / 8 ≤ s.params.streamCap → ∃ t, emitAll st fs s = .ok t
      ∧ t = { s.setBsBits st (nat32 ((s.bsBits st).toNat + fieldsWidth fs)) with mem := t.mem }
      ∧ (∀ j < fieldsWidth fs, (fieldBits fs)[j]? = some (t.streamBit st ((s.bsBits st).toNat + j)))
      ∧ (∀ p, (s.bsBits st).toNat + fieldsWidth fs ≤ p → 8 * (((s.bsBits st).toNat + 7) / 8) ≤ p →
          p < 8 * (((s.bsBits st).toNat + fieldsWidth fs + 7) / 8) → t.streamBit st p = false)
      ∧ StreamWrite s t st (s.bsBits st).toNat ((s.bsBits st).toNat + fieldsWidth fs))
    ∧ (((s.bsBits st).toNat + 7) / 8 ≤ s.params.streamCap →
      s.params.streamCap < ((s.bsBits st).toNat + fieldsWidth fs + 7) / 8 → ∃ pre f post t, fs = pre ++ f :: post
      ∧ ((s.bsBits st).toNat + fieldsWidth pre + 7) / 8 ≤ s.params.streamCap
      ∧ s.params.streamCap < ((s.bsBits st).toNat + fieldsWidth pre + f.width + 7) / 8
      ∧ emitAll st pre s = .ok t ∧ emitAll st fs s = .error t .overflow) := by
  induction fs generalizing s with
  | nil =>
    refine ⟨fun _ => ⟨s, rfl, ?_, ?_, ?_, StreamWrite.refl s st _⟩, fun h1 h2 => ?_⟩
    · have : nat32 ((s.bsBits st).toNat + fieldsWidth []) = s.bsBits st := by
        simp [fieldsWidth, nat32]
      rw [this]; cases st <;> rfl
    · intro j hj; simp [fieldsWidth] at hj
    · intro p h1 h2 h3; simp only [fieldsWidth, List.map_nil, List.sum_nil, Nat.add_zero] at h3; omega
    · exfalso; simp only [fieldsWidth, List.map_nil, List.sum_nil, Nat.add_zero] at h2; omega
  | cons f fs ih =>
    have hstep : emitAll st (f :: fs) s = (emit st f s).andThen (emitAll st fs) := rfl
    rw [fieldsWidth_cons]
    rcases emit_cases st f s with ⟨hc, he⟩ | ⟨hc, t1, he, ht, hbits, hz, hw⟩
    · refine ⟨fun h => by omega, fun h1 h2 => ⟨[], f, fs, s, rfl, ?_, ?_, rfl, ?_⟩⟩
      · simpa [fieldsWidth] using h1
      · simpa [fieldsWidth] using hc
      · rw [hstep, he]; rfl
    · have hb : (t1.bsBits st).toNat = (s.bsBits st).toNat + f.width := by
        have : t1.bsBits st = nat32 ((s.bsBits st).toNat + f.width) := by
          rw [ht]; cases st <;> rfl
        rw [this, toNat_nat32 (by omega)]
      have hp : t1.params = s.params := by rw [ht]; cases st <;> rfl
      obtain ⟨ih1, ih2⟩ := ih t1 (by rw [hp]; exact hcap)
      rw [hb, hp] at ih1 ih2
      refine ⟨fun h => ?_, fun h1 h2 => ?_⟩
      · obtain ⟨t, h3, h4, h5, hz', h6⟩ := ih1 (by omega)
        refine ⟨t, by rw [hstep, he]; exact h3, ?_, ?_, ?_, ?_⟩
        · rw [h4, ht, Nat.add_assoc]; cases st <;> rfl
        · intro j hj
          rw [fieldBits_cons]
          by_cases hjf : j < f.width
          · rw [List.getElem?_append_left (by simpa using hjf)]
            have : t.streamBit st ((s.bsBits st).toNat + j) = f.value.getLsbD j := by
              rw [h6.bits _ (by omega), hbits j hjf]
            rw [this]; simp [hjf]
          · rw [List.getElem?_append_right (by simpa using hjf)]
            have := h5 (j - f.width) (by omega)
            simp only [List.length_map, List.length_range]
            rw [this]; congr 2; omega
        · intro p hp1 hp2 hp3
          by_cases hq : 8 * (((s.bsBits st).toNat + f.width + 7) / 8) ≤ p
          · exact hz' p (by omega) hq (by omega)
          · rw [h6.bits p (by omega)]; exact hz p (by omega) hp2 (by omega)
        · rw [← Nat.add_assoc]; exact hw.trans h6 (by omega) (by omega)
      · obtain ⟨pre, g, post, t, h3, h4, h5, h6, h7⟩ := ih2 hc (by omega)
        refine ⟨f :: pre, g, post, t, by rw [h3]; rfl, ?_, ?_, ?_, ?_⟩
        · rw [fieldsWidth_cons]; rw [← Nat.add_assoc]; exact h4
        · rw [fieldsWidth_cons]; rw [← Nat.add_assoc]; exact h5
        · show (emit st f s).andThen (emitAll st pre) = .ok t
          rw [he]; exact h6
        · rw [hstep, he]; exact h7

/-- `align` never overflows a stream that is within its capacity: it pads with zero bits to the next byte boundary. -/
theorem align_ok (st : Stream) (s : State)
    (hb : (s.bsBits st).toNat ≤ 8 * s.params.streamCap) :
    ∃ t, align st s = .ok t
      ∧ t = { s.setBsBits st (nat32 (8 * (((s.bsBits st).toNat + 7) / 8))) with mem := t.mem }
      ∧ (∀ p, (s.bsBits st).toNat ≤ p → p < 8 * (((s.bsBits st).toNat + 7) / 8) → t.streamBit st p = false)
      ∧ StreamWrite s t st (s.bsBits st).toNat (8 * (((s.bsBits st).toNat + 7) / 8)) := by
  unfold align
  simp only
  split
  · rename_i h
    have e : 8 * (((s.bsBits st).toNat + 7) / 8) = (s.bsBits st).toNat := by omega
    refine ⟨s, rfl, ?_, fun p h1 h2 => by omega, by rw [e]; exact StreamWrite.refl s st _⟩
    have : nat32 (8 * (((s.bsBits st).toNat + 7) / 8)) = s.bsBits st := by rw [e]; simp [nat32]
    rw [this]; cases st <;> rfl
  · rename_i h
    have e : (s.bsBits st).toNat + (8 - (s.bsBits st).toNat % 8) = 8 * (((s.bsBits st).toNat + 7) / 8) := by omega
    rcases emit_cases st { value := 0, width := 8 - (s.bsBits st).toNat % 8 } s with
      ⟨hc, -⟩ | ⟨-, t, h1, h2, h3, -, h5⟩
    · simp only [e] at hc; omega
    · simp only [e] at h2 h5
      refine ⟨t, h1, h2, fun p hp hq => ?_, h5⟩
      have := h3 (p - (s.bsBits st).toNat) (by simp only; omega)
      rw [show (s.bsBits st).toNat + (p - (s.bsBits st).toNat) = p by omega] at this
      rw [this]; simp

end Sys2Proof.Machine
end

