-- ==== Sys2Proof/Laws/Geometry.lean ====
section
/-! SUPPORT. The geometry in the states the core can be in: what the registers of 10_state.md R111 read, that every
sample of a frame lies in its region (20_memory.md R207) at an address of its own, and what a view is. -/

namespace Sys2Proof.Machine

/-- The numbers behind the geometry registers of a W × H frame. -/
structure FrameSize (s : State) (w h : Nat) : Prop where
  w_pos : 1 ≤ w
  h_pos : 1 ≤ h
  w_le : w ≤ 65535
  h_le : h ≤ 65535
  /-- the frame fits its 16 MiB region -/
  fits : (w + 15) / 16 * 16 * h + 2 * ((w / 2 + 15) / 16 * 16) * (h / 2) ≤ 0x01000000
  width : s.geom.w.toNat = w
  height : s.geom.h.toNat = h
  cols : s.geom.mbCols.toNat = (w + 15) / 16
  rows : s.geom.mbRows.toNat = (h + 15) / 16
  yStride : s.geom.yStride.toNat = (w + 15) / 16 * 16
  cStride : s.geom.cStride.toNat = (w / 2 + 15) / 16 * 16
  cw : s.geom.cw.toNat = w / 2
  ch : s.geom.ch.toNat = h / 2
  uOff : s.geom.uOff.toNat = (w + 15) / 16 * 16 * h
  vOff : s.geom.vOff.toNat = (w + 15) / 16 * 16 * h + (w / 2 + 15) / 16 * 16 * (h / 2)

theorem alignUp_plane (n : Nat) : alignUp n Config.planeAlign = (n + 15) / 16 * 16 := by
  simp only [alignUp, ceilDiv, Config.planeAlign]
  omega

/-- A geometry in use is that of a legal frame. -/
theorem frameSize_of_inv {s : State} (hs : s.Inv) (hv : s.geomValid = true) :
    FrameSize s s.geom.w.toNat s.geom.h.toNat := by
  have hg := hs.geometry
  simp only [State.geomOk, hv, if_true, Bool.and_eq_true, decide_eq_true_eq] at hg
  obtain ⟨⟨⟨hw, hh⟩, hl⟩, he⟩ := hg
  generalize s.geom.w.toNat = w at *
  generalize s.geom.h.toNat = h at *
  simp only [geometryLegal, frameBytes, alignUp_plane, Bool.and_eq_true, decide_eq_true_eq, Config.frameRegionBytes] at hl
  obtain ⟨⟨hw0, hh0⟩, hf⟩ := hl
  have hy : (w + 15) / 16 * 16 * h ≤ 0x01000000 := by omega
  have hc : 2 * ((w / 2 + 15) / 16 * 16) * (h / 2) ≤ 0x01000000 := by omega
  have hc' : (w / 2 + 15) / 16 * 16 * (h / 2) ≤ 0x01000000 := by
    have : 2 * ((w / 2 + 15) / 16 * 16) * (h / 2) = 2 * ((w / 2 + 15) / 16 * 16 * (h / 2)) := by ring
    omega
  have lt : ∀ n, n < 2 ^ 32 → (nat32 n).toNat = n := fun n hn => by
    simp only [nat32, BitVec.toNat_ofNat]
    exact Nat.mod_eq_of_lt hn
  refine ⟨by omega, by omega, hw, hh, hf, ?_, ?_, ?_, ?_, ?_, ?_, ?_, ?_, ?_, ?_⟩ <;>
    (simp only [he, geometryOf, alignUp_plane, ceilDiv]; exact lt _ (by omega))

/-- A sample's offset in its frame region, with the region's planes one after another. -/
theorem planeOff_bounds {s : State} {w h : Nat} (hf : FrameSize s w h) (p : Plane) {x y : Nat} (hx : x < s.planeW p)
    (hy : y < s.planeH p) :
    s.planeOff p + y * s.planeStride p + x < s.planeOff p + s.planeStride p * s.planeH p ∧ x < s.planeStride p := by
  have hxs : x < s.planeStride p := by
    cases p <;> simp only [State.planeW, State.planeStride, hf.width, hf.cw, hf.yStride, hf.cStride] at * <;> omega
  refine ⟨?_, hxs⟩
  have : y * s.planeStride p + s.planeStride p ≤ s.planeStride p * s.planeH p := by
    calc y * s.planeStride p + s.planeStride p = (y + 1) * s.planeStride p := by ring
      _ ≤ s.planeH p * s.planeStride p := Nat.mul_le_mul_right _ hy
      _ = s.planeStride p * s.planeH p := Nat.mul_comm _ _
  omega

/-- The planes of a frame lie one after another in its region. -/
theorem planes_in_order {s : State} {w h : Nat} (hf : FrameSize s w h) :
    s.planeOff .y + s.planeStride .y * s.planeH .y = s.planeOff .u
      ∧ s.planeOff .u + s.planeStride .u * s.planeH .u = s.planeOff .v
      ∧ s.planeOff .v + s.planeStride .v * s.planeH .v ≤ 0x01000000 := by
  simp only [State.planeOff, State.planeStride, State.planeH, hf.height, hf.ch, hf.yStride, hf.cStride, hf.uOff, hf.vOff]
  refine ⟨by omega, trivial, ?_⟩
  have := hf.fits
  have e : 2 * ((w / 2 + 15) / 16 * 16) * (h / 2) = 2 * ((w / 2 + 15) / 16 * 16 * (h / 2)) := by ring
  omega

/-- Every sample lies in its frame region (20_memory.md R207). -/
theorem sampleAddr_bounds {s : State} {w h : Nat} (hf : FrameSize s w h) (f : FrameId) (p : Plane) {x y : Nat}
    (hx : x < s.planeW p) (hy : y < s.planeH p) :
    f.base ≤ s.sampleAddr f p x y ∧ s.sampleAddr f p x y < f.base + 0x01000000 := by
  have h1 := (planeOff_bounds hf p hx hy).1
  have h2 := planes_in_order hf
  unfold State.sampleAddr
  cases p <;> omega

/-- Two samples of a frame with one address are one sample. -/
theorem sampleAddr_inj {s : State} {w h : Nat} (hf : FrameSize s w h) (f : FrameId) {p q : Plane} {x y x' y' : Nat}
    (hx : x < s.planeW p) (hy : y < s.planeH p) (hx' : x' < s.planeW q) (hy' : y' < s.planeH q)
    (he : s.sampleAddr f p x y = s.sampleAddr f q x' y') : p = q ∧ x = x' ∧ y = y' := by
  have h1 := planeOff_bounds hf p hx hy
  have h2 := planeOff_bounds hf q hx' hy'
  have h3 := planes_in_order hf
  unfold State.sampleAddr at he
  have hpq : p = q := by cases p <;> cases q <;> first | rfl | (exfalso; omega)
  subst hpq
  have e : y * s.planeStride p + x = y' * s.planeStride p + x' := by omega
  have hy2 : y = y' := by
    rcases Nat.lt_trichotomy y y' with hlt | heq | hgt
    · have := Nat.mul_le_mul_right (s.planeStride p) (Nat.succ_le_of_lt hlt)
      have r : (y + 1) * s.planeStride p = y * s.planeStride p + s.planeStride p := by ring
      simp only [Nat.succ_eq_add_one] at this
      omega
    · exact heq
    · have := Nat.mul_le_mul_right (s.planeStride p) (Nat.succ_le_of_lt hgt)
      have r : (y' + 1) * s.planeStride p = y' * s.planeStride p + s.planeStride p := by ring
      simp only [Nat.succ_eq_add_one] at this
      omega
  subst hy2
  exact ⟨rfl, by omega, rfl⟩

/-- What `view` can be. -/
theorem view_cases (s : State) (p : Plane) (mbx mby : Nat) :
    (s.inGrid mbx mby = true ∧ s.view p mbx mby =
      { x0 := mbSize p * mbx, y0 := mbSize p * mby, w := min (mbSize p) (s.planeW p - mbSize p * mbx),
        h := min (mbSize p) (s.planeH p - mbSize p * mby), valid := true })
    ∨ (s.inGrid mbx mby = false ∧ s.view p mbx mby = { x0 := 0, y0 := 0, w := 0, h := 0, valid := false }) := by
  unfold State.view
  cases s.inGrid mbx mby <;> simp

theorem inGrid_iff (s : State) (mbx mby : Nat) :
    s.inGrid mbx mby = true ↔ s.geomValid = true ∧ mbx < s.geom.mbCols.toNat ∧ mby < s.geom.mbRows.toNat := by
  simp [State.inGrid, and_assoc]

/-- A view's samples are samples of the plane. -/
theorem view_inside (s : State) (p : Plane) (mbx mby : Nat) {r c : Nat} (hr : r < (s.view p mbx mby).h)
    (hc : c < (s.view p mbx mby).w) :
    (s.view p mbx mby).x0 + c < s.planeW p ∧ (s.view p mbx mby).y0 + r < s.planeH p := by
  rcases view_cases s p mbx mby with ⟨-, e⟩ | ⟨-, e⟩ <;> rw [e] at hr hc ⊢ <;> simp only at hr hc ⊢
  · omega
  · omega

/-- A view is at most 16 × 16 in luma and 8 × 8 in chroma. -/
theorem view_size (s : State) (p : Plane) (mbx mby : Nat) :
    (s.view p mbx mby).w ≤ mbSize p ∧ (s.view p mbx mby).h ≤ mbSize p := by
  rcases view_cases s p mbx mby with ⟨-, e⟩ | ⟨-, e⟩ <;> rw [e] <;> simp only <;> omega

/-- The luma view of an in-grid macroblock is not empty (40_frame_mb.md R401). -/
theorem view_luma_pos {s : State} {w h : Nat} (hf : FrameSize s w h) {mbx mby : Nat} (hg : s.inGrid mbx mby = true) :
    1 ≤ (s.view .y mbx mby).w ∧ 1 ≤ (s.view .y mbx mby).h := by
  have hi := (inGrid_iff s mbx mby).1 hg
  rw [hf.cols, hf.rows] at hi
  unfold State.view
  simp only [hg, if_true, mbSize, State.planeW, State.planeH, hf.width, hf.height]
  omega

/-- Every sample of a plane is in the view of exactly the macroblock its coordinates divide to. -/
theorem sample_in_view {s : State} {w h : Nat} (hf : FrameSize s w h) (hv : s.geomValid = true) (p : Plane) {x y : Nat}
    (hx : x < s.planeW p) (hy : y < s.planeH p) :
    s.inGrid (x / mbSize p) (y / mbSize p) = true
      ∧ x % mbSize p < (s.view p (x / mbSize p) (y / mbSize p)).w
      ∧ y % mbSize p < (s.view p (x / mbSize p) (y / mbSize p)).h := by
  have hg : s.inGrid (x / mbSize p) (y / mbSize p) = true := by
    rw [inGrid_iff, hf.cols, hf.rows]
    refine ⟨hv, ?_⟩
    cases p <;> simp only [State.planeW, State.planeH, hf.width, hf.height, hf.cw, hf.ch, mbSize] at * <;> omega
  refine ⟨hg, ?_⟩
  unfold State.view
  simp only [hg, if_true]
  cases p <;> simp only [mbSize] <;> omega

end Sys2Proof.Machine
end

