-- ==== Sys2Proof/Laws/HostBus.lean ====
section
/-! SUPPORT. One event of the schedule: what a host access does, register by register and byte by byte, and what the
engine's turn and the reset input do. -/

namespace Sys2Proof.Machine

theorem step_nil {s : State} (h : s.schedule = []) : step s = engineStep s := by
  unfold step; rw [h]

theorem step_engine {s : State} {rest : List Event} (h : s.schedule = .engine :: rest) :
    step s = engineStep { s with schedule := rest } := by
  unfold step; rw [h]

theorem step_access {s : State} {a : Access} {rest : List Event} (h : s.schedule = .access a :: rest) :
    step s = .next (({ s with schedule := rest } : State).access a) := by
  unfold step; rw [h]

theorem step_rst {s : State} {level : Bool} {rest : List Event} (h : s.schedule = .rst level :: rest) :
    step s = .next (({ s with schedule := rest } : State).setRst level) := by
  unfold step; rw [h]

/-- What the engine's turn can do. -/
theorem engineStep_cases (s : State) :
    ((s.rst = true ∨ s.running = none) ∧ engineStep s = .next s)
      ∨ (s.rst = false ∧ ∃ run, s.running = some run ∧
        ((∃ i, decode run.word = .ok i ∧ engineStep s = exec i s)
          ∨ ((∀ i, decode run.word ≠ .ok i) ∧ engineStep s = runIllegal run.word s))) := by
  unfold engineStep
  cases hr : s.rst
  · rcases hn : s.running with _ | run
    · exact .inl ⟨.inr rfl, by simp⟩
    · refine .inr ⟨rfl, run, rfl, ?_⟩
      simp only [Bool.false_eq_true, if_false, runWord]
      rcases hd : decode run.word with e | i
      · exact .inr ⟨fun i h => by simp at h, rfl⟩
      · exact .inl ⟨i, rfl, rfl⟩
  · exact .inl ⟨.inl rfl, by simp⟩

/-! Registers. -/

theorem addr_toNat (r : Reg) : r.addr.toNat = r.offset ∧ r.offset < regsEnd ∧ r.offset % 4 = 0 := by
  cases r with
  | res n => revert n; decide +kernel
  | basis n => revert n; decide +kernel
  | zigzag n => revert n; decide +kernel
  | _ => decide +kernel

@[simp] theorem regAt_offset (r : Reg) : regAt r.offset = some r := by
  cases r with
  | res n => revert n; decide +kernel
  | basis n => revert n; decide +kernel
  | zigzag n => revert n; decide +kernel
  | _ => decide +kernel

theorem offset_of_regAt {a : Nat} {r : Reg} (h : regAt a = some r) : r.offset = a := by
  have := List.find?_some h
  simpa using this

theorem regAt_eq_none {a : Nat} (h : ∀ r : Reg, r.offset ≠ a) : regAt a = none := by
  rcases hr : regAt a with _ | r
  · rfl
  · exact absurd (offset_of_regAt hr) (h r)

@[simp] theorem accessAllowed_reg (r : Reg) : accessAllowed .w32 r.addr = true := by
  obtain ⟨h1, h2, h3⟩ := addr_toNat r
  simp [accessAllowed, h1, h2, h3]

theorem busRead_reg_idle (s : State) (r : Reg) (h : s.running = none) : s.busRead .w32 r.addr = s.regValue r := by
  obtain ⟨h1, h2, -⟩ := addr_toNat r
  simp only [State.busRead, h1, h2, if_true, State.busReadReg, regAt_offset, h]

theorem busRead_reg_busy (s : State) (r : Reg) (run : Running) (h : s.running = some run) :
    s.busRead .w32 r.addr = if r = .ctrl then run.ctrl.setWidth 32 else s.regValue r := by
  obtain ⟨h1, h2, -⟩ := addr_toNat r
  simp only [State.busRead, h1, h2, if_true, State.busReadReg, regAt_offset, h]
  cases r <;> rfl

theorem busWrite_reg_idle (s : State) (r : Reg) (v : Word) (h : s.running = none) :
    s.busWrite .w32 r.addr v = s.writeReg v r := by
  obtain ⟨h1, h2, -⟩ := addr_toNat r
  simp only [State.busWrite, h, State.busWriteIdle, h1, h2, if_true, regAt_offset]

theorem busWrite_busy (s : State) (w : Width) (addr v : Word) {run : Running} (h : s.running = some run) :
    s.busWrite w addr v = s.busWriteBusy run addr v := by
  simp only [State.busWrite, h]

theorem busWrite_memory_idle (s : State) (w : Width) (addr v : Word) (h : s.running = none)
    (ha : 0x1000 ≤ addr.toNat) : s.busWrite w addr v = s.hostWrite addr.toNat w.bytes v := by
  simp only [State.busWrite, h, State.busWriteIdle, if_neg (show ¬ addr.toNat < regsEnd from Nat.not_lt.2 ha)]

theorem busRead_memory_idle (s : State) (w : Width) (addr : Word) (h : s.running = none) (ha : 0x1000 ≤ addr.toNat) :
    s.busRead w addr = nat32 (s.hostRead addr.toNat w.bytes) := by
  simp [State.busRead, if_neg (show ¬ addr.toNat < regsEnd from Nat.not_lt.2 ha), State.busy, h]

theorem busRead_memory_busy (s : State) (w : Width) (addr : Word) {run : Running} (h : s.running = some run)
    (ha : 0x1000 ≤ addr.toNat) : s.busRead w addr = 0 := by
  simp [State.busRead, if_neg (show ¬ addr.toNat < regsEnd from Nat.not_lt.2 ha), State.busy, h]

/-- What a host write of STATUS leaves. -/
theorem writeStatus_eq (s : State) (v : Word) : s.writeStatus v = { s with
    done := s.done && !v.getLsbD 1, err := s.err && !v.getLsbD 2,
    errCode := if v.getLsbD 2 then 0 else s.errCode, errOpc := if v.getLsbD 2 then 0 else s.errOpc } := by
  unfold State.writeStatus State.w1cDone
  generalize v.getLsbD 1 = a, v.getLsbD 2 = b
  cases a <;> cases b <;> simp [State.clearError]

/-- What a host write in the BUSY window can do: clear STATUS bits with a 1, write CTRL, or be lost and record BUSY. -/
theorem busWriteBusy_cases (s : State) (run : Running) (addr value : Word) :
    (addr.toNat = 0x00C ∧ (value.getLsbD 1 = true ∨ value.getLsbD 2 = true)
        ∧ s.busWriteBusy run addr value = s.writeStatus value)
      ∨ (addr.toNat = 0x008 ∧ s.busWriteBusy run addr value = s.writeCtrl value)
      ∨ (¬ (addr.toNat = 0x00C ∧ (value.getLsbD 1 = true ∨ value.getLsbD 2 = true)) ∧ addr.toNat ≠ 0x008
        ∧ s.busWriteBusy run addr value = s.recordError .busy (busyOpcode run addr value)) := by
  have hc : isStatusW1c addr value = true ↔ addr.toNat = 0x00C ∧ (value.getLsbD 1 = true ∨ value.getLsbD 2 = true) := by
    rw [isStatusW1c, Bool.and_eq_true, Bool.or_eq_true, decide_eq_true_iff]; rfl
  by_cases h : isStatusW1c addr value = true
  · exact .inl ⟨(hc.1 h).1, (hc.1 h).2, by simp [State.busWriteBusy, h]⟩
  · by_cases h' : addr.toNat = 0x008
    · exact .inr (.inl ⟨h', by simp [State.busWriteBusy, h, h', Reg.offset]⟩)
    · exact .inr (.inr ⟨fun k => h (hc.2 k), h', by simp [State.busWriteBusy, h, h', Reg.offset]⟩)

/-! One access. -/

theorem access_rst (s : State) (a : Access) (h : s.rst = true) :
    s.access a = s.respond { busError := false, data := 0 } := by
  cases a <;> simp [State.access, h]

theorem access_read_allowed (s : State) (w : Width) (a : Word) (hr : s.rst = false) (h : accessAllowed w a = true) :
    s.access (.read w a) = s.respond { busError := false, data := s.busRead w a } := by
  simp only [State.access, hr, h, if_true, Bool.false_eq_true, if_false]

theorem access_read_disallowed (s : State) (w : Width) (a : Word) (hr : s.rst = false) (h : accessAllowed w a = false) :
    s.access (.read w a) = s.respond { busError := true, data := 0 } := by
  simp only [State.access, hr, h, Bool.false_eq_true, if_false]

theorem access_write_allowed (s : State) (w : Width) (a v : Word) (hr : s.rst = false) (h : accessAllowed w a = true) :
    s.access (.write w a v) = (s.busWrite w a v).respond { busError := false, data := 0 } := by
  simp only [State.access, hr, h, if_true, Bool.false_eq_true, if_false]

theorem access_write_disallowed (s : State) (w : Width) (a v : Word) (hr : s.rst = false)
    (h : accessAllowed w a = false) : s.access (.write w a v) = s.respond { busError := true, data := 0 } := by
  simp only [State.access, hr, h, Bool.false_eq_true, if_false]

/-- No access in the BUSY window ends the command or touches memory, `LAST_CMD`, `rst` or the schedule. -/
theorem access_busy (s : State) (a : Access) (run : Running) (h : s.running = some run) :
    (s.access a).running = some run ∧ (s.access a).mem = s.mem ∧ (s.access a).lastCmd = s.lastCmd
      ∧ (s.access a).rst = s.rst ∧ (s.access a).schedule = s.schedule := by
  have hw : ∀ w addr v, (s.busWrite w addr v).running = some run ∧ (s.busWrite w addr v).mem = s.mem
      ∧ (s.busWrite w addr v).lastCmd = s.lastCmd ∧ (s.busWrite w addr v).rst = s.rst
      ∧ (s.busWrite w addr v).schedule = s.schedule := by
    intro w addr v
    simp only [State.busWrite, h]
    rcases busWriteBusy_cases s run addr v with ⟨-, -, e⟩ | ⟨-, e⟩ | ⟨-, -, e⟩ <;> simp [e, h, writeStatus_eq]
  cases a with
  | read w addr => simp only [State.access]; split <;> (try split) <;> simp [State.respond, h]
  | write w addr v =>
    simp only [State.access]
    split
    · simp [State.respond, h]
    · split
      · exact hw w addr v
      · simp [State.respond, h]

theorem run_succ (M : Host.Core) (n : Nat) (s t : M.State) (h : M.step s = .next t) : M.run (n + 1) s = M.run n t := by
  have e : M.run (n + 1) s = match M.step s with
      | .next s' => M.run n s'
      | .fault r => .fault r
      | .refused r => .refused r := rfl
  rw [e, h]

/-- A run of n + 1 steps whose first one goes on. -/
theorem core_run_succ {s t : State} (n : Nat) (h : step s = .next t) :
    Sys2Proof.core.run (n + 1) s = Sys2Proof.core.run n t :=
  run_succ Sys2Proof.core n s t h

/-- Through any accesses of the BUSY window the running command stays and the bytes of memory, `LAST_CMD` and `rst` stay. -/
theorem run_busy_window (run : Running) (rest : List Event) (window : List Access) (s : State)
    (h : s.running = some run) (hs : s.schedule = window.map Event.access ++ rest) :
    ∃ m : State, Sys2Proof.core.run window.length s = .next m ∧ m.running = some run ∧ m.mem = s.mem
      ∧ m.lastCmd = s.lastCmd ∧ m.rst = s.rst ∧ m.schedule = rest := by
  induction window generalizing s with
  | nil => exact ⟨s, rfl, h, rfl, rfl, rfl, by simpa using hs⟩
  | cons a window ih =>
    obtain ⟨h1, h2, h3, h4, h5⟩ := access_busy { s with schedule := window.map Event.access ++ rest } a run h
    obtain ⟨m, k1, k2, k3, k4, k5, k6⟩ := ih _ h1 h5
    exact ⟨m, (core_run_succ _ (step_access (by simpa using hs))).trans k1, k2, k3.trans h2, k4.trans h3, k5.trans h4, k6⟩

/-! Memory. -/

/-- The mapped addresses, region by region of the address map. -/
theorem mapped_iff (s : State) (a : Nat) : s.mapped a = true ↔
    (0x01000000 ≤ a ∧ a < 0x04000000) ∨ (0x04000000 ≤ a ∧ a < 0x04000A00) ∨ (0x05000000 ≤ a ∧ a < 0x06000000)
      ∨ (0x06000000 ≤ a ∧ a < 0x06000000 + s.params.streamCap)
      ∨ (0x07000000 ≤ a ∧ a < 0x07000000 + s.params.streamCap) := by
  simp only [State.mapped, isWork, Bool.or_eq_true, Bool.and_eq_true, decide_eq_true_iff, or_assoc]
  rfl

/-- A host read is the little-endian number of the bytes, 0 for those that are not mapped. -/
theorem hostRead_eq (s : State) (a n : Nat) :
    s.hostRead a n = ((List.range n).map fun j => (s.hostByte (a + j)).toNat * 256 ^ j).sum := by
  induction n generalizing a with
  | zero => rfl
  | succ n ih =>
    rw [State.hostRead, ih, List.range_succ_eq_map, List.map_cons, List.sum_cons, List.map_map, ← List.sum_map_mul_left]
    simp only [Nat.add_zero, pow_zero, Nat.mul_one]
    congr 2
    refine List.map_congr_left fun j _ => ?_
    simp only [Function.comp, Nat.succ_eq_add_one]
    rw [show a + 1 + j = a + (j + 1) by omega]; ring

/-- A host write leaves the bytes of its value at the mapped addresses. -/
theorem readByte_hostWrite (s : State) (a n : Nat) (v : Word) {j : Nat} (hj : j < n) (hm : s.mapped (a + j) = true) :
    (s.hostWrite a n v).readByte (a + j) = BitVec.ofNat 8 (v.toNat / 256 ^ j) := by
  apply readByte_storeCells_mem
  · exact List.mem_filter.2 ⟨(mem_cellsLE _ _ _ _).2 ⟨j, hj, rfl⟩, hm⟩
  · intro c hc hca
    obtain ⟨i, hi, rfl⟩ := (mem_cellsLE _ _ _ _).1 (List.mem_of_mem_filter hc)
    have : i = j := by simp only at hca; omega
    rw [this]

/-- A host write changes no other byte. -/
theorem readByte_hostWrite_outside (s : State) (a n : Nat) (v : Word) (b : Nat)
    (h : b < a ∨ a + n ≤ b ∨ s.mapped b = false) : (s.hostWrite a n v).readByte b = s.readByte b := by
  apply readByte_storeCells_notMem
  intro c hc
  obtain ⟨hc, hm⟩ := List.mem_filter.1 hc
  obtain ⟨i, hi, rfl⟩ := (mem_cellsLE _ _ _ _).1 hc
  intro e
  simp only at e hm
  rcases h with h | h | h
  · omega
  · omega
  · rw [e, h] at hm; exact absurd hm (by simp)

end Sys2Proof.Machine
end

