-- ==== Sys2Proof/Laws/HostProgram.lean ====
section
/-! SUPPORT. Sequences of commands: what one command's turn leaves, and that a recorded error stays recorded. -/

namespace Sys2Proof.Machine

/-- What a command leaves: the end of its run, or the end of its error. -/
theorem exec_cases (i : Instr) (s : State) :
    (∃ t, runInstr i s = .ok t ∧ SameControl s t ∧ exec i s = .next t.complete)
      ∨ ∃ t e, runInstr i s = .error t e ∧ SameControl s t ∧ exec i s = .next (t.recordError e i.opcode).complete := by
  have hc := runInstr_sameControl i s
  rcases hr : runInstr i s with t | ⟨t, e⟩ <;> rw [hr] at hc
  · exact .inl ⟨t, rfl, hc, by rw [exec_eq, hr, finish_ok]⟩
  · exact .inr ⟨t, e, rfl, hc, by rw [exec_eq, hr, finish_error]⟩

theorem runCommands_cons {i : Instr} {s t : State} (is : List Instr) (h : exec i s = .next t) :
    runCommands (i :: is) s = runCommands is t := by
  simp only [runCommands, h]

theorem runCommands_append (is js : List Instr) (s : State) :
    runCommands (is ++ js) s = runCommands js (runCommands is s) := by
  induction is generalizing s with
  | nil => rfl
  | cons i is ih =>
    rcases exec_cases i s with ⟨t, -, -, h⟩ | ⟨t, e, -, -, h⟩ <;>
      rw [List.cons_append, runCommands_cons _ h, runCommands_cons _ h, ih]

/-- No command clears ERR (60_exceptions.md R908). -/
theorem exec_err {i : Instr} {s t : State} (h : exec i s = .next t) (he : s.err = true) : t.err = true := by
  rcases exec_cases i s with ⟨u, -, hc, k⟩ | ⟨u, e, -, -, k⟩ <;> rw [k] at h <;> cases h
  · exact hc.err.trans he
  · rfl

theorem runCommands_err (is : List Instr) (s : State) (he : s.err = true) : (runCommands is s).err = true := by
  induction is generalizing s with
  | nil => exact he
  | cons i is ih =>
    rcases exec_cases i s with ⟨t, -, -, h⟩ | ⟨t, e, -, -, h⟩ <;>
      rw [runCommands_cons _ h] <;> exact ih _ (exec_err h he)

/-- An I-frame macroblock whose first block does not fit stream 1 leaves ERR set. -/
theorem hostIntraMb_err (s : State) (mb : Nat × Nat)
    (h : (runCommands ([.loadSrc 0, .loadSrc 1, .loadSrc 2] ++ codeBlockCommands 0) (withMbArgs mb s)).err = true) :
    (hostIntraMb s mb).err = true := by
  have e : intraMbCommands = ([.loadSrc 0, .loadSrc 1, .loadSrc 2] ++ codeBlockCommands 0)
      ++ [1, 2, 3, 4, 5].flatMap codeBlockCommands := rfl
  rw [hostIntraMb, e, runCommands_append]
  exact runCommands_err _ _ h

/-- A frame of one macroblock that leaves ERR set leaves it set at its end. -/
theorem hostFrame_err (codeMb : State → Nat × Nat → State) (s : State) (mb : Nat × Nat) (hm : s.mbCoords = [mb])
    (h : (codeMb (runCommands [.bsClear .stream0, .bsClear .stream1] s) mb).err = true) :
    (hostFrame codeMb s).err = true := by
  unfold hostFrame
  rw [hm]
  exact runCommands_err _ _ h

end Sys2Proof.Machine
end

