-- ==== Sys2Proof/Laws/Motion.lean ====
section
/-! SUPPORT. Motion search: the SAD as a sum over rows, its largest value, what one probe can do, and what the diamond
search's loop is at each step. -/

namespace Sys2Proof.Machine

theorem rowsCols_map_sum (h w : Nat) (f : Nat × Nat → Nat) :
    ((rowsCols h w).map f).sum = ((List.range h).map fun r => ((List.range w).map fun c => f (r, c)).sum).sum := by
  unfold rowsCols
  generalize List.range h = l
  induction l with
  | nil => rfl
  | cons r l ih => simp [ih, Function.comp_def]

/-- The SAD, row by row (41_motion_estimation.md R451). -/
theorem sad_eq (s : State) (v : View) (dx dy : Int) :
    sad s v dx dy = ((List.range v.h).map fun r => ((List.range v.w).map fun c =>
      absDiff (s.sample .cur .y (v.x0 + c) (v.y0 + r))
        (s.sample .ref .y ((v.x0 : Int) + dx + c).toNat ((v.y0 : Int) + dy + r).toNat)).sum).sum :=
  rowsCols_map_sum v.h v.w _

theorem absDiff_le (a b : Byte) : absDiff a b ≤ 255 := by
  have h1 := a.isLt
  have h2 := b.isLt
  unfold absDiff
  omega

theorem sum_map_le {α : Type} (l : List α) (f : α → Nat) (b : Nat) (h : ∀ x ∈ l, f x ≤ b) :
    (l.map f).sum ≤ l.length * b := by
  induction l with
  | nil => simp
  | cons x l ih =>
    have h1 := h x (by simp)
    have h2 := ih fun y hy => h y (by simp [hy])
    simp only [List.map_cons, List.sum_cons, List.length_cons, Nat.add_mul, Nat.one_mul]
    omega

/-- "SAD is at most 255 · 256" (R451): the sentinel's cost is above every SAD. -/
theorem sad_le (s : State) (mbx mby : Nat) (dx dy : Int) : sad s (s.view .y mbx mby) dx dy ≤ 65280 := by
  have hv := view_size s .y mbx mby
  simp only [mbSize] at hv
  rw [sad_eq]
  have hrow : ∀ r : Nat, ((List.range (s.view .y mbx mby).w).map fun c =>
      absDiff (s.sample .cur .y ((s.view .y mbx mby).x0 + c) ((s.view .y mbx mby).y0 + r))
        (s.sample .ref .y (((s.view .y mbx mby).x0 : Int) + dx + c).toNat
          (((s.view .y mbx mby).y0 : Int) + dy + r).toNat)).sum ≤ 4080 := fun r => by
    refine Nat.le_trans (sum_map_le _ _ 255 fun c _ => absDiff_le _ _) ?_
    simp only [List.length_range]; omega
  refine Nat.le_trans (sum_map_le _ _ 4080 fun r _ => hrow r) ?_
  simp only [List.length_range]; omega

/-- What one probe can do: it wins, in bounds and strictly cheaper, or the best so far stays (R453, R455). -/
theorem consider_cases (s : State) (v : View) (best : Motion) (d : Int × Int) :
    (inBounds s v d.1 d.2 = true ∧ sad s v d.1 d.2 < best.cost
      ∧ consider s v best d = { dx := d.1, dy := d.2, cost := sad s v d.1 d.2 })
    ∨ ((inBounds s v d.1 d.2 = true → best.cost ≤ sad s v d.1 d.2) ∧ consider s v best d = best) := by
  unfold consider
  cases hb : inBounds s v d.1 d.2
  · exact .inr ⟨by simp, by simp⟩
  · by_cases hc : sad s v d.1 d.2 < best.cost
    · exact .inl ⟨rfl, hc, by simp [hc]⟩
    · exact .inr ⟨fun _ => by omega, by simp [hc]⟩

theorem inBounds_iff (s : State) (v : View) (dx dy : Int) :
    inBounds s v dx dy = true ↔ 0 ≤ v.x0 + dx ∧ 0 ≤ v.y0 + dy ∧ v.x0 + dx + v.w ≤ (s.geom.w.toNat : Int)
      ∧ v.y0 + dy + v.h ≤ (s.geom.h.toNat : Int) := by
  simp [inBounds, and_assoc]

theorem mem_symRange (r : Nat) (d : Int) : d ∈ symRange r ↔ d.natAbs ≤ r := by
  simp only [symRange, List.mem_map, List.mem_range]
  constructor
  · rintro ⟨i, hi, rfl⟩; omega
  · intro h; exact ⟨(d + r).toNat, by omega, by omega⟩

theorem mem_fullCandidates (r : Nat) (d : Int × Int) :
    d ∈ fullCandidates r ↔ d.1.natAbs ≤ r ∧ d.2.natAbs ≤ r := by
  obtain ⟨dx, dy⟩ := d
  simp only [fullCandidates, List.mem_flatMap, List.mem_map, mem_symRange, Prod.mk.injEq]
  constructor
  · rintro ⟨y, hy, x, hx, rfl, rfl⟩; exact ⟨hx, hy⟩
  · rintro ⟨hx, hy⟩; exact ⟨dy, hy, dx, hx, rfl, rfl⟩

theorem diamondSteps_zero (s : State) (v : View) (fuel : Nat) (centre : Motion) :
    diamondSteps s v fuel 0 centre = centre := by cases fuel <;> rfl

theorem diamondSteps_succ (s : State) (v : View) (fuel step : Nat) (centre : Motion) (h : 1 ≤ step) :
    diamondSteps s v (fuel + 1) step centre
      = diamondSteps s v fuel (step / 2) ((diamondProbes centre step).foldl (consider s v) centre) := by
  have : step ≠ 0 := by omega
  simp [diamondSteps, this]

end Sys2Proof.Machine
end

