-- ==== Sys2Proof/Laws/PerInstr.lean ====
section
/-! SUPPORT. What is said of every command as syntax, one lemma per constructor: the fields of its word are its opcode, its
selector and its stream bit, and the reserved bits are 0 (spec/30_encoding.md R301). -/

namespace Sys2Proof.Laws

/-- The four fields of a command's word (30_encoding.md R301). -/
def EncodeFields.Statement (i : Instr) : Prop :=
  Word.opc (encode i) = i.opcode ∧ Word.sel (encode i) = i.selField ∧ Word.sBit (encode i) = i.sField
    ∧ Word.rsv (encode i) = 0

/-- Words with these fields, whatever they hold. -/
theorem encodeFields_of (i : Instr) : EncodeFields.Statement i := by
  have h : ∀ (o : BitVec 8) (e : BitVec 4) (b : Bool),
      let w : Word := o.setWidth 32 ||| (e.setWidth 32 <<< 8) ||| ((BitVec.ofBool b).setWidth 32 <<< 12)
      Word.opc w = o ∧ Word.sel w = e ∧ Word.sBit w = b ∧ Word.rsv w = 0 := by
    intro o e b
    refine ⟨?_, ?_, ?_, ?_⟩
    · apply BitVec.eq_of_getLsbD_eq; intro j hj
      simp only [Word.opc, BitVec.getLsbD_extractLsb', BitVec.getLsbD_or, BitVec.getLsbD_shiftLeft,
        BitVec.getLsbD_setWidth]
      have h1 : j < 32 := by omega
      simp [hj, h1, show j < 12 by omega]
    · apply BitVec.eq_of_getLsbD_eq; intro j hj
      simp only [Word.sel, BitVec.getLsbD_extractLsb', BitVec.getLsbD_or, BitVec.getLsbD_shiftLeft,
        BitVec.getLsbD_setWidth]
      have h1 : 8 + j < 12 := by omega
      have h2 : j < 32 := by omega
      simp [hj, h1, h2]
      omega
    · cases b <;> simp [Word.sBit]
    · apply BitVec.eq_of_getLsbD_eq; intro j hj
      simp only [Word.rsv, BitVec.getLsbD_extractLsb', BitVec.getLsbD_or, BitVec.getLsbD_shiftLeft,
        BitVec.getLsbD_setWidth]
      have h1 : ¬ 13 + j - 12 = 0 := by omega
      simp only [hj, decide_true, Bool.true_and, BitVec.ofNat_eq_ofNat, BitVec.getLsbD_zero]
      rw [BitVec.getLsbD_of_ge o _ (by omega), BitVec.getLsbD_of_ge e _ (by omega)]
      simp [h1]
  exact h _ _ _

theorem EncodeFields.nop : EncodeFields.Statement .nop := encodeFields_of _
theorem EncodeFields.init : EncodeFields.Statement .init := encodeFields_of _
theorem EncodeFields.mbView (sel : BitVec 4) : EncodeFields.Statement (.mbView sel) := encodeFields_of _
theorem EncodeFields.loadSrc (sel : BitVec 4) : EncodeFields.Statement (.loadSrc sel) := encodeFields_of _
theorem EncodeFields.storeRef : EncodeFields.Statement .storeRef := encodeFields_of _
theorem EncodeFields.meFull : EncodeFields.Statement .meFull := encodeFields_of _
theorem EncodeFields.meDiamond : EncodeFields.Statement .meDiamond := encodeFields_of _
theorem EncodeFields.mcBlock (sel : BitVec 4) : EncodeFields.Statement (.mcBlock sel) := encodeFields_of _
theorem EncodeFields.mcFrame : EncodeFields.Statement .mcFrame := encodeFields_of _
theorem EncodeFields.residual : EncodeFields.Statement .residual := encodeFields_of _
theorem EncodeFields.loadBlk (sel : BitVec 4) : EncodeFields.Statement (.loadBlk sel) := encodeFields_of _
theorem EncodeFields.zeroBlk (sel : BitVec 4) : EncodeFields.Statement (.zeroBlk sel) := encodeFields_of _
theorem EncodeFields.fdct8 (sel : BitVec 4) : EncodeFields.Statement (.fdct8 sel) := encodeFields_of _
theorem EncodeFields.idct8 (sel : BitVec 4) : EncodeFields.Statement (.idct8 sel) := encodeFields_of _
theorem EncodeFields.fdct16 : EncodeFields.Statement .fdct16 := encodeFields_of _
theorem EncodeFields.idct16 : EncodeFields.Statement .idct16 := encodeFields_of _
theorem EncodeFields.qpScale : EncodeFields.Statement .qpScale := encodeFields_of _
theorem EncodeFields.quant (sel : BitVec 4) : EncodeFields.Statement (.quant sel) := encodeFields_of _
theorem EncodeFields.dequant (sel : BitVec 4) : EncodeFields.Statement (.dequant sel) := encodeFields_of _
theorem EncodeFields.encBlock (sel : BitVec 4) (st : Stream) : EncodeFields.Statement (.encBlock sel st) := encodeFields_of _
theorem EncodeFields.encMv (st : Stream) : EncodeFields.Statement (.encMv st) := encodeFields_of _
theorem EncodeFields.encMb (st : Stream) : EncodeFields.Statement (.encMb st) := encodeFields_of _
theorem EncodeFields.bsClear (st : Stream) : EncodeFields.Statement (.bsClear st) := encodeFields_of _
theorem EncodeFields.bsWriteBits (st : Stream) : EncodeFields.Statement (.bsWriteBits st) := encodeFields_of _
theorem EncodeFields.bsWriteByte (st : Stream) : EncodeFields.Statement (.bsWriteByte st) := encodeFields_of _
theorem EncodeFields.bsFlush (st : Stream) : EncodeFields.Statement (.bsFlush st) := encodeFields_of _
theorem EncodeFields.rcFrameType : EncodeFields.Statement .rcFrameType := encodeFields_of _
theorem EncodeFields.rcChooseQp : EncodeFields.Statement .rcChooseQp := encodeFields_of _
theorem EncodeFields.encodeFrame : EncodeFields.Statement .encodeFrame := encodeFields_of _

end Sys2Proof.Laws
end

