-- ==== Sys2Proof/Laws/Transform.lean ====
section
/-! SUPPORT. Blocks: the element form of the matrix product, of the transpose and of the two transforms, and the ranges
of what they give (so that `coefBlock_setCoef` reads them back). -/

namespace Sys2Proof.Machine

theorem block_ext {x y : Block} (h : ∀ r c, blockAt x r c = blockAt y r c) : x = y := by
  apply Vector.ext
  intro i hi
  have := h ⟨i / 8, by omega⟩ ⟨i % 8, by omega⟩
  simp only [blockAt] at this
  simpa only [show 8 * (i / 8) + i % 8 = i by omega] using this

@[simp] theorem blockAt_blockOf (f : Fin 8 → Fin 8 → Int) (r c : Fin 8) : blockAt (blockOf f) r c = f r c := by
  have h1 : (8 * r.val + c.val) / 8 = r.val := by omega
  have h2 : (8 * r.val + c.val) % 8 = c.val := by omega
  simp [blockAt, blockOf, h1, h2]

@[simp] theorem blockAt_transpose (x : Block) (r c : Fin 8) : blockAt (transpose x) r c = blockAt x c r := by
  simp [transpose]

@[simp] theorem blockAt_map (f : Int → Int) (x : Block) (r c : Fin 8) :
    blockAt (x.map f) r c = f (blockAt x r c) := by
  simp [blockAt]

theorem blockRow_eq (x : Block) (r : Fin 8) : blockRow x r.val = (List.finRange 8).map fun i => blockAt x r i := by
  apply List.ext_getElem
  · simp [blockRow]; omega
  · intro i h1 h2
    simp [blockRow, blockAt]

theorem blockCol_eq (x : Block) (c : Fin 8) : blockCol x c.val = (List.finRange 8).map fun i => blockAt x i c := by
  apply List.ext_getElem
  · simp [blockCol]
  · intro i h1 h2
    have : i < 8 := by simpa [blockCol] using h1
    have : 8 * i + c.val < 64 := by omega
    simp [blockCol, blockAt, this]

theorem dot_map (f g : Fin 8 → Int) :
    dot ((List.finRange 8).map f) ((List.finRange 8).map g) = ((List.finRange 8).map fun i => f i * g i).sum := by
  unfold dot
  rw [List.zipWith_map]
  simp [List.zipWith_self]

/-- The matrix product, element by element (00_scope.md R10). -/
theorem blockAt_matMul (a b : Block) (r c : Fin 8) :
    blockAt (matMul a b) r c = ((List.finRange 8).map fun i => blockAt a r i * blockAt b i c).sum := by
  have h1 : (8 * r.val + c.val) / 8 = r.val := by omega
  have h2 : (8 * r.val + c.val) % 8 = c.val := by omega
  rw [← dot_map, ← blockRow_eq, ← blockCol_eq]
  unfold matMul blockAt
  simp only [Vector.getElem_ofFn, h1, h2]

/-- `fwd(X)`, element by element (R554). -/
theorem blockAt_fwd (m : Vector Trit 64) (x : Block) (r c : Fin 8) :
    blockAt (fwd m x) r c
      = sat32 (asr (blockAt (matMul (matMul (basisBlock m) x) (transpose (basisBlock m))) r c) 3) := by
  simp [fwd]

/-- `inv(X)`, element by element (R555). -/
theorem blockAt_inv (m : Vector Trit 64) (x : Block) (r c : Fin 8) :
    blockAt (inv m x) r c
      = sat16 (asr (blockAt (matMul (matMul (transpose (basisBlock m)) x) (basisBlock m)) r c) 3) := by
  simp [inv]

theorem sat32_range (v : Int) : -2147483648 ≤ sat32 v ∧ sat32 v ≤ 2147483647 := by
  unfold sat32 clampInt; omega

theorem sat16_range (v : Int) : -32768 ≤ sat16 v ∧ sat16 v ≤ 32767 := by
  unfold sat16 clampInt; omega

theorem fwd_range (m : Vector Trit 64) (x : Block) (i : Fin 64) :
    -2147483648 ≤ (fwd m x)[i] ∧ (fwd m x)[i] ≤ 2147483647 := by
  simpa [fwd] using sat32_range _

theorem inv_range (m : Vector Trit 64) (x : Block) (i : Fin 64) :
    -2147483648 ≤ (inv m x)[i] ∧ (inv m x)[i] ≤ 2147483647 := by
  have h : ∀ v, -2147483648 ≤ sat16 v ∧ sat16 v ≤ 2147483647 := fun v => by have := sat16_range v; omega
  simpa [inv] using h _

/-- An element of COEF is a signed 32-bit number. -/
theorem coefBlock_range (s : State) (k : Nat) (i : Fin 64) :
    -2147483648 ≤ (s.coefBlock k)[i] ∧ (s.coefBlock k)[i] ≤ 2147483647 := by
  have h1 := BitVec.le_toInt (s.elem32 (coefAddr k i.val))
  have h2 := BitVec.toInt_lt (x := s.elem32 (coefAddr k i.val))
  have e : (s.coefBlock k)[i] = (s.elem32 (coefAddr k i.val)).toInt := by simp [State.coefBlock]
  rw [e]; norm_num at h1 h2; omega

/-- An element of a staging buffer is a signed 16-bit number. -/
theorem stageBlock_range (s : State) (k : Nat) (i : Fin 64) :
    -32768 ≤ (s.stageBlock k)[i] ∧ (s.stageBlock k)[i] ≤ 32767 := by
  have h1 := BitVec.le_toInt (s.elem16 (stageAddr k (i.val / 8) (i.val % 8)))
  have h2 := BitVec.toInt_lt (x := s.elem16 (stageAddr k (i.val / 8) (i.val % 8)))
  have e : (s.stageBlock k)[i] = (s.elem16 (stageAddr k (i.val / 8) (i.val % 8))).toInt := by simp [State.stageBlock]
  rw [e]; norm_num at h1 h2; omega

/-- A quantized value is no larger than the coefficient. -/
theorem quantize_range (c : Int) {s : Nat} (hs : 1 ≤ s) (hc : -2147483648 ≤ c ∧ c ≤ 2147483647) :
    -2147483648 ≤ quantize c s ∧ quantize c s ≤ 2147483647 := by
  have hq : (c.natAbs + s / 2) / s ≤ c.natAbs := by
    rcases Nat.eq_zero_or_pos c.natAbs with h0 | h0
    · rw [h0, Nat.zero_add]; exact Nat.le_of_eq (Nat.div_eq_of_lt (by omega))
    · rcases Nat.lt_or_ge s 2 with h2 | h2
      · obtain rfl : s = 1 := by omega
        omega
      · refine Nat.le_of_lt_succ ((Nat.div_lt_iff_lt_mul (by omega)).2 ?_)
        have h3 : c.natAbs.succ * s = c.natAbs * s + s := Nat.succ_mul _ _
        have h4 : c.natAbs * 2 ≤ c.natAbs * s := Nat.mul_le_mul_left _ h2
        omega
  unfold quantize
  generalize (c.natAbs + s / 2) / s = q at *
  rcases Int.lt_trichotomy c 0 with h | h | h
  · rw [Int.sign_eq_neg_one_of_neg h]; omega
  · subst h; simp
  · rw [Int.sign_eq_one_of_pos h]; omega

end Sys2Proof.Machine
end

