-- ==== Sys2Proof/Tests/Slice0.lean ====
section
/-! SUPPORT. The model's own tests: what `Instr.wf` refuses, the word of every command written out from 30_encoding.md
R301 and R307, one step of every command with the values of 95_test_vectors.md or worked out by hand from the rules,
and a state and operands that meet the hypotheses of each obligation. -/

namespace Sys2Proof.Tests

open Sys2Proof.Machine

-- One theorem at a time: the kernel evaluations below would otherwise run side by side and add up in memory.
set_option Elab.async false

/-! `Instr.wf` refuses a selector outside its row's range (R306 item 4). -/

theorem test_wf_refuses_plane_3 :
    [Instr.mbView 3, .loadSrc 3, .mcBlock 3].all (fun i => !i.wf) = true := by decide

theorem test_wf_refuses_block_6 :
    [Instr.loadBlk 6, .zeroBlk 6, .fdct8 6, .idct8 6, .quant 6, .dequant 15, .encBlock 6 .stream0].all
      (fun i => !i.wf) = true := by decide

theorem test_wf_takes_the_ranges : (Instr.mbView 2).wf = true ∧ (Instr.quant 5).wf = true ∧ Instr.nop.wf = true := by
  decide

/-! Decoding: one word of every command, from the word column of R307 and the fields of R301. -/

theorem test_decode_frame_commands :
    decode 0x00000000 = .ok .nop ∧ decode 0x00000001 = .ok .init ∧ decode 0x00000110 = .ok (.mbView 1)
      ∧ decode 0x00000211 = .ok (.loadSrc 2) ∧ decode 0x00000012 = .ok .storeRef := ⟨rfl, rfl, rfl, rfl, rfl⟩

theorem test_decode_motion_commands :
    decode 0x00000020 = .ok .meFull ∧ decode 0x00000021 = .ok .meDiamond ∧ decode 0x00000230 = .ok (.mcBlock 2)
      ∧ decode 0x00000031 = .ok .mcFrame ∧ decode 0x00000032 = .ok .residual := ⟨rfl, rfl, rfl, rfl, rfl⟩

theorem test_decode_transform_commands :
    decode 0x00000340 = .ok (.loadBlk 3) ∧ decode 0x00000441 = .ok (.zeroBlk 4) ∧ decode 0x00000042 = .ok (.fdct8 0)
      ∧ decode 0x00000543 = .ok (.idct8 5) ∧ decode 0x00000044 = .ok .fdct16 ∧ decode 0x00000045 = .ok .idct16 :=
  ⟨rfl, rfl, rfl, rfl, rfl, rfl⟩

theorem test_decode_quantizer_commands :
    decode 0x00000050 = .ok .qpScale ∧ decode 0x00000251 = .ok (.quant 2) ∧ decode 0x00000152 = .ok (.dequant 1) :=
  ⟨rfl, rfl, rfl⟩

theorem test_decode_entropy_commands :
    decode 0x00001060 = .ok (.encBlock 0 .stream1) ∧ decode 0x00000560 = .ok (.encBlock 5 .stream0)
      ∧ decode 0x00001061 = .ok (.encMv .stream1) ∧ decode 0x00001062 = .ok (.encMb .stream1) :=
  ⟨rfl, rfl, rfl, rfl⟩

theorem test_decode_stream_commands :
    decode 0x00000070 = .ok (.bsClear .stream0) ∧ decode 0x00001071 = .ok (.bsWriteBits .stream1)
      ∧ decode 0x00000072 = .ok (.bsWriteByte .stream0) ∧ decode 0x00001073 = .ok (.bsFlush .stream1) :=
  ⟨rfl, rfl, rfl, rfl⟩

theorem test_decode_rate_and_encoder_commands :
    decode 0x00000080 = .ok .rcFrameType ∧ decode 0x00000081 = .ok .rcChooseQp ∧ decode 0x00000090 = .ok .encodeFrame :=
  ⟨rfl, rfl, rfl⟩

/-- ER2 to ER7: each kind of illegal word, rejected by its name. -/
theorem test_decode_illegal_words :
    decode 0x00000013 = .error .reservedOpcode ∧ decode 0x00002000 = .error .reservedBits
      ∧ decode 0x00001000 = .error .streamUnused ∧ decode 0x00000100 = .error .selOutOfRange
      ∧ decode 0x00000640 = .error .selOutOfRange ∧ decode 0x00000310 = .error .selOutOfRange :=
  ⟨rfl, rfl, rfl, rfl, rfl, rfl⟩

/-! Small states. -/

/-- A core with a w × h geometry and nothing written. -/
def frameState (w h : Nat) : State := { State.reset with geomValid := true, geom := geometryOf w h }

/-- The bytes of a list from an address on. -/
def bytesAt (a : Nat) (bs : List Byte) : List Host.Cell := bs.mapIdx fun i b => (a + i, b)

/-- What a state-valued test asks of the state a command leaves. -/
def after (o : Host.Outcome State Fault Refusal) (f : State → Bool) : Bool :=
  match o with
  | .next s => f s
  | .fault _ => false
  | .refused _ => false

/-- A core whose streams hold `cap` bytes. -/
def withCap (cap : Nat) : State := State.resetWith { Config.params with streamCap := cap }

/-- The core with a command word running and nothing scheduled. -/
def busyWith (w : Word) (s : State) : State := { s with lastCmd := w, running := some { word := w, ctrl := s.ctrl } }

/-! One step of every command. -/

theorem test_nop_sets_done : after (exec .nop State.reset) (fun t => t.statusWord == 0x2) = true := by decide +kernel

/-- FM1. -/
theorem test_init_geometry :
    after (exec .init { State.reset with cfg := { State.reset.cfg with width := 64, height := 64, qp := 10 } })
      (fun t => decide (t.geom = ⟨64, 64, 4, 4, 64, 32, 32, 32, 4096, 5120⟩) && t.geomValid && t.rc.qp == 10) = true := by
  decide +kernel

/-- FM5: 4096 × 2732 is one row too many. -/
theorem test_init_bad_geometry :
    after (exec .init { State.reset with
        refValid := true, cfg := { State.reset.cfg with width := 4096, height := 2732 } })
      (fun t => t.statusWord == 0x00010506 && decide (t.geom = Geometry.zero)) = true := by decide +kernel

/-- FM7. -/
theorem test_mb_view_u :
    after (exec (.mbView 1) { frameState 64 64 with args := { State.reset.args with mbx := 3, mby := 1 } })
      (fun t => decide (t.res = #v[24, 8, 8, 8, 1, 32, 4376, 0])) = true := by decide +kernel

/-- FM9: a valid and empty chroma view. -/
theorem test_mb_view_empty_chroma :
    after (exec (.mbView 2) { frameState 17 17 with args := { State.reset.args with mbx := 1 } })
      (fun t => decide (t.res = #v[8, 0, 0, 8, 1, 16, 680, 0])) = true := by decide +kernel

/-- A 2 × 1 frame: two samples go to RESID, the element beside them keeps its 7 (as FM11). -/
theorem test_load_src_keeps_the_tail :
    after (exec (.loadSrc 0) ((frameState 2 1).storeCells
        (bytesAt 0x01000000 [16, 200] ++ bytesAt 0x04000100 [7, 7, 7, 7, 7, 0])))
      (fun t => t.elem16 0x04000100 == 16 && t.elem16 0x04000102 == 200 && t.elem16 0x04000104 == 7) = true := by
  decide +kernel

/-- FM13 on a 2 × 2 frame: one U and one V sample, each in its own plane. -/
theorem test_store_ref_copies_planes :
    after (exec .storeRef ((frameState 2 2).storeCells (bytesAt 0x01000000 [1, 2] ++ bytesAt 0x01000010 [3, 4]
        ++ bytesAt 0x01000020 [5] ++ bytesAt 0x01000030 [6])))
      (fun t => t.readByte 0x02000000 == 1 && t.readByte 0x02000011 == 4 && t.readByte 0x02000020 == 5
        && t.readByte 0x02000030 == 6 && t.refValid) = true := by decide +kernel

/-- An 18 × 1 frame whose block of MB 0 stands two samples to the right in REF. -/
def shiftedFrames : State :=
  { (frameState 18 1).storeCells
      (bytesAt 0x02000000 [9, 8, 0, 1, 4, 9, 16, 25, 36, 49, 64, 81, 100, 121, 144, 169, 196, 225]
        ++ bytesAt 0x01000000 [0, 1, 4, 9, 16, 25, 36, 49, 64, 81, 100, 121, 144, 169, 196, 225, 5, 6]) with
    cfg := { State.reset.cfg with range := 2 } }

theorem test_me_full_finds_the_shift :
    after (exec .meFull shiftedFrames) (fun t => decide (t.res = #v[2, 0, 0, 0, 0, 0, 0, 0])) = true := by decide +kernel

/-- ME1 and ME3 on a flat 18 × 1 frame, MB 1: the first zero-cost candidate in scan order, and (0, 0). -/
theorem test_flat_frame_ties :
    let s := { (frameState 18 1).storeCells
        (bytesAt 0x02000000 (List.replicate 18 9) ++ bytesAt 0x01000000 (List.replicate 18 9)) with
      cfg := { State.reset.cfg with range := 4 }, args := { State.reset.args with mbx := 1 } }
    after (exec .meFull s) (fun t => t.res[0] == 0xFFFFFFFC && t.res[1] == 0 && t.res[2] == 0) = true
      ∧ after (exec .meDiamond s) (fun t => t.res[0] == 0 && t.res[1] == 0 && t.res[2] == 0) = true := by
  decide +kernel

/-- The diamond search moves by its step 2, then by nothing better. -/
theorem test_me_diamond_moves :
    after (exec .meDiamond shiftedFrames) (fun t => decide (t.res = #v[2, 0, 0, 0, 0, 0, 0, 0])) = true := by
  decide +kernel

/-- ME6. -/
theorem test_me_sentinel :
    after (exec .meFull { frameState 16 16 with args := { State.reset.args with mbx := 3 } })
      (fun t => t.res[0] == 0 && t.res[1] == 0 && t.res[2] == 0xFFFFFFFF && !t.err) = true := by decide +kernel

/-- MC1's clamp on an 18 × 1 frame: MB 1 is two samples wide, so its origin is at most 16. -/
theorem test_mc_block_clamps :
    after (exec (.mcBlock 0) { shiftedFrames with args := { State.reset.args with mbx := 1, mvx := 5, mvy := -3 } })
      (fun t => t.readByte 0x04000000 == 196 && t.readByte 0x04000001 == 225 && t.readByte 0x04000002 == 0) = true := by
  decide +kernel

/-- One macroblock of a 2 × 2 frame is the whole plane, so any vector is clamped to (0, 0): PRED is REF. -/
theorem test_mc_frame_copies :
    after (exec .mcFrame ((frameState 2 2).storeCells (bytesAt 0x02000000 [1, 2] ++ bytesAt 0x02000010 [3, 4]
        ++ bytesAt 0x02000020 [5] ++ bytesAt 0x02000030 [6] ++ bytesAt 0x05000000 [0xFD, 0xFF, 3, 0])))
      (fun t => t.readByte 0x03000000 == 1 && t.readByte 0x03000011 == 4 && t.readByte 0x03000020 == 5
        && t.readByte 0x03000030 == 6) = true := by decide +kernel

/-- MC_FRAME halves a vector of 3 to 1 for chroma (R502): a 36 × 1 luma row has its chroma row in no sample, so the halving
itself is tested. -/
theorem test_chroma_vector_truncates : planeVector .u (-3, 3) = (-1, 1) ∧ planeVector .y (-3, 3) = (-3, 3) := by decide

/-- MC5. -/
theorem test_residual_is_signed :
    after (exec .residual ((frameState 1 1).storeCells [(0x01000000, 200), (0x04000000, 255)]))
      (fun t => t.elem16 0x04000100 == 0xFFC9) = true := by decide +kernel

/-- T12. -/
theorem test_load_blk_sign_extends :
    after (exec (.loadBlk 1) (State.reset.storeCells (bytesAt 0x04000110 [0xFD, 0xFF])))
      (fun t => t.elem32 0x04000500 == 0xFFFFFFFD) = true := by decide +kernel

/-- T13, on one element. -/
theorem test_zero_blk : after (exec (.zeroBlk 4) (State.reset.storeCells (bytesAt 0x04000800 [1, 2, 3, 4])))
    (fun t => t.elem32 0x04000800 == 0) = true := by decide +kernel

/-- T7: floor of -1/8 is -1 in every element (C_EX). -/
theorem test_fdct8_floors :
    let x := fwd Config.basis (zeroBlock.set 0 (-1))
    x[0] = -1 ∧ x[63] = -1 := by decide +kernel

/-- T5, from its one nonzero element (C_EX). -/
theorem test_idct8_of_dc :
    after (exec (.idct8 0) (State.reset.storeCells (bytesAt 0x04000400 [0xF8, 7, 0, 0])))
      (fun t => t.elem32 0x04000400 == 255 && t.elem32 0x040004FC == 255) = true := by decide +kernel

/-- Q1, Q3, Q4. -/
theorem test_qp_scale_ends :
    [(0xFFFFFFFF#32, 1#32), (50, 314), (51, 256), (0x7FFFFFFF, 256)].all (fun q =>
      after (exec .qpScale { State.reset with args := { State.reset.args with qp := q.1 } })
        (fun t => t.res[0] == q.2)) = true := by decide +kernel

/-- Q6: halves round away from zero. -/
theorem test_quant_rounds_away :
    after (exec (.quant 0) { State.reset.storeCells (cells32 0x04000400 5 ++ cells32 0x04000404 (-7)) with
        args := { State.reset.args with qp := 4 } })
      (fun t => t.elem32 0x04000400 == 3 && t.elem32 0x04000404 == -4) = true := by decide +kernel

/-- Q12: saturation on one side only. -/
theorem test_dequant_saturates :
    after (exec (.dequant 0) { State.reset.storeCells (cells32 0x04000400 8388608 ++ cells32 0x04000404 (-8388608)) with
        args := { State.reset.args with qp := 51 } })
      (fun t => t.elem32 0x04000400 == 0x7FFFFFFF && t.elem32 0x04000404 == 0x80000000) = true := by decide +kernel

/-- EN2. -/
theorem test_enc_block_bytes :
    after (exec (.encBlock 0 .stream1) (State.reset.storeCells (cells32 0x04000400 5)))
      (fun t => t.res[0] == 42 && t.bs1Bits == 42
        && decide (t.streamBytes .stream1 = [0x50, 0x00, 0xFE, 0x05, 0x00, 0x00])) = true := by decide +kernel

/-- EN8: level 4096 is written as 0. -/
theorem test_enc_block_truncates_levels :
    after (exec (.encBlock 0 .stream0) (State.reset.storeCells (cells32 0x04000400 4096)))
      (fun t => decide (t.streamBytes .stream0 = [0x00, 0x00, 0xFE, 0x05, 0x00, 0x00])) = true := by decide +kernel

/-- EN12. -/
theorem test_enc_mv_bytes :
    after (exec (.encMv .stream0) { State.reset with args := { State.reset.args with mvx := -4, mvy := 3 } })
      (fun t => t.res[0] == 32 && decide (t.streamBytes .stream0 = [0xFC, 0xFF, 0x03, 0x00])) = true := by decide +kernel

/-- EN15's first bytes: the vector comes first. -/
theorem test_enc_mb_of_p :
    after (exec (.encMb .stream1) { State.reset with args := { State.reset.args with mvx := -4, mvy := 3, ftype := 1 } })
      (fun t => t.res[0] == 182 && decide ((t.streamBytes .stream1).take 6 = [0xFC, 0xFF, 0x03, 0x00, 0x0F, 0x03])) =
      true := by decide +kernel

/-- BS10. -/
theorem test_bs_clear : after (exec (.bsClear .stream0) { State.reset with bs0Bits := 64, bs1Bits := 3 })
    (fun t => t.bs0Bits == 0 && t.bs1Bits == 3) = true := by decide +kernel

/-- BS2, from the state after BS1. -/
theorem test_bs_write_bits_crosses_a_byte :
    after (exec (.bsWriteBits .stream0) { State.reset.storeCells [(0x06000000, 5)] with
        bs0Bits := 3, args := { State.reset.args with value := 0xFF, nbits := 6 } })
      (fun t => t.bs0Bits == 9 && decide (t.streamBytes .stream0 = [0xFD, 0x01])) = true := by decide +kernel

/-- BS7. -/
theorem test_bs_write_bits_bad_arg :
    after (exec (.bsWriteBits .stream0) { State.reset with args := { State.reset.args with nbits := 33 } })
      (fun t => t.statusWord == 0x00710206 && t.bs0Bits == 0) = true := by decide +kernel

/-- BS3, from the state after BS2. -/
theorem test_bs_write_byte_aligns :
    after (exec (.bsWriteByte .stream0) { State.reset.storeCells (bytesAt 0x06000000 [0xFD, 0x01]) with
        bs0Bits := 9, args := { State.reset.args with value := 0xAB } })
      (fun t => t.bs0Bits == 24 && decide (t.streamBytes .stream0 = [0xFD, 0x01, 0xAB])) = true := by decide +kernel

/-- BS5, from the last byte of BS4: the padding bits are 0. -/
theorem test_bs_flush_pads :
    after (exec (.bsFlush .stream0) { State.reset.storeCells [(0x06000000, 1)] with bs0Bits := 1 })
      (fun t => t.bs0Bits == 8 && decide (t.streamBytes .stream0 = [1])) = true := by decide +kernel

/-- RC1. -/
theorem test_rc_frame_type :
    [(0#32, 0#32), (29, 1), (30, 0), (59, 1), (60, 0)].all (fun q =>
      after (exec .rcFrameType { State.reset with
          cfg := { State.reset.cfg with gop := 30 }, args := { State.reset.args with frameId := q.1 } })
        (fun t => t.res[0] == q.2)) = true := by decide +kernel

/-- RC4 to RC7. -/
theorem test_rc_choose_qp :
    [(40001#32, 22#32), (40000, 20), (26666, 19), (26667, 20)].all (fun q =>
      after (exec .rcChooseQp { State.reset with
          cfg := { State.reset.cfg with targetKbps := 1000, fps := 30 }, rc := { State.reset.rc with qp := 20 },
          args := { State.reset.args with bitsUsed := q.1 } })
        (fun t => t.res[0] == q.2 && t.rc.lastBits == q.1)) = true := by decide +kernel

/-- RC13: inverted bounds give the upper one. -/
theorem test_rc_choose_qp_inverted_bounds :
    after (exec .rcChooseQp { State.reset with
        cfg := { State.reset.cfg with targetKbps := 1000, fps := 30, qpMin := 30, qpMax := 20 },
        rc := { State.reset.rc with qp := 25 }, args := { State.reset.args with bitsUsed := 30000 } })
      (fun t => t.res[0] == 20) = true := by decide +kernel

/-- A 1 × 1 frame set up as EF1: one macroblock, CUR 0. -/
def oneSample : State :=
  { (frameState 1 1).storeCells [(0x01000000, 0)] with
    cfg := { State.reset.cfg with qp := 10, gop := 30, fps := 30, targetKbps := 1000 },
    rc := { State.reset.rc with qp := 10 } }

/-- EF1's results, from the state its steps 1 to 5 leave: stream 1 flushed at 152 bits (R807, R808, R809). -/
theorem test_encode_frame_commit :
    let t := commitFrame .i { oneSample with bs1Bits := 152 }
    t.res = #v[0, 0, 19, 9, 0, 0, 0, 0] ∧ t.rc.lastBits = 152 ∧ t.refValid = true ∧ t.fr.qp = 10
      ∧ t.readByte 0x02000000 = 0 := by decide +kernel

/-- EF3: a P-frame without a reference. -/
theorem test_encode_frame_no_ref :
    after (exec .encodeFrame { oneSample with args := { State.reset.args with frameId := 1 } })
      (fun t => t.statusWord == 0x0090060E && t.bs0Bits == 0 && decide (t.mem = oneSample.mem)) = true := by
  decide +kernel

/-- ER1, ER2 and ER5: STATUS after the engine's move on each word, from the reset state. -/
theorem test_error_words :
    [(0x00000020#32, 0x00200406#32), (0x00000013, 0x00130106), (0x00000640, 0x00400106), (0x00001060, 0x00000002)].all
      (fun q => after (step (busyWith q.1 State.reset)) (fun t => t.statusWord == q.2)) = true := by decide +kernel

/-- ER9: a write of ARG_MBX in the window is lost and records BUSY with the running command's opcode. -/
theorem test_busy_write :
    after (step { busyWith 0x00000090 State.reset with schedule := [.access (.write .w32 0x080 7)] })
      (fun t => t.statusWord == 0x00900305 && t.args.mbx == 0) = true := by decide +kernel

/-- A write of STATUS in the window that writes no 1 to bit 1 or 2 is lost and records BUSY; one that does clears ERR. -/
theorem test_busy_status_write :
    let s := { busyWith 0x00000090 State.reset with done := true }
    after (step { s with schedule := [.access (.write .w32 0x00C 0xFFFFFFF9)] }) (fun t => t.statusWord == 0x00900307)
      = true
    ∧ after (step { s with err := true, errCode := 3, errOpc := 0x90, schedule := [.access (.write .w32 0x00C 4)] })
        (fun t => t.statusWord == 0x00000003) = true := by decide +kernel

/-- A halfword written across the end of a one-byte stream: the byte inside is stored, the one outside ignored. -/
theorem test_straddling_write :
    after (step { withCap 1 with schedule := [.access (.write .w16 0x06000000 0x0201)] })
      (fun t => decide (t.mem = [(0x06000000, 1)])) = true := by decide +kernel

/-- P6: the interrupt line follows DONE and IE_DONE. -/
theorem test_irq : after (step { busyWith 0 State.reset with ctrl := 3 })
    (fun t => t.irq && t.statusWord == 0x22) = true := by decide +kernel

/-- Section 2 of the vectors: BASIS0, BASIS3, ZIGZAG0 and ZIGZAG5. -/
theorem test_parameter_mirrors :
    State.reset.regValue (.basis 0) = 0xDDDD5555 ∧ State.reset.regValue (.basis 3) = 0xD77D5FF5
      ∧ State.reset.regValue (.zigzag 0) = 0x10080100 ∧ State.reset.regValue (.zigzag 5) = 0x22293028 := by
  decide +kernel

/-! A state and operands that meet the hypotheses of each obligation that has any, for each of its clauses. -/

/-- A 1 × 1 frame with REF_VALID = 1 and nothing written. -/
def refState : State := { frameState 1 1 with refValid := true }

theorem witness_inv_reset : State.reset.Inv :=
  ⟨by decide, by decide +kernel, by decide, by decide, by decide, by decide, by decide, by decide⟩

theorem witness_inv_frame : (frameState 1 1).Inv ∧ (frameState 1 1).geomValid = true :=
  ⟨⟨by decide, by decide +kernel, by decide +kernel, by decide, by decide, by decide, by decide, by decide⟩, rfl⟩

theorem witness_inv_ref : refState.Inv ∧ refState.geomValid = true ∧ refState.refValid = true :=
  ⟨⟨by decide, by decide +kernel, by decide +kernel, by decide, by decide, by decide, by decide, by decide⟩, rfl, rfl⟩

/-- A core whose streams hold one byte. -/
theorem witness_inv_cap : (withCap 1).Inv :=
  ⟨by decide, by decide +kernel, by decide, by decide, by decide, by decide, by decide, by decide⟩

/-- The one-byte core with both streams full. -/
def fullCap : State := { withCap 1 with bs0Bits := 8, bs1Bits := 8 }

theorem witness_inv_full : fullCap.Inv :=
  ⟨by decide, by decide +kernel, by decide, by decide, by decide, by decide, by decide, by decide⟩

theorem witness_decode_of_encode :
    (Instr.mbView 0).wf = true ∧ (Instr.mbView 2).wf = true ∧ (Instr.quant 5).wf = true
      ∧ (Instr.encBlock 5 .stream1).wf = true := by decide

theorem witness_decoded_word : decode 0x00001560 = .ok (.encBlock 5 .stream1) := rfl

theorem witness_illegal_words :
    illegalWord 0x000000FF ∧ illegalWord 0x00002000 ∧ illegalWord 0x00001000 ∧ illegalWord 0x00000310
      ∧ illegalWord 0x00000640
      ∧ (busyWith 0xFF State.reset).rst = false ∧ (busyWith 0xFF State.reset).schedule = []
      ∧ (busyWith 0xFF State.reset).running = some { word := 0xFF, ctrl := 0 }
      ∧ { busyWith 0xFF State.reset with schedule := [.engine] }.schedule = .engine :: [] :=
  ⟨by unfold illegalWord; decide, by unfold illegalWord; decide, by unfold illegalWord; decide,
    by unfold illegalWord; decide, by unfold illegalWord; decide, rfl, rfl, rfl, rfl⟩

theorem witness_step_runs :
    (busyWith 0x90 State.reset).rst = false
      ∧ (busyWith 0x90 State.reset).running = some { word := 0x90, ctrl := 0 } ∧ decode 0x90 = .ok .encodeFrame
      ∧ (busyWith 0x90 State.reset).schedule = []
      ∧ { busyWith 0x90 State.reset with schedule := [.engine] }.schedule = .engine :: []
      ∧ Instr.encodeFrame.wf = true := ⟨rfl, rfl, rfl, rfl, rfl, rfl⟩

/-- A word accepted, two accesses in its BUSY window, the engine's turn and one more turn with nothing to run. -/
theorem witness_accepted_word :
    let window := [Access.read .w32 0x00C, .write .w32 0x010 0]
    let s := { State.reset with
      schedule := .access (.write .w32 0x010 0x20) :: (window.map Event.access ++ Event.engine :: [Event.engine]) }
    s.rst = false ∧ s.running = none ∧ decode 0x20 = .ok .meFull ∧ (∀ i, decode 0x13 ≠ .ok i)
      ∧ s.schedule
          = .access (.write .w32 0x010 0x20) :: (window.map Event.access ++ Event.engine :: [Event.engine])
      ∧ { State.reset with schedule := [.engine] }.schedule = .engine :: []
      ∧ State.reset.rst = false ∧ State.reset.running = none ∧ State.reset.schedule = [] :=
  ⟨rfl, rfl, rfl, (fun _ h => by cases h), rfl, rfl, rfl, rfl, rfl⟩

theorem witness_every_command :
    (Instr.bsWriteBits .stream0).wf = true ∧ (Instr.mbView 3).wf = false ∧ (Instr.loadBlk 6).wf = false := by decide

theorem witness_refused :
    (Instr.mbView 3).wf = false ∧ (Instr.dequant 15).wf = false ∧ Instr.encodeFrame.wf = true
      ∧ needsGeometry .encodeFrame = true ∧ State.reset.geomValid = false := by decide

theorem witness_step_invariant :
    State.reset.Inv ∧ step State.reset = .next State.reset
      ∧ ∀ c ∈ State.reset.mem, InMemoryRegion State.reset.params.streamCap c.1 :=
  ⟨witness_inv_reset, rfl, fun c h => by cases h⟩

/-- A memory that lists the last byte of stream 1, and none outside the regions. -/
theorem witness_stores_stay :
    (State.reset.storeCells [(0x07FFFFFF, 1)]).Inv
      ∧ ∀ c ∈ (State.reset.storeCells [(0x07FFFFFF, 1)]).mem, InMemoryRegion State.reset.params.streamCap c.1 := by
  refine ⟨⟨by decide, by decide +kernel, by decide, by decide, by decide, by decide, by decide, by decide⟩, ?_⟩
  unfold InMemoryRegion; decide +kernel

theorem witness_params :
    Config.params.wf = true ∧ { Config.params with streamCap := 1 }.wf = true
      ∧ { Config.params with streamCap := 0x01000000 }.wf = true := by decide +kernel

theorem witness_rst :
    let s := { State.reset with rst := true }
    s.rst = true ∧ { s with schedule := [.engine] }.schedule = .engine :: []
      ∧ { s with schedule := [.rst false] }.schedule = .rst false :: []
      ∧ { s with schedule := [.rst true] }.schedule = .rst true :: []
      ∧ { s with schedule := [.access (.read .w32 0)] }.schedule = .access (.read .w32 0) :: [] :=
  ⟨rfl, rfl, rfl, rfl, rfl⟩

/-- An idle core about to see one access. -/
def withAccess (a : Access) : State := { State.reset with schedule := [.access a] }

/-- The boundaries of R202: the last register word, a byte of it, an odd halfword, the last byte of MVARR. -/
theorem witness_disallowed :
    (withAccess (.read .w8 0xFFC)).rst = false ∧ (0xFFC#32).toNat < 0x1000
      ∧ ¬ allowedByR202 .w8 0xFFC ∧ ¬ allowedByR202 .w32 0xFFE ∧ allowedByR202 .w32 0xFFC
      ∧ InMemoryRegion State.reset.params.streamCap 0x01000001 ∧ ¬ allowedByR202 .w16 0x01000001
      ∧ InMemoryRegion State.reset.params.streamCap 0x05FFFFFF ∧ allowedByR202 .w8 0x05FFFFFF := by
  unfold allowedByR202 InMemoryRegion; decide +kernel

/-- An unlisted offset, the first byte above COEF, and the first address above the last stream. -/
theorem witness_unmapped :
    (withAccess (.write .w32 0x014 1)).rst = false ∧ (withAccess (.write .w32 0x014 1)).running = none
      ∧ allowedByR202 .w32 0x014 ∧ (∀ q ∈ registerMap, q.2 ≠ (0x014#32).toNat)
      ∧ allowedByR202 .w8 0x04000A00
      ∧ (∀ j < Width.w8.bytes, ¬ InMemoryRegion State.reset.params.streamCap (0x04000A00 + j))
      ∧ allowedByR202 .w32 0x08000000
      ∧ ∀ j < Width.w32.bytes, ¬ InMemoryRegion State.reset.params.streamCap (0x08000000 + j) := by
  refine ⟨rfl, rfl, ?_, ?_, ?_, ?_, ?_, ?_⟩ <;> (try unfold allowedByR202) <;> (try unfold InMemoryRegion) <;> decide +kernel

/-- The BUSY window: its kinds of access, with the first memory address above REGS, a write of STATUS whose bits 1 and 2
are 0 (one of the other writes) and two that write a 1 there. -/
theorem witness_busy_window :
    (busyWith 0x90 State.reset).rst = false
      ∧ (busyWith 0x90 State.reset).running = some { word := 0x90, ctrl := 0 }
      ∧ { busyWith 0x90 State.reset with schedule := [.access (.read .w32 Reg.status.addr)] }.schedule
          = .access (.read .w32 Reg.status.addr) :: []
      ∧ 0x1000 ≤ (0x1000#32).toNat ∧ allowedByR202 .w8 0x1000
      ∧ ((2#32).getLsbD 1 = true ∨ (2#32).getLsbD 2 = true) ∧ ((4#32).getLsbD 1 = true ∨ (4#32).getLsbD 2 = true)
      ∧ (¬ ((0x00C#32).toNat = 0x00C ∧ ((0xFFFFFFF9#32).getLsbD 1 = true ∨ (0xFFFFFFF9#32).getLsbD 2 = true))
        ∧ (0x00C#32).toNat ≠ 0x008 ∧ allowedByR202 .w32 0x00C)
      ∧ (0x010#32).toNat ≠ 0x00C ∧ (0x010#32).toNat ≠ 0x008 ∧ allowedByR202 .w32 0x010
      ∧ (0x01000000#32).toNat ≠ 0x00C ∧ allowedByR202 .w16 0x01000000 := by
  unfold allowedByR202; decide +kernel

/-- The last byte of a full stream, the word that starts CUR, and a halfword that straddles the end of a one-byte stream:
its first byte lies in the region and its second does not. -/
theorem witness_host_memory :
    (withAccess (.write .w8 0x06FFFFFF 1)).rst = false ∧ (withAccess (.write .w8 0x06FFFFFF 1)).running = none
      ∧ 0x1000 ≤ (0x06FFFFFF#32).toNat ∧ (0x06FFFFFF#32).toNat % Width.w8.bytes = 0
      ∧ InMemoryRegion State.reset.params.streamCap 0x06FFFFFF ∧ (0x01000000#32).toNat % Width.w32.bytes = 0
      ∧ (∀ j < Width.w32.bytes, InMemoryRegion State.reset.params.streamCap (0x01000000 + j))
      ∧ (0x06000000#32).toNat % Width.w16.bytes = 0 ∧ InMemoryRegion (withCap 1).params.streamCap 0x06000000
      ∧ ¬ InMemoryRegion (withCap 1).params.streamCap 0x06000001 := by
  refine ⟨rfl, rfl, ?_, ?_, ?_, ?_, ?_, ?_, ?_, ?_⟩ <;> (try unfold InMemoryRegion) <;> decide +kernel

theorem witness_register_writes :
    (withAccess (.write .w32 Reg.rcQp.addr 0x1FF)).rst = false
      ∧ (withAccess (.write .w32 Reg.rcQp.addr 0x1FF)).running = none ∧ (Reg.rcQp, 8) ∈ rwRegs
      ∧ (Reg.argFtype, 1) ∈ rwRegs ∧ (Reg.argMbx, 32) ∈ rwRegs ∧ (∀ n, (Reg.bsCap, n) ∉ rwRegs)
      ∧ Reg.bsCap ≠ .ctrl ∧ Reg.bsCap ≠ .status ∧ Reg.bsCap ≠ .cmd := by
  refine ⟨rfl, rfl, by decide, by decide, by decide, fun n => ?_, by decide, by decide, by decide⟩
  simp [rwRegs]

/-- A read of memory, and one at a register's offset in the map. -/
theorem witness_host_read :
    (withAccess (.read .w16 0x04000100)).schedule = .access (.read .w16 0x04000100) :: []
      ∧ (Reg.zigzag 15, 0x1FC) ∈ registerMap ∧ (Reg.id, 0x000) ∈ registerMap
      ∧ (withAccess (.read .w32 0x1FC)).rst = false ∧ (withAccess (.read .w32 0x1FC)).running = none
      ∧ (withAccess (.read .w32 0x1FC)).schedule = .access (.read .w32 (BitVec.ofNat 32 0x1FC)) :: [] :=
  ⟨rfl, by decide +kernel, by decide +kernel, rfl, rfl, rfl⟩

/-- INIT's two sides at the frame size: 4096 × 2731 fits 16 MiB exactly, 4096 × 2732 does not (FM4, FM5). -/
theorem witness_init_sizes :
    ¬ (4096 = 0 ∨ 2731 = 0 ∨ 0x01000000 < (4096 + 15) / 16 * 16 * 2731 + 2 * ((4096 / 2 + 15) / 16 * 16) * (2731 / 2))
      ∧ 0x01000000 < (4096 + 15) / 16 * 16 * 2732 + 2 * ((4096 / 2 + 15) / 16 * 16) * (2732 / 2)
      ∧ State.reset.cfg.width.toNat = 0 := by decide

/-- The only macroblock of a 1 × 1 frame, and the first one out of its grid. -/
theorem witness_views :
    (frameState 1 1).Inv ∧ (frameState 1 1).geomValid = true ∧ 0 < (frameState 1 1).geom.mbCols.toNat
      ∧ 0 < (frameState 1 1).geom.mbRows.toNat ∧ ¬ 1 < (frameState 1 1).geom.mbCols.toNat :=
  ⟨witness_inv_frame.1, rfl, by decide, by decide, by decide⟩

theorem witness_plane_selectors :
    (0#4, Plane.y) ∈ [(0#4, Plane.y), (1#4, .u), (2#4, .v)] ∧ (2#4, Plane.v) ∈ [(0#4, Plane.y), (1#4, .u), (2#4, .v)]
      ∧ (2#4, Plane.v, 0x04000380, 8)
          ∈ [(0#4, Plane.y, 0x04000100, 16), (1#4, .u, 0x04000300, 8), (2#4, .v, 0x04000380, 8)]
      ∧ (frameState 1 1).geomValid = true ∧ State.reset.geomValid = false := by decide

/-- Samples of STORE_REF, MC_BLOCK, MC_FRAME and RESIDUAL: the one luma sample of a 1 × 1 frame. -/
theorem witness_samples :
    (frameState 1 1).Inv ∧ 0 < (frameState 1 1).planeW .y ∧ 0 < (frameState 1 1).planeH .y
      ∧ 0 < ((frameState 1 1).view .y 0 0).h ∧ 0 < ((frameState 1 1).view .y 0 0).w :=
  ⟨witness_inv_frame.1, by decide, by decide, by decide, by decide⟩

/-- A macroblock in the grid, and the sentinel's one out of it. -/
theorem witness_motion_search :
    (frameState 1 1).Inv ∧ (frameState 1 1).geomValid = true
      ∧ ((frameState 1 1).view .y 0 0).valid = true ∧ ((frameState 1 1).view .y 1 0).valid = false
      ∧ displacedInFrame (frameState 1 1) ((frameState 1 1).view .y 0 0) 0 0 :=
  ⟨witness_inv_frame.1, rfl, by decide, by decide, by unfold displacedInFrame; decide⟩

/-- A probe of the diamond search that is in bounds: (0, 0) is the probe below the centre (0, -1) at step 1. -/
theorem witness_diamond_probe :
    ((0 : Int), (0 : Int)) ∈ [((0 : Int), (-1 : Int) - 1), (0, -1 + 1)]
      ∧ displacedInFrame (frameState 1 1) ((frameState 1 1).view .y 0 0) 0 0 :=
  ⟨by decide, by unfold displacedInFrame; decide⟩

/-- Identical frames: the one sample of a 1 × 1 frame is 9 in CUR and in REF. -/
theorem witness_identical_frames :
    let s := (frameState 1 1).storeCells [(0x01000000, 9), (0x02000000, 9)]
    (∀ x y, x < s.geom.w.toNat → y < s.geom.h.toNat → s.sample .ref .y x y = s.sample .cur .y x y)
      ∧ (s.view .y s.args.mbx.toNat s.args.mby.toNat).valid = true := by
  refine ⟨fun x y hx hy => ?_, by decide⟩
  have hx' : x < 1 := hx
  have hy' : y < 1 := hy
  obtain rfl : x = 0 := by omega
  obtain rfl : y = 0 := by omega
  decide +kernel

theorem witness_block_selectors : (0#4).toNat ≤ 5 ∧ (5#4).toNat ≤ 5 ∧ ¬ (6#4).toNat ≤ 5 := by decide

/-- C_EX meets the premises of the last clause of `TransformProperties`. -/
theorem witness_orthogonal_basis :
    matMul (basisBlock Config.basis) (transpose (basisBlock Config.basis))
        = blockOf (fun r c => if r = c then 8 else 0)
      ∧ matMul (transpose (basisBlock Config.basis)) (basisBlock Config.basis)
        = blockOf (fun r c => if r = c then 8 else 0) := by decide +kernel

/-- The ends of QP_SCALE's three clauses. -/
theorem witness_qp_scale :
    (0#32).toInt ≤ 0 ∧ (51 : Int) ≤ (51#32).toInt ∧ (1 : Int) ≤ (1#32).toInt ∧ (50#32).toInt ≤ 50
      ∧ (51 : Int) ≤ (0x7FFFFFFF#32).toInt ∧ (0xFFFFFFFF#32).toInt ≤ 0 := by decide

/-- The error bound's premises at their ends: s = 1, the largest |c| for s = 314, and the half of s = 2. -/
theorem witness_quantize :
    1 ≤ 1 ∧ ((2147483490 : Int).natAbs : Int) ≤ 2 ^ 31 - 1 - (314 / 2 : Nat)
      ∧ 2 % 2 = 0 ∧ ((2 : Nat) : Int) ≤ 2 ^ 31 - 1 ∧ (1 : Int) = (2 / 2 : Nat) := by decide

/-- BS_WRITE_BITS: 0 and 33 bits; 8 bits that fill a one-byte stream; 1 bit and 32 bits that do not fit it. -/
theorem witness_bs_write_bits :
    (0 < 1 ∨ 32 < 0) ∧ (33 < 1 ∨ 32 < 33)
      ∧ (((withCap 1).bsBits .stream0).toNat + 8 + 7) / 8 ≤ (withCap 1).params.streamCap
      ∧ (withCap 1).params.streamCap < ((fullCap.bsBits .stream0).toNat + 1 + 7) / 8
      ∧ (withCap 1).params.streamCap < (((withCap 1).bsBits .stream1).toNat + 32 + 7) / 8 := by decide

/-- BS_WRITE_BYTE: a byte that fits a one-byte stream, and one that does not. -/
theorem witness_bs_write_byte :
    (withCap 1).Inv ∧ (((withCap 1).bsBits .stream0).toNat + 7) / 8 + 1 ≤ (withCap 1).params.streamCap
      ∧ fullCap.Inv ∧ fullCap.params.streamCap < ((fullCap.bsBits .stream0).toNat + 7) / 8 + 1 :=
  ⟨witness_inv_cap, by decide, witness_inv_full, by decide⟩

/-- Fields of 1 and 32 bits into an empty stream. -/
theorem witness_fields :
    State.reset.Inv ∧ State.reset.bsBits .stream0 = 0
      ∧ (∀ f ∈ [({ value := 1, width := 1 } : Field), { value := 0xFFFFFFFF, width := 32 }], 1 ≤ f.width ∧ f.width ≤ 32)
      ∧ fieldsWidth [({ value := 1, width := 1 } : Field), { value := 0xFFFFFFFF, width := 32 }]
          ≤ 8 * State.reset.params.streamCap :=
  ⟨witness_inv_reset, rfl, by decide, by decide⟩

theorem witness_overflow :
    (withCap 1).Inv ∧ (withCap 1).params.streamCap
      < (((withCap 1).bsBits .stream1).toNat + fieldsWidth [{ value := 1, width := 8 }, { value := 1, width := 1 }] + 7) / 8 :=
  ⟨witness_inv_cap, by decide⟩

/-- ENC_BLOCK, ENC_MV and ENC_MB: room in an empty stream of 16 MiB, none in a full one of one byte. -/
theorem witness_entropy_room :
    State.reset.Inv ∧ ((State.reset.bsBits .stream0).toNat + 6662 + 7) / 8 ≤ State.reset.params.streamCap
      ∧ fullCap.Inv ∧ fullCap.params.streamCap < ((fullCap.bsBits .stream1).toNat + 25 + 7) / 8 :=
  ⟨witness_inv_reset, by decide, witness_inv_full, by decide⟩

/-- Blocks for the round trip: the zero block (trailing run 64), and EN6's, whose end-of-block run is 15. -/
theorem witness_round_trip :
    Config.zigzag.toList.Nodup ∧ (∀ i : Fin 64, (zeroBlock[i]).natAbs ≤ 4095)
      ∧ 15 ∉ runsBefore 0 (scan Config.zigzag zeroBlock) ∧ trailingRun 0 (scan Config.zigzag zeroBlock) = 64
      ∧ (let x : Block := zeroBlock.set 58 1
        15 ∉ runsBefore 0 (scan Config.zigzag x) ∧ trailingRun 0 (scan Config.zigzag x) = 15) := by
  decide +kernel

/-- EN1: the bytes of the zero block hold its 25 bits from position 0. -/
theorem witness_round_trip_buffer :
    ∀ i < fieldsWidth (blockFields Config.zigzag zeroBlock),
      (fieldBits (blockFields Config.zigzag zeroBlock))[i]? = some (bufBit [0x0F, 0x03, 0x00, 0x00] (0 + i)) := by
  decide +kernel

/-- The stream side of the round trip: COEF is 0 at reset. -/
theorem witness_round_trip_stream :
    State.reset.Inv ∧ State.reset.bsBits .stream1 = 0 ∧ State.reset.params.zigzag = Config.zigzag
      ∧ State.reset.coefBlock 0 = zeroBlock
      ∧ fieldsWidth (blockFields Config.zigzag zeroBlock) ≤ 8 * State.reset.params.streamCap :=
  ⟨witness_inv_reset, rfl, rfl, by decide +kernel, by decide +kernel⟩

/-- Frame types at the ends of a GOP of 30. -/
theorem witness_frame_type :
    (0 = 0 ∨ (0 < 0 ∧ 0 % 0 = 0)) ∧ (30 = 0 ∨ (0 < 30 ∧ 30 % 30 = 0)) ∧ ¬ (29 = 0 ∨ (0 < 30 ∧ 29 % 30 = 0))
      ∧ ¬ (1 = 0 ∨ (0 < 0 ∧ 1 % 0 = 0)) := by decide

/-- ENCODE_FRAME's refusals: no geometry, and frame 1 of a GOP of 30 without a reference. -/
theorem witness_encode_refusals :
    State.reset.geomValid = false ∧ (frameState 1 1).geomValid = true ∧ (frameState 1 1).refValid = false
      ∧ ¬ (1 = 0 ∨ (0 < 30 ∧ 1 % 30 = 0)) := by decide

/-- ENCODE_FRAME that fits: an I-frame (frame 0), and a P-frame (frame 1) with a reference, of one macroblock. -/
theorem witness_encode_frame :
    refState.Inv ∧ refState.geomValid = true ∧ IntraFrame refState ∧ FrameFits refState
      ∧ (∃ u, FrameByCommands refState u)
      ∧ (let p := { refState with args := { refState.args with frameId := 1 } }
        p.refValid = true ∧ ¬ IntraFrame p ∧ FrameFits p ∧ ∃ u, FrameByCommands p u) :=
  ⟨witness_inv_ref.1, rfl, .inl rfl, .inl (by decide),
    ⟨hostFrame hostIntraMb refState, fun _ => rfl, fun h => absurd (.inl rfl) h⟩, rfl, by unfold IntraFrame; decide,
    .inl (by decide), ⟨_, fun h => absurd h (by unfold IntraFrame; decide), fun _ => rfl⟩⟩

/-- The P-frame's state is one the core can be in. -/
theorem witness_encode_predicted : { refState with args := { refState.args with frameId := 1 } }.Inv :=
  ⟨by decide, by decide +kernel, by decide +kernel, by decide, by decide, by decide, by decide, by decide⟩

/-- The 1 × 1 frame with streams of one byte: its first block does not fit. -/
def tiny : State := { oneSample with params := (withCap 1).params }

theorem witness_first_block_overflows :
    (runCommands ([.loadSrc 0, .loadSrc 1, .loadSrc 2] ++ codeBlockCommands 0)
      (withMbArgs (0, 0) (runCommands [.bsClear .stream0, .bsClear .stream1] tiny))).err = true := by decide +kernel

/-- ENCODE_FRAME of a frame that does not fit its streams. -/
theorem witness_encode_overflow : tiny.Inv ∧ tiny.geomValid = true ∧ IntraFrame tiny ∧ ¬ FrameFits tiny := by
  refine ⟨⟨by decide, by decide +kernel, by decide +kernel, by decide, by decide, by decide, by decide, by decide⟩,
    rfl, .inl rfl, ?_⟩
  rintro (h | ⟨u, ⟨h, -⟩, hu⟩)
  · exact absurd h (by decide)
  · have e : { tiny with err := false } = tiny := rfl
    rw [e] at h
    rw [h (.inl rfl), hostFrame_err _ _ (0, 0) (by decide +kernel)
      (hostIntraMb_err _ _ witness_first_block_overflows)] at hu
    cases hu

end Sys2Proof.Tests
end

section
/-! SUPPORT. What keeps the states the core can be in (`State.Inv`): the stream counts under every command
(`KeepsStreams`), the reference flag, the end of a command, a host access and the reset input. -/

namespace Sys2Proof.Machine

/-! The stream counts and the reference flag. -/

/-- Both bit counts are within the capacity (46_bitstream.md R701). -/
def StreamsFit (s : State) : Prop := ∀ st : Stream, (s.bsBits st).toNat ≤ 8 * s.params.streamCap

theorem streamsFit_iff (s : State) : StreamsFit s ↔
    s.bs0Bits.toNat ≤ 8 * s.params.streamCap ∧ s.bs1Bits.toNat ≤ 8 * s.params.streamCap :=
  ⟨fun h => ⟨h .stream0, h .stream1⟩, fun h st => by cases st <;> [exact h.1; exact h.2]⟩

/-- REF_VALID stays, and bit counts within the capacity stay so. -/
structure KeepsStreams (s t : State) : Prop where
  refValid : t.refValid = s.refValid
  fit : StreamsFit s → StreamsFit t

theorem KeepsStreams.refl (s : State) : KeepsStreams s s := ⟨rfl, id⟩

theorem KeepsStreams.trans {s t u : State} (h : KeepsStreams s t) (k : KeepsStreams t u) : KeepsStreams s u :=
  ⟨k.refValid.trans h.refValid, k.fit ∘ h.fit⟩

/-- An update of what is neither a stream count, a capacity nor REF_VALID. -/
theorem update_keepsStreams (s : State) (res : Vector Word 8) (rc : RateControl) (fr : FrameResult) (mem : Memory) :
    KeepsStreams s { s with res := res, rc := rc, fr := fr, mem := mem } :=
  ⟨rfl, id⟩

theorem storeCells_keepsStreams (s : State) (cells : List Host.Cell) : KeepsStreams s (s.storeCells cells) :=
  update_keepsStreams s _ _ _ _

theorem setRes_keepsStreams (s : State) (n : Fin 8) (v : Word) : KeepsStreams s (s.setRes n v) :=
  update_keepsStreams s _ _ _ _

theorem setMotion_keepsStreams (s : State) (m : Motion) : KeepsStreams s (setMotion s m) :=
  update_keepsStreams s _ _ _ _

theorem mbViewResults_keepsStreams (s : State) (p : Plane) : KeepsStreams s (mbViewResults s p) :=
  ((((((setRes_keepsStreams s _ _).trans (setRes_keepsStreams _ _ _)).trans (setRes_keepsStreams _ _ _)).trans
    (setRes_keepsStreams _ _ _)).trans (setRes_keepsStreams _ _ _)).trans (setRes_keepsStreams _ _ _)).trans
    (setRes_keepsStreams _ _ _)

theorem andThen_keepsStreams {s : State} {r : Run} {f : State → Run} (hr : KeepsStreams s r.state)
    (hf : ∀ t, KeepsStreams t (f t).state) : KeepsStreams s (r.andThen f).state :=
  andThen_keeps (R := KeepsStreams) (fun _ _ _ => KeepsStreams.trans) hr hf

theorem forEach_keepsStreams {α : Type} {f : α → State → Run} (hf : ∀ x t, KeepsStreams t (f x t).state) (xs : List α)
    (s : State) : KeepsStreams s (Run.forEach f xs s).state :=
  forEach_keeps KeepsStreams.refl (fun _ _ _ => KeepsStreams.trans) hf xs s

theorem withPlane_keepsStreams (sel : BitVec 4) {s : State} {f : Plane → Run} (hf : ∀ p, KeepsStreams s (f p).state) :
    KeepsStreams s (withPlane sel s f).state := by
  rcases withPlane_cases sel s f with ⟨p, -, -, e⟩ | ⟨-, -, e⟩ <;> rw [e]
  · exact hf p
  · exact KeepsStreams.refl s

theorem withBlock_keepsStreams (sel : BitVec 4) {s : State} {f : Nat → Run} (hf : ∀ k, KeepsStreams s (f k).state) :
    KeepsStreams s (withBlock sel s f).state := by
  rcases withBlock_cases sel s f with ⟨-, -, e⟩ | ⟨-, -, e⟩ <;> rw [e]
  · exact hf _
  · exact KeepsStreams.refl s

theorem withGeometry_keepsStreams {s : State} {r : Run} (hr : KeepsStreams s r.state) :
    KeepsStreams s (withGeometry s r).state := by
  rcases withGeometry_cases s r with ⟨-, e⟩ | ⟨-, e⟩ <;> rw [e]
  · exact hr
  · exact KeepsStreams.refl s

theorem withBitsWritten_keepsStreams (st : Stream) (s t : State) : KeepsStreams t (withBitsWritten st s t).state :=
  setRes_keepsStreams t _ _

/-- A new count within the capacity. -/
theorem setBsBits_keepsStreams (s : State) (st : Stream) {v : Word} (hv : v.toNat ≤ 8 * s.params.streamCap) :
    KeepsStreams s (s.setBsBits st v) := by
  refine ⟨setBsBits_refValid s st v, fun h st' => ?_⟩
  rw [setBsBits_params]
  by_cases hst : st' = st
  · rw [hst, setBsBits_bsBits_self]; exact hv
  · rw [setBsBits_bsBits_other s v hst]; exact h st'

/-- A field is only written when the bytes it needs are within the capacity. -/
theorem emit_keepsStreams (st : Stream) (f : Field) (s : State) : KeepsStreams s (emit st f s).state := by
  rcases emit_cases st f s with ⟨-, he⟩ | ⟨hc, t, he, ht, -⟩ <;> rw [he]
  · exact KeepsStreams.refl s
  · have hv : (nat32 ((s.bsBits st).toNat + f.width)).toNat ≤ 8 * s.params.streamCap := by
      have : (nat32 ((s.bsBits st).toNat + f.width)).toNat ≤ (s.bsBits st).toNat + f.width := by
        simpa [nat32] using Nat.mod_le _ _
      omega
    rw [state_ok, ht]
    exact (setBsBits_keepsStreams s st hv).trans (update_keepsStreams _ _ _ _ _)

theorem emitAll_keepsStreams (st : Stream) (fs : List Field) (s : State) : KeepsStreams s (emitAll st fs s).state :=
  forEach_keepsStreams (emit_keepsStreams st) fs s

theorem align_keepsStreams (st : Stream) (s : State) : KeepsStreams s (align st s).state := by
  unfold align
  simp only
  split
  · exact KeepsStreams.refl s
  · exact emit_keepsStreams st _ s

theorem codeStagedBlock_keepsStreams (scale k : Nat) (s : State) : KeepsStreams s (codeStagedBlock scale k s).state :=
  (((storeCells_keepsStreams s _).trans (storeCells_keepsStreams _ _)).trans (storeCells_keepsStreams _ _)).trans
    (emitAll_keepsStreams .stream1 _ _)

theorem codeZeroBlock_keepsStreams (k : Nat) (s : State) : KeepsStreams s (codeZeroBlock k s).state :=
  (storeCells_keepsStreams s _).trans (emitAll_keepsStreams .stream1 _ _)

theorem encodeIntraMb_keepsStreams (scale : Nat) (mb : Nat × Nat) (s : State) :
    KeepsStreams s (encodeIntraMb scale mb s).state :=
  (((storeCells_keepsStreams s _).trans (storeCells_keepsStreams _ _)).trans (storeCells_keepsStreams _ _)).trans
    (forEach_keepsStreams (codeStagedBlock_keepsStreams scale) _ _)

theorem encodePredictedMb_keepsStreams (diamond : Bool) (scale range : Nat) (mb : Nat × Nat) (s : State) :
    KeepsStreams s (encodePredictedMb diamond scale range mb s).state := by
  refine andThen_keepsStreams ((storeCells_keepsStreams s _).trans (emitAll_keepsStreams .stream0 _ _)) fun t => ?_
  refine andThen_keepsStreams ?_ fun u => forEach_keepsStreams codeZeroBlock_keepsStreams _ _
  exact ((storeCells_keepsStreams t _).trans (storeCells_keepsStreams _ _)).trans
    (forEach_keepsStreams (codeStagedBlock_keepsStreams scale) _ _)

theorem encodeMbs_keepsStreams (t : FrameType) (diamond : Bool) (scale range : Nat) (s : State) :
    KeepsStreams s (encodeMbs t diamond scale range s).state := by
  cases t with
  | i => exact forEach_keepsStreams (encodeIntraMb_keepsStreams scale) _ _
  | p => exact forEach_keepsStreams (encodePredictedMb_keepsStreams diamond scale range) _ _

theorem storeRef_streamsFit {s : State} (h : StreamsFit s) : StreamsFit (storeRef s) := h

/-- The commit of a frame sets REF_VALID and stores no bit. -/
theorem commitFrame_streamsFit (t : FrameType) {s : State} (h : StreamsFit s) : StreamsFit (commitFrame t s) :=
  ((((setRes_keepsStreams _ _ _).trans (setRes_keepsStreams _ _ _)).trans (setRes_keepsStreams _ _ _)).trans
    (setRes_keepsStreams _ _ _)).fit ((update_keepsStreams (storeRef s) _ _ _ _).fit (storeRef_streamsFit h))

/-- Steps 3 to 8 of ENCODE_FRAME keep the streams within their capacity. -/
theorem encodeFrameBody_streamsFit (t : FrameType) (s : State) (h : StreamsFit s) :
    StreamsFit (encodeFrameBody t s).state := by
  have tr : ∀ a b c : State, (StreamsFit a → StreamsFit b) → (StreamsFit b → StreamsFit c) →
      StreamsFit a → StreamsFit c := fun _ _ _ hab hbc => hbc ∘ hab
  have cleared : StreamsFit ((s.setBsBits .stream0 0).setBsBits .stream1 0) := fun st => by
    cases st <;> exact Nat.zero_le _
  have coded := (encodeMbs_keepsStreams t s.snapshotMeMode (qpToScale s.cfg.qp.toNat) s.cfg.range.toNat _).fit cleared
  refine andThen_keeps tr (andThen_keeps tr (andThen_keeps tr (fun _ => coded) ?_) ?_) ?_ h
  · exact fun u => (align_keepsStreams .stream0 u).fit
  · exact fun u => (align_keepsStreams .stream1 u).fit
  · exact fun u => commitFrame_streamsFit t

/-- The three commands that write REF_VALID: INIT, STORE_REF and ENCODE_FRAME
(40_frame_mb.md R403, R407, 48_encoder.md R808). -/
def writesRefValid : Instr → Bool
  | .init => true
  | .storeRef => true
  | .encodeFrame => true
  | _ => false

/-- Every other command keeps REF_VALID and the streams within their capacity. -/
theorem runInstr_keepsStreams (i : Instr) (s : State) (h : writesRefValid i = false) :
    KeepsStreams s (runInstr i s).state := by
  cases i with
  | init | storeRef | encodeFrame => cases h
  | nop => exact KeepsStreams.refl s
  | mbView sel => exact withPlane_keepsStreams sel fun p => withGeometry_keepsStreams (mbViewResults_keepsStreams s p)
  | loadSrc sel => exact withPlane_keepsStreams sel fun p => withGeometry_keepsStreams (storeCells_keepsStreams s _)
  | mcBlock sel => exact withPlane_keepsStreams sel fun p => withGeometry_keepsStreams (storeCells_keepsStreams s _)
  | meFull => exact withGeometry_keepsStreams (setMotion_keepsStreams s _)
  | meDiamond => exact withGeometry_keepsStreams (setMotion_keepsStreams s _)
  | mcFrame => exact withGeometry_keepsStreams (storeCells_keepsStreams s _)
  | residual => exact withGeometry_keepsStreams (storeCells_keepsStreams s _)
  | loadBlk sel => exact withBlock_keepsStreams sel fun k => storeCells_keepsStreams s _
  | zeroBlk sel => exact withBlock_keepsStreams sel fun k => storeCells_keepsStreams s _
  | fdct8 sel => exact withBlock_keepsStreams sel fun k => storeCells_keepsStreams s _
  | idct8 sel => exact withBlock_keepsStreams sel fun k => storeCells_keepsStreams s _
  | quant sel => exact withBlock_keepsStreams sel fun k => storeCells_keepsStreams s _
  | dequant sel => exact withBlock_keepsStreams sel fun k => storeCells_keepsStreams s _
  | fdct16 =>
    exact (((storeCells_keepsStreams s _).trans (storeCells_keepsStreams _ _)).trans
      (storeCells_keepsStreams _ _)).trans (storeCells_keepsStreams _ _)
  | idct16 =>
    exact (((storeCells_keepsStreams s _).trans (storeCells_keepsStreams _ _)).trans
      (storeCells_keepsStreams _ _)).trans (storeCells_keepsStreams _ _)
  | qpScale => exact setRes_keepsStreams s _ _
  | rcFrameType => exact setRes_keepsStreams s _ _
  | rcChooseQp => exact update_keepsStreams s _ _ _ _
  | encBlock sel st =>
    exact withBlock_keepsStreams sel fun k =>
      andThen_keepsStreams (emitAll_keepsStreams st _ s) (withBitsWritten_keepsStreams st s)
  | encMv st => exact andThen_keepsStreams (emitAll_keepsStreams st _ s) (withBitsWritten_keepsStreams st s)
  | encMb st => exact andThen_keepsStreams (emitAll_keepsStreams st _ s) (withBitsWritten_keepsStreams st s)
  | bsClear st => exact setBsBits_keepsStreams s st (Nat.zero_le _)
  | bsWriteByte st => exact andThen_keepsStreams (align_keepsStreams st s) fun t => emit_keepsStreams st _ t
  | bsFlush st => exact align_keepsStreams st s
  | bsWriteBits st =>
    show KeepsStreams s (runBsWriteBits st s).state
    unfold runBsWriteBits
    simp only
    split
    · exact KeepsStreams.refl s
    · exact emit_keepsStreams st _ s

/-! What a command leaves. -/

/-- INIT leaves a legal geometry or none. -/
theorem runInit_geomOk (s : State) : (runInit s).state.geomOk = true := by
  unfold runInit
  split
  · rename_i hl
    have hw : (nat32 s.cfg.width.toNat).toNat = s.cfg.width.toNat := toNat_nat32 (by omega)
    have hh : (nat32 s.cfg.height.toNat).toNat = s.cfg.height.toNat := toNat_nat32 (by omega)
    have bw := s.cfg.width.isLt
    have bh := s.cfg.height.isLt
    have gw : (geometryOf s.cfg.width.toNat s.cfg.height.toNat).w = nat32 s.cfg.width.toNat := rfl
    have gh : (geometryOf s.cfg.width.toNat s.cfg.height.toNat).h = nat32 s.cfg.height.toNat := rfl
    simp only [state_ok, State.geomOk, initDone, if_true, gw, gh, hw, hh, hl, Bool.and_eq_true, decide_eq_true_eq]
    exact ⟨⟨⟨by omega, by omega⟩, trivial⟩, trivial⟩
  · simp [State.geomOk, initFailed]

/-- INIT leaves no reference frame. -/
theorem runInit_refValid (s : State) : (runInit s).state.refValid = false := by
  unfold runInit
  split <;> rfl

theorem runInit_streamsFit (s : State) (h : StreamsFit s) : StreamsFit (runInit s).state := by
  unfold runInit
  split
  · intro st; cases st <;> exact Nat.zero_le _
  · exact h

/-- Every command keeps the streams within their capacity. -/
theorem runInstr_streamsFit (i : Instr) (s : State) (h : StreamsFit s) : StreamsFit (runInstr i s).state := by
  rcases hw : writesRefValid i with _ | _
  · exact (runInstr_keepsStreams i s hw).fit h
  cases i with
  | init => exact runInit_streamsFit s h
  | storeRef =>
    show StreamsFit (runStoreRef s).state
    rcases withGeometry_cases s (.ok (storeRef s)) with ⟨-, e⟩ | ⟨-, e⟩ <;> rw [runStoreRef, e]
    · exact storeRef_streamsFit h
    · exact h
  | encodeFrame =>
    show StreamsFit (runEncodeFrame s).state
    unfold runEncodeFrame withGeometry
    split
    · simp only
      split
      · exact h
      · exact encodeFrameBody_streamsFit _ s h
    · exact h
  | _ => cases hw

/-- Every command leaves a legal geometry or none. -/
theorem runInstr_geomOk (i : Instr) (s : State) (h : s.geomOk = true) : (runInstr i s).state.geomOk = true := by
  by_cases hi : i = .init
  · subst hi; exact runInit_geomOk s
  · have hg := runInstr_sameGeometry i s hi
    simpa only [State.geomOk, hg.geomValid, hg.geom] using h

/-- Without a geometry STORE_REF and ENCODE_FRAME leave the state as it is. -/
theorem runInstr_without_geometry {i : Instr} {s : State} (hi : i = .storeRef ∨ i = .encodeFrame)
    (hv : s.geomValid = false) : (runInstr i s).state = s := by
  rcases hi with rfl | rfl
  · show (withGeometry s _).state = s
    simp [withGeometry, hv]
  · show (withGeometry s _).state = s
    simp [withGeometry, hv]

/-- No command leaves a reference frame without a geometry: INIT leaves none; the others keep GEOM_VALID, and those
that set REF_VALID do nothing while it is 0. -/
theorem runInstr_reference (i : Instr) (s : State) (h : s.refValid = true → s.geomValid = true) :
    (runInstr i s).state.refValid = true → (runInstr i s).state.geomValid = true := by
  by_cases hi : i = .init
  · subst hi; intro hr; exact absurd ((runInit_refValid s).symm.trans hr) (by simp)
  rw [(runInstr_sameGeometry i s hi).geomValid]
  rcases hw : writesRefValid i with _ | _
  · rw [(runInstr_keepsStreams i s hw).refValid]; exact h
  · have hi' : i = .storeRef ∨ i = .encodeFrame := by cases i <;> simp_all [writesRefValid]
    rcases hv : s.geomValid with _ | _
    · rw [runInstr_without_geometry hi' hv, ← hv]; exact h
    · exact fun _ => rfl

/-! The invariant. -/

theorem State.Inv.streamsFit {s : State} (h : s.Inv) : StreamsFit s := (streamsFit_iff s).2 ⟨h.stream0, h.stream1⟩

/-- An update of the fields the invariant says nothing of, and of memory in its canonical form. -/
theorem State.Inv.update {s : State} (h : s.Inv) (ctrl : BitVec 3) (done : Bool) (cfg : CfgRegs) (args : ArgRegs)
    (res : Vector Word 8) (rc : RateControl) (fr : FrameResult) {mem : Memory} (hm : mem.wf = true) (rst : Bool)
    (epoch : Nat) (schedule : List Event) (responses : List Response) :
    State.Inv { s with
      ctrl := ctrl, done := done, cfg := cfg, args := args, res := res, rc := rc, fr := fr, mem := mem, rst := rst,
      epoch := epoch, schedule := schedule, responses := responses } :=
  ⟨hm, h.params, h.geometry, h.reference, h.stream0, h.stream1, h.errorRecord, h.pending⟩

theorem State.Inv.withSchedule {s : State} (h : s.Inv) (rest : List Event) :
    State.Inv { s with schedule := rest } := h.update _ _ _ _ _ _ _ h.memory _ _ _ _

theorem State.Inv.respond {s : State} (h : s.Inv) (r : Response) : (s.respond r).Inv :=
  h.update _ _ _ _ _ _ _ h.memory _ _ _ _

/-- Completion leaves no command running. -/
theorem State.Inv.complete {s : State} (h : s.Inv) : s.complete.Inv :=
  ⟨h.memory, h.params, h.geometry, h.reference, h.stream0, h.stream1, h.errorRecord, rfl⟩

/-- Every error of the core is one of R901. -/
theorem State.Inv.recordError {s : State} (h : s.Inv) (e : ErrorCode) (opc : BitVec 8) : (s.recordError e opc).Inv :=
  ⟨h.memory, h.params, h.geometry, h.reference, h.stream0, h.stream1, by cases e <;> rfl, h.pending⟩

theorem State.Inv.clearError {s : State} (h : s.Inv) : s.clearError.Inv :=
  ⟨h.memory, h.params, h.geometry, h.reference, h.stream0, h.stream1, rfl, h.pending⟩

/-- The accepted word is the one LAST_CMD shows. -/
theorem State.Inv.issue {s : State} (h : s.Inv) (w : Word) : (s.issue w).Inv :=
  ⟨h.memory, h.params, h.geometry, h.reference, h.stream0, h.stream1, h.errorRecord, decide_eq_true rfl⟩

theorem State.Inv.writeCtrl {s : State} (h : s.Inv) (v : Word) : (s.writeCtrl v).Inv :=
  h.update _ _ _ _ _ _ _ h.memory _ _ _ _

theorem State.Inv.writeStatus {s : State} (h : s.Inv) (v : Word) : (s.writeStatus v).Inv := by
  have hd : (s.w1cDone v).Inv := by
    unfold State.w1cDone
    split
    · exact h.update _ _ _ _ _ _ _ h.memory _ _ _ _
    · exact h
  unfold State.writeStatus
  split
  · exact hd.clearError
  · exact hd

/-- A command keeps the invariant up to its end. -/
theorem runInstr_inv (i : Instr) {s : State} (h : s.Inv) : (runInstr i s).state.Inv := by
  have hc := runInstr_sameControl i s
  obtain ⟨h0, h1⟩ := (streamsFit_iff _).1 (runInstr_streamsFit i s h.streamsFit)
  exact {
    memory := hc.wf h.memory
    params := hc.params ▸ h.params
    geometry := runInstr_geomOk i s h.geometry
    reference := runInstr_reference i s h.reference
    stream0 := h0
    stream1 := h1
    errorRecord := by simpa only [State.errorRecordOk, hc.err, hc.errCode, hc.errOpc] using h.errorRecord
    pending := by simpa only [State.pendingOk, hc.running, hc.lastCmd] using h.pending }

/-- The end of a run keeps the invariant, with or without error. -/
theorem finish_inv {opc : BitVec 8} {r : Run} {t : State} (h : r.state.Inv) (ht : Run.finish opc r = .next t) :
    t.Inv := by
  cases r with
  | ok u => cases ht; exact h.complete
  | error u e => cases ht; exact (h.recordError e opc).complete

theorem engineStep_inv {s t : State} (h : s.Inv) (ht : engineStep s = .next t) : t.Inv := by
  rcases engineStep_cases s with ⟨-, e⟩ | ⟨-, run, -, ⟨i, -, e⟩ | ⟨-, e⟩⟩ <;> rw [e] at ht
  · cases ht; exact h
  · rw [exec_eq] at ht
    exact finish_inv (runInstr_inv i h) ht
  · exact finish_inv (r := .error s .illegalCmd) h ht

/-! Host accesses and the reset input. -/

/-- A register write keeps the invariant: only CMD and STATUS write a field it speaks of. -/
theorem writeReg_inv {s : State} (h : s.Inv) (v : Word) (r : Reg) : (s.writeReg v r).Inv := by
  cases r with
  | cmd => exact h.issue v
  | status => exact h.writeStatus v
  | _ => exact h.update _ _ _ _ _ _ _ h.memory _ _ _ _

theorem busWriteIdle_inv {s : State} (h : s.Inv) (w : Width) (addr v : Word) : (s.busWriteIdle w addr v).Inv := by
  unfold State.busWriteIdle
  split
  · split
    · exact h
    · exact writeReg_inv h v _
  · exact h.update _ _ _ _ _ _ _ (wf_setAll _ _ h.memory) _ _ _ _

theorem busWrite_inv {s : State} (h : s.Inv) (w : Width) (addr v : Word) : (s.busWrite w addr v).Inv := by
  unfold State.busWrite
  split
  · rename_i run _
    rcases busWriteBusy_cases s run addr v with ⟨-, -, e⟩ | ⟨-, e⟩ | ⟨-, -, e⟩ <;> rw [e]
    · exact h.writeStatus v
    · exact h.writeCtrl v
    · exact h.recordError _ _
  · exact busWriteIdle_inv h w addr v

theorem access_inv {s : State} (h : s.Inv) (a : Access) : (s.access a).Inv := by
  rcases hr : s.rst with _ | _
  · cases a with
    | read w addr =>
      rcases ha : accessAllowed w addr with _ | _
      · rw [access_read_disallowed s w addr hr ha]; exact h.respond _
      · rw [access_read_allowed s w addr hr ha]; exact h.respond _
    | write w addr v =>
      rcases ha : accessAllowed w addr with _ | _
      · rw [access_write_disallowed s w addr v hr ha]; exact h.respond _
      · rw [access_write_allowed s w addr v hr ha]; exact (busWrite_inv h w addr v).respond _
  · rw [access_rst s a hr]; exact h.respond _

/-- The reset state of a core with legal parameters. -/
theorem resetWith_inv {p : Params} (hp : p.wf = true) : (State.resetWith p).Inv :=
  ⟨rfl, hp, rfl, nofun, Nat.zero_le _, Nat.zero_le _, rfl, rfl⟩

theorem setRst_inv {s : State} (h : s.Inv) (level : Bool) : (s.setRst level).Inv := by
  unfold State.setRst
  split
  · exact h.update _ _ _ _ _ _ _ h.memory _ _ _ _
  · split
    · exact (resetWith_inv h.params).update _ _ _ _ _ _ _ rfl _ _ _ _
    · exact h

/-- Settles O9: an engine's turn keeps the invariant command by command, every other event field by field. -/
theorem stepKeepsInvariant : Obligations.StepKeepsInvariant := by
  intro s t h ht
  rcases hs : s.schedule with _ | ⟨_ | a | level, rest⟩
  · rw [step_nil hs] at ht
    exact engineStep_inv h ht
  · rw [step_engine hs] at ht
    exact engineStep_inv (h.withSchedule rest) ht
  · rw [step_access hs] at ht
    cases ht
    exact access_inv (h.withSchedule rest) a
  · rw [step_rst hs] at ht
    cases ht
    exact setRst_inv (h.withSchedule rest) level

end Sys2Proof.Machine
end

section
/-! SUPPORT. The digits of a packed word, and the registers that mirror BASIS and ZIGZAG (10_state.md R118, R119). -/

namespace Sys2Proof.Machine

/-- A number written as `k` digits to the base `b`: it is below `b ^ k`, and each digit reads back. -/
theorem packed_digits {k b : Nat} {f : Fin k → Nat} (hf : ∀ j, f j < b) :
    ((List.finRange k).map fun j => f j * b ^ j.val).sum < b ^ k
      ∧ ∀ i : Fin k, ((List.finRange k).map fun j => f j * b ^ j.val).sum / b ^ i.val % b = f i := by
  obtain ⟨digit, rfl⟩ : ∃ digit : Fin k → Fin b, (fun j => (digit j).val) = f := ⟨fun j => ⟨f j, hf j⟩, rfl⟩
  rw [← Fin.sum_univ_def]
  exact ⟨(finFunctionFinEquiv digit).isLt,
    fun i => congrArg Fin.val (congrFun (finFunctionFinEquiv.symm_apply_apply digit) i)⟩

/-- The code of a matrix entry fits two bits. -/
theorem tritCode_lt (c : Trit) : tritCode c < 4 := by cases c <;> decide

/-- A BASIS register shows its sixteen entries two bits each. -/
theorem basisWord_digit (m : Vector Trit 64) (n : Fin 4) (j : Fin 16) :
    (basisWord m n).toNat / 4 ^ j.val % 4 = tritCode (m[16 * n.val + j.val]'(by omega)) := by
  obtain ⟨hlt, hdigit⟩ := packed_digits fun j : Fin 16 => tritCode_lt (m[16 * n.val + j.val]'(by omega))
  rw [basisWord, toNat_nat32 hlt]
  exact hdigit j

/-- A ZIGZAG register shows its four scan positions eight bits each. -/
theorem zigzagWord_digit (z : Vector (Fin 64) 64) (n : Fin 16) (j : Fin 4) :
    (zigzagWord z n).toNat / 256 ^ j.val % 256 = (z[4 * n.val + j.val]'(by omega)).val := by
  obtain ⟨hlt, hdigit⟩ := packed_digits fun j : Fin 4 =>
    (z[4 * n.val + j.val]'(by omega)).isLt.trans (show 64 < 256 by decide)
  rw [zigzagWord, toNat_nat32 hlt]
  exact hdigit j

/-- Settles O22: entry i is digit i mod 16 of BASIS register i div 16, digit i mod 4 of ZIGZAG register i div 4. -/
theorem parameterMirrors : Obligations.ParameterMirrors := by
  intro s i
  refine ⟨?_, ?_⟩
  · have h := basisWord_digit s.params.basis ⟨i.val / 16, by omega⟩ ⟨i.val % 16, by omega⟩
    simp only [Nat.div_add_mod] at h
    rw [Nat.pow_mul]
    refine h.trans ?_
    show tritCode s.params.basis[i] = _
    cases s.params.basis[i] <;> rfl
  · have h := zigzagWord_digit s.params.zigzag ⟨i.val / 4, by omega⟩ ⟨i.val % 4, by omega⟩
    simp only [Nat.div_add_mod] at h
    rw [Nat.pow_mul]
    exact h

end Sys2Proof.Machine
end

section
/-! SUPPORT. What a host write of a register changes while BUSY = 0: the register itself, to the bits it has, and
nothing else of the register block or of memory (10_state.md R110, R113, R115; 20_memory.md R208, R209). -/

namespace Sys2Proof.Machine

/-- A 32-bit write of a register, with `rst` released and no command running, is a write of that register. -/
theorem step_write_reg {s : State} {v : Word} {rest : List Event} {r : Reg} (hrst : s.rst = false)
    (hidle : s.running = none) (hs : s.schedule = .access (.write .w32 r.addr v) :: rest) :
    step s = .next ((({ s with schedule := rest } : State).writeReg v r).respond { busError := false, data := 0 }) := by
  have released : ({ s with schedule := rest } : State).rst = false := hrst
  have idle : ({ s with schedule := rest } : State).running = none := hidle
  rw [step_access hs, access_write_allowed _ _ _ _ released (accessAllowed_reg r), busWrite_reg_idle _ r v idle]

theorem setWidth_setWidth_word (v : Word) (n : Nat) :
    (v.setWidth n).setWidth 32 = BitVec.ofNat 32 (v.toNat % 2 ^ n) :=
  BitVec.eq_of_toNat_eq (by simp)

/-- CTRL, STATUS and CMD have rules of their own. -/
theorem rwRegs_ne {r : Reg} {n : Nat} (h : (r, n) ∈ rwRegs) : r ≠ .ctrl ∧ r ≠ .status ∧ r ≠ .cmd := by
  refine ⟨?_, ?_, ?_⟩ <;> (rintro rfl; simp [rwRegs] at h)

/-- An RW register takes the low bits of the value, as many as it has. -/
theorem regValue_writeReg_self (s : State) (v : Word) {r : Reg} {n : Nat} (h : (r, n) ∈ rwRegs) :
    (s.writeReg v r).regValue r = BitVec.ofNat 32 (v.toNat % 2 ^ n) := by
  cases r with
  | cfgWidth | cfgHeight | cfgGop =>
    obtain rfl : n = 16 := by simpa [rwRegs] using h
    exact setWidth_setWidth_word v 16
  | cfgQp | cfgRange | cfgFps | cfgQpMin | cfgQpMax | rcQp =>
    obtain rfl : n = 8 := by simpa [rwRegs] using h
    exact setWidth_setWidth_word v 8
  | argFtype =>
    obtain rfl : n = 1 := by simpa [rwRegs] using h
    exact setWidth_setWidth_word v 1
  | cfgTargetKbps | argMbx | argMby | argMvx | argMvy | argValue | argNbits | argQp | argFrameId | argTsLo | argTsHi
  | argBitsUsed =>
    obtain rfl : n = 32 := by simpa [rwRegs] using h
    exact (BitVec.setWidth_eq v).symm.trans (setWidth_setWidth_word v 32)
  | _ => simp [rwRegs] at h

/-- A write of a read-only register has no effect (20_memory.md R209). -/
theorem writeReg_readOnly (s : State) (v : Word) {r : Reg} (h : ∀ n, (r, n) ∉ rwRegs) (hctrl : r ≠ .ctrl)
    (hstatus : r ≠ .status) (hcmd : r ≠ .cmd) : s.writeReg v r = s := by
  cases r with
  | ctrl | status | cmd => contradiction
  | cfgWidth | cfgHeight | cfgGop => exact absurd (by decide) (h 16)
  | cfgQp | cfgRange | cfgFps | cfgQpMin | cfgQpMax | rcQp => exact absurd (by decide) (h 8)
  | argFtype => exact absurd (by decide) (h 1)
  | cfgTargetKbps | argMbx | argMby | argMvx | argMvy | argValue | argNbits | argQp | argFrameId | argTsLo | argTsHi
  | argBitsUsed => exact absurd (by decide) (h 32)
  | _ => rfl

/-- A write changes no other register: each register shows a field of its own. -/
theorem regValue_writeReg_other (s : State) (v : Word) {r r' : Reg} (hctrl : r ≠ .ctrl) (hstatus : r ≠ .status)
    (hcmd : r ≠ .cmd) (h : r' ≠ r) : (s.writeReg v r).regValue r' = s.regValue r' := by
  cases r with
  | ctrl | status | cmd => contradiction
  | cfgWidth | cfgHeight | cfgQp | cfgRange | cfgGop | cfgFps | cfgTargetKbps | cfgQpMin | cfgQpMax | argMbx | argMby
  | argMvx | argMvy | argValue | argNbits | argQp | argFrameId | argTsLo | argTsHi | argBitsUsed | argFtype | rcQp =>
    cases r' <;> first | rfl | contradiction
  | _ => rfl

/-- No register write touches memory. -/
theorem writeReg_readByte (s : State) (v : Word) (r : Reg) (a : Nat) :
    (s.writeReg v r).readByte a = s.readByte a := by
  cases r with
  | status =>
    rw [State.writeReg, writeStatus_eq]
    rfl
  | _ => rfl

/-- Settles O19: the step is the write of the one register, which the lemmas above describe. -/
theorem registerWritesKeepTheirWidth : Obligations.RegisterWritesKeepTheirWidth := by
  intro s v rest r hrst hidle hs
  have hstep := step_write_reg hrst hidle hs
  refine ⟨fun n hn => ⟨_, hstep, ?_, fun r' hr' => ?_, fun a => ?_⟩, fun hro hctrl hstatus hcmd => ?_, ?_, ?_⟩
  · exact regValue_writeReg_self { s with schedule := rest } v hn
  · obtain ⟨hctrl, hstatus, hcmd⟩ := rwRegs_ne hn
    exact regValue_writeReg_other { s with schedule := rest } v hctrl hstatus hcmd hr'
  · exact writeReg_readByte { s with schedule := rest } v r a
  · rw [hstep, writeReg_readOnly _ v hro hctrl hstatus hcmd]
    rfl
  · rintro rfl
    rw [hstep, BitVec.setWidth_eq_extractLsb' (by decide)]
    rfl
  · rintro rfl
    rw [hstep]
    exact congrArg (fun t : State => Host.Outcome.next (t.respond { busError := false, data := 0 }))
      (writeStatus_eq { s with schedule := rest } v)

end Sys2Proof.Machine
end

section
/-! SUPPORT. The address map and the register map as the statements spell them, and what an access of the bus answers
and stores (20_memory.md R201 to R209). -/

namespace Sys2Proof.Machine

/-! The maps. -/

/-- The mapped addresses are those of the memory regions of R205. -/
theorem mapped_iff_region (s : State) (a : Nat) : s.mapped a = true ↔ InMemoryRegion s.params.streamCap a := by
  rw [mapped_iff]
  unfold InMemoryRegion
  omega

theorem mapped_eq_false_iff (s : State) (a : Nat) : s.mapped a = false ↔ ¬ InMemoryRegion s.params.streamCap a := by
  rw [← mapped_iff_region, Bool.not_eq_true]

/-- The model allows the accesses R202 allows. -/
theorem accessAllowed_iff (w : Width) (a : Word) : accessAllowed w a = true ↔ allowedByR202 w a.toNat := by
  unfold accessAllowed allowedByR202 regsEnd
  split <;> simp

theorem mem_registerMap (r : Reg) : (r, r.offset) ∈ registerMap := by
  cases r with
  | res n => revert n; decide +kernel
  | basis n => revert n; decide +kernel
  | zigzag n => revert n; decide +kernel
  | _ => decide +kernel

theorem offset_of_mem_registerMap {r : Reg} {o : Nat} (h : (r, o) ∈ registerMap) : o = r.offset := by
  have map_offsets : ∀ q ∈ registerMap, q.2 = q.1.offset := by decide +kernel
  exact map_offsets (r, o) h

theorem regAt_unlisted {a : Nat} (h : ∀ q ∈ registerMap, q.2 ≠ a) : regAt a = none :=
  regAt_eq_none fun r => h (r, r.offset) (mem_registerMap r)

/-! What a read answers. -/

/-- A host read of mapped bytes is `MemRead` of them. -/
theorem hostRead_eq_readLE (s : State) {a n : Nat} (h : ∀ j < n, s.mapped (a + j) = true) :
    s.hostRead a n = s.readLE a n := by
  induction n generalizing a with
  | zero => rfl
  | succ n ih =>
    have first : s.mapped a = true := h 0 (by omega)
    have others : ∀ j < n, s.mapped (a + 1 + j) = true := fun j hj => by
      rw [Nat.add_assoc, Nat.add_comm 1 j]; exact h (j + 1) (by omega)
    rw [State.hostRead, State.readLE, ih others, State.hostByte, if_pos first]

/-- A host read of bytes none of which is mapped is 0 (R208). -/
theorem hostRead_unmapped (s : State) {a n : Nat} (h : ∀ j < n, s.mapped (a + j) = false) : s.hostRead a n = 0 := by
  rw [hostRead_eq, List.sum_eq_zero]
  intro x hx
  obtain ⟨j, hj, rfl⟩ := List.mem_map.1 hx
  simp [State.hostByte, h j (List.mem_range.1 hj)]

/-- No access is wider than a word. -/
theorem pow_bytes_le (w : Width) : 256 ^ w.bytes ≤ 2 ^ 32 := by cases w <;> decide

/-- The data of a read of mapped bytes is their little-endian number (R203). -/
theorem toNat_busRead_memory {s : State} (w : Width) {addr : Word} (hidle : s.running = none)
    (ha : 0x1000 ≤ addr.toNat) (h : ∀ j < w.bytes, s.mapped (addr.toNat + j) = true) :
    (s.busRead w addr).toNat
      = ((List.range w.bytes).map fun j => (s.readByte (addr.toNat + j)).toNat * 256 ^ j).sum := by
  have fits : s.hostRead addr.toNat w.bytes < 2 ^ 32 := by
    rw [hostRead_eq_readLE s h]
    exact (readLE_lt s _ _).trans_le (pow_bytes_le w)
  rw [busRead_memory_idle s w addr hidle ha, toNat_nat32 fits, hostRead_eq]
  refine congrArg List.sum (List.map_congr_left fun j hj => ?_)
  rw [State.hostByte, if_pos (h j (List.mem_range.1 hj))]

/-! What a write stores. -/

/-- A host write of bytes none of which is mapped is ignored (R208). -/
theorem hostWrite_unmapped (s : State) {a n : Nat} (v : Word) (h : ∀ j < n, s.mapped (a + j) = false) :
    s.hostWrite a n v = s := by
  have none_stored : (cellsLE a n v.toNat).filter (fun c => s.mapped c.1) = [] := by
    refine List.filter_eq_nil_iff.2 fun c hc => ?_
    obtain ⟨j, hj, rfl⟩ := (mem_cellsLE _ _ _ _).1 hc
    simp [h j hj]
  rw [State.hostWrite, none_stored, storeCells_nil]

theorem writeReg_responses (s : State) (v : Word) (r : Reg) : (s.writeReg v r).responses = s.responses := by
  cases r with
  | status => rw [State.writeReg, writeStatus_eq]
  | _ => rfl

/-- The effect of a write leaves the answers so far as they are. -/
theorem busWrite_responses (s : State) (w : Width) (addr v : Word) :
    (s.busWrite w addr v).responses = s.responses := by
  unfold State.busWrite
  split
  · rename_i run _
    rcases busWriteBusy_cases s run addr v with ⟨-, -, e⟩ | ⟨-, e⟩ | ⟨-, -, e⟩ <;> rw [e]
    · rw [writeStatus_eq]
    · rfl
    · rfl
  · unfold State.busWriteIdle
    split
    · split
      · rfl
      · exact writeReg_responses s v _
    · rfl

/-- An unlisted offset, or an address with no mapped byte: while BUSY = 0 a read gives 0 and a write is ignored. -/
theorem bus_unmapped {s : State} (w : Width) (addr : Word) (hidle : s.running = none)
    (h : (addr.toNat < 0x1000 ∧ ∀ q ∈ registerMap, q.2 ≠ addr.toNat)
      ∨ (0x1000 ≤ addr.toNat ∧ ∀ j < w.bytes, ¬ InMemoryRegion s.params.streamCap (addr.toNat + j))) :
    s.busRead w addr = 0 ∧ ∀ v, s.busWrite w addr v = s := by
  rcases h with ⟨hlt, hunlisted⟩ | ⟨hge, hout⟩
  · have hnone := regAt_unlisted hunlisted
    have block : addr.toNat < regsEnd := hlt
    refine ⟨?_, fun v => ?_⟩
    · rw [State.busRead, if_pos block, State.busReadReg, hnone]
    · simp only [State.busWrite, hidle, State.busWriteIdle, if_pos block, hnone]
  · have hun : ∀ j < w.bytes, s.mapped (addr.toNat + j) = false := fun j hj =>
      (mapped_eq_false_iff s _).2 (hout j hj)
    refine ⟨?_, fun v => ?_⟩
    · rw [busRead_memory_idle s w addr hidle hge, hostRead_unmapped s hun]; rfl
    · rw [busWrite_memory_idle s w addr v hidle hge, hostWrite_unmapped s v hun]

/-! One access as a step. -/

/-- A read changes the answers alone, whatever it answers (R209). -/
theorem access_read (s : State) (w : Width) (addr : Word) : ∃ d, s.access (.read w addr) = s.respond d := by
  rcases hr : s.rst with _ | _
  · rcases ha : accessAllowed w addr with _ | _
    · exact ⟨_, access_read_disallowed s w addr hr ha⟩
    · exact ⟨_, access_read_allowed s w addr hr ha⟩
  · exact ⟨_, access_rst s _ hr⟩

section

variable {s : State} {w : Width} {addr v : Word} {rest : List Event}

theorem step_read (hs : s.schedule = .access (.read w addr) :: rest) :
    ∃ d, step s = .next { s with schedule := rest, responses := d :: s.responses } := by
  obtain ⟨d, hd⟩ := access_read { s with schedule := rest } w addr
  exact ⟨d, by rw [step_access hs, hd]; rfl⟩

theorem step_read_allowed (hrst : s.rst = false) (ok : allowedByR202 w addr.toNat)
    (hs : s.schedule = .access (.read w addr) :: rest) :
    step s = .next { s with
      schedule := rest,
      responses := { busError := false, data := ({ s with schedule := rest } : State).busRead w addr }
        :: s.responses } := by
  rw [step_access hs, access_read_allowed { s with schedule := rest } w addr hrst ((accessAllowed_iff w addr).2 ok)]
  rfl

theorem step_write_allowed (hrst : s.rst = false) (ok : allowedByR202 w addr.toNat)
    (hs : s.schedule = .access (.write w addr v) :: rest) :
    step s = .next
      ((({ s with schedule := rest } : State).busWrite w addr v).respond { busError := false, data := 0 }) := by
  rw [step_access hs,
    access_write_allowed { s with schedule := rest } w addr v hrst ((accessAllowed_iff w addr).2 ok)]

/-- A disallowed access has no effect but its answer (R202, 60_exceptions.md R905). -/
theorem step_disallowed {a : Access} (ha : a ∈ [Access.read w addr, Access.write w addr v]) (hrst : s.rst = false)
    (bad : ¬ allowedByR202 w addr.toNat) (hs : s.schedule = .access a :: rest) :
    step s = .next { s with
      schedule := rest, responses := { busError := true, data := 0 } :: s.responses } := by
  rw [← accessAllowed_iff, Bool.not_eq_true] at bad
  rw [step_access hs]
  rcases List.mem_pair.1 ha with rfl | rfl
  · rw [access_read_disallowed { s with schedule := rest } w addr hrst bad]; rfl
  · rw [access_write_disallowed { s with schedule := rest } w addr v hrst bad]; rfl

end

/-! The statements. -/

/-- Settles O15: the model refuses what R202 disallows (`step_disallowed`), and answers everything else with no bus
error. -/
theorem disallowedAccessIsABusError : Obligations.DisallowedAccessIsABusError := by
  intro s w addr v rest hrst _ a ha hs
  refine ⟨fun bad => step_disallowed ha hrst bad hs, fun ok => ?_⟩
  rcases List.mem_pair.1 ha with rfl | rfl
  · exact ⟨_, _, step_read_allowed hrst ok hs, rfl⟩
  · refine ⟨_, 0, step_write_allowed hrst ok hs, ?_⟩
    rw [respond_responses, busWrite_responses]

/-- Settles O16: neither the register map nor a region has the address, so the bus reads 0 and ignores writes
(`bus_unmapped`). -/
theorem unmappedAddressesReadZero : Obligations.UnmappedAddressesReadZero := by
  intro s w addr v rest hrst hidle ok hun a ha hs
  obtain ⟨hread, hwrite⟩ := bus_unmapped (s := { s with schedule := rest }) w addr hidle hun
  rcases List.mem_pair.1 ha with rfl | rfl
  · rw [step_read_allowed hrst ok hs, hread]
  · rw [step_write_allowed hrst ok hs, hwrite]
    rfl

/-- Settles O18: the write stores the bytes of its value where a region has them (`readByte_hostWrite`), the read gathers
those it names (`toNat_busRead_memory`). -/
theorem hostMemoryAccessIsLittleEndian : Obligations.HostMemoryAccessIsLittleEndian := by
  intro s w addr rest hrst hidle hge haligned
  have ok : allowedByR202 w addr.toNat := by
    rw [allowedByR202, if_neg (Nat.not_lt.2 hge)]
    exact haligned
  refine ⟨fun v hs => ⟨_, step_write_allowed hrst ok hs, ?_⟩, fun hin hs => ⟨_, step_read_allowed hrst ok hs, ?_⟩⟩
  · rw [busWrite_memory_idle { s with schedule := rest } w addr v hidle hge]
    refine ⟨rfl, fun j hj hm => ?_, fun a ha => ?_⟩
    · exact readByte_hostWrite { s with schedule := rest } addr.toNat w.bytes v hj ((mapped_iff_region _ _).2 hm)
    · rw [← mapped_eq_false_iff] at ha
      exact readByte_hostWrite_outside { s with schedule := rest } addr.toNat w.bytes v a ha
  · exact toNat_busRead_memory (s := { s with schedule := rest }) w hidle hge fun j hj =>
      (mapped_iff_region _ _).2 (hin j hj)

/-- Settles O20: a read only answers (`step_read`), and the map holds each register once, at its own offset. -/
theorem hostReadsHaveNoSideEffects : Obligations.HostReadsHaveNoSideEffects := by
  refine ⟨fun s w addr rest hs => step_read hs, fun s r o rest hro hrst hidle hs => ?_, mem_registerMap,
    by decide +kernel⟩
  obtain rfl := offset_of_mem_registerMap hro
  have ok := (accessAllowed_iff .w32 r.addr).1 (accessAllowed_reg r)
  rw [step_read_allowed hrst ok hs, busRead_reg_idle { s with schedule := rest } r hidle]
  rfl

end Sys2Proof.Machine
end

section
/-! SUPPORT. No step stores a byte outside the memory regions of R205: where the stores of each operation go, what keeps
the memory inside the regions (`MemMapped`), and every command and every event of the schedule (20_memory.md R205, R207,
R208). -/

namespace Sys2Proof.Machine

/-! Addresses in the regions. -/

theorem region_of_frame (cap : Nat) (f : FrameId) {a : Nat} (h : f.base ≤ a ∧ a < f.base + 0x01000000) :
    InMemoryRegion cap a := by
  have hb : f.base = 0x01000000 ∨ f.base = 0x02000000 ∨ f.base = 0x03000000 := by
    cases f <;> simp [FrameId.base, curBase, refBase, predBase]
  unfold InMemoryRegion
  omega

theorem region_of_work (cap : Nat) {a : Nat} (h : 0x04000000 ≤ a ∧ a < 0x04000A00) : InMemoryRegion cap a := by
  unfold InMemoryRegion
  omega

theorem region_of_mvarr (cap : Nat) {a : Nat} (h : 0x05000000 ≤ a ∧ a < 0x06000000) : InMemoryRegion cap a := by
  unfold InMemoryRegion
  omega

theorem region_of_stream {cap : Nat} (st : Stream) {a : Nat} (h : streamBase st ≤ a ∧ a < streamBase st + cap) :
    InMemoryRegion cap a := by
  have hb : streamBase st = 0x06000000 ∨ streamBase st = 0x07000000 := by
    cases st <;> simp [streamBase, stream0Base, stream1Base]
  unfold InMemoryRegion
  omega

/-- A staging element lies in its buffer (R205). -/
theorem stagingAddr_bounds (p : Plane) {r c : Nat} (hr : r < mbSize p) (hc : c < mbSize p) :
    0x04000100 ≤ stagingAddr p r c ∧ stagingAddr p r c + 2 ≤ 0x04000400 := by
  cases p <;> simp only [mbSize, stagingAddr, residBase, cresUBase, cresVBase] at * <;> omega

/-- There are at most 2^20 macroblocks, so the vectors of all of them fit MVARR: a frame has 16 luma bytes or more for
each, and fits 16 MiB (R207). -/
theorem mbCount_le {w h : Nat} (hh : 1 ≤ h) (fits : (w + 15) / 16 * 16 * h ≤ 0x01000000) :
    ceilDiv w 16 * ceilDiv h 16 ≤ 0x00100000 := by
  have rows : ceilDiv w 16 * ceilDiv h 16 ≤ (w + 15) / 16 * h := Nat.mul_le_mul_left _ (by simp only [ceilDiv]; omega)
  have bytes : (w + 15) / 16 * 16 * h = 16 * ((w + 15) / 16 * h) := by ring
  omega

/-! Lists of stores. -/

/-- Every store of the list goes to a memory region. -/
def StoresMapped (cap : Nat) (cells : List Host.Cell) : Prop := ∀ c ∈ cells, InMemoryRegion cap c.1

theorem StoresMapped.append {cap : Nat} {cs ds : List Host.Cell} (hc : StoresMapped cap cs)
    (hd : StoresMapped cap ds) : StoresMapped cap (cs ++ ds) :=
  List.forall_mem_append.2 ⟨hc, hd⟩

theorem StoresMapped.flatMap {α : Type} {cap : Nat} {l : List α} {f : α → List Host.Cell}
    (h : ∀ x ∈ l, StoresMapped cap (f x)) : StoresMapped cap (l.flatMap f) := fun c hc => by
  obtain ⟨x, hx, hcx⟩ := List.mem_flatMap.1 hc
  exact h x hx c hcx

theorem StoresMapped.map {α : Type} {cap : Nat} {l : List α} {f : α → Host.Cell}
    (h : ∀ x ∈ l, InMemoryRegion cap (f x).1) : StoresMapped cap (l.map f) :=
  List.forall_mem_map.2 h

theorem cellsLE_mapped {cap a n : Nat} (v : Nat) (h : ∀ j < n, InMemoryRegion cap (a + j)) :
    StoresMapped cap (cellsLE a n v) := fun c hc => by
  obtain ⟨j, hj, rfl⟩ := (mem_cellsLE a n v c).1 hc
  exact h j hj

theorem zeroCells_mapped {cap a n : Nat} (h : ∀ j < n, InMemoryRegion cap (a + j)) :
    StoresMapped cap (zeroCells a n) :=
  StoresMapped.map fun j hj => h j (List.mem_range.1 hj)

/-- A staging element's bytes. -/
theorem stagingCells_mapped (cap : Nat) (p : Plane) {r c : Nat} (hr : r < mbSize p) (hc : c < mbSize p)
    (v : BitVec 16) : StoresMapped cap (cells16 (stagingAddr p r c) v) :=
  cellsLE_mapped _ fun j hj => region_of_work cap (by have := stagingAddr_bounds p hr hc; omega)

/-- The positions of a view are within the macroblock's nominal size. -/
theorem view_position {s : State} {p : Plane} {mbx mby : Nat} {rc : Nat × Nat}
    (h : rc ∈ rowsCols (s.view p mbx mby).h (s.view p mbx mby).w) : rc.1 < mbSize p ∧ rc.2 < mbSize p := by
  obtain ⟨hr, hc⟩ := (mem_rowsCols _ _ _).1 h
  obtain ⟨hw, hh⟩ := view_size s p mbx mby
  omega

theorem loadSrcCells_mapped (cap : Nat) (s : State) (p : Plane) (mbx mby : Nat) :
    StoresMapped cap (loadSrcCells s p mbx mby) :=
  StoresMapped.flatMap fun _ h => stagingCells_mapped cap p (view_position h).1 (view_position h).2 _

theorem residCells_mapped (cap : Nat) (s : State) (mbx mby : Nat) : StoresMapped cap (residCells s mbx mby) :=
  StoresMapped.flatMap fun _ h => stagingCells_mapped cap .y (view_position h).1 (view_position h).2 _

theorem predBlkCells_mapped (cap : Nat) (s : State) (p : Plane) (mbx mby : Nat) (mvx mvy : Int) :
    StoresMapped cap (predBlkCells s p mbx mby mvx mvy) :=
  StoresMapped.map fun rc h => region_of_work cap (by
    obtain ⟨hr, hc⟩ := view_position h
    have nominal : mbSize p ≤ 16 := by cases p <;> decide
    simp only [predBlkAddr, predBlkBase]
    omega)

theorem coefCells_mapped (cap : Nat) {k : Nat} (hk : k ≤ 5) (b : Block) : StoresMapped cap (coefCells k b) :=
  StoresMapped.flatMap fun i _ => cellsLE_mapped _ fun j hj => region_of_work cap (by
    have := i.isLt
    simp only [coefAddr, coefBase]
    omega)

/-- A sample of a frame in its region, for whatever is stored there (R207). -/
theorem sampleAddr_region {s : State} {w h : Nat} (hf : FrameSize s w h) (cap : Nat) (f : FrameId) (p : Plane)
    {x y : Nat} (hx : x < s.planeW p) (hy : y < s.planeH p) : InMemoryRegion cap (s.sampleAddr f p x y) :=
  region_of_frame cap f (sampleAddr_bounds hf f p hx hy)

theorem planeCopyCells_mapped {s : State} {w h : Nat} (hf : FrameSize s w h) (cap : Nat) (p : Plane) :
    StoresMapped cap (planeCopyCells s p) :=
  StoresMapped.map fun rc hrc => by
    obtain ⟨hy, hx⟩ := (mem_rowsCols _ _ _).1 hrc
    exact sampleAddr_region hf cap .ref p hx hy

theorem predFrameCells_mapped {s : State} {w h : Nat} (hf : FrameSize s w h) (cap : Nat) :
    StoresMapped cap (predFrameCells s) := by
  have plane : ∀ (p : Plane) (mbx mby : Nat), StoresMapped cap (predMbCells s p mbx mby) := fun p mbx mby =>
    StoresMapped.map fun rc hrc => by
      obtain ⟨hr, hc⟩ := (mem_rowsCols _ _ _).1 hrc
      obtain ⟨hx, hy⟩ := view_inside s p mbx mby hr hc
      exact sampleAddr_region hf cap .pred p hx hy
  exact StoresMapped.flatMap fun mb _ => ((plane .y _ _).append (plane .u _ _)).append (plane .v _ _)

/-- The vector of a macroblock of the frame is in MVARR (R205). -/
theorem mvCells_mapped (cap : Nat) {i : Nat} (hi : i < 0x00100000) (dx dy : Int) :
    StoresMapped cap (cells16 (mvAddr i) (low16 dx) ++ cells16 (mvAddr i + 2) (low16 dy)) := by
  have component : ∀ (d : Nat) (v : BitVec 16), d ≤ 2 → StoresMapped cap (cells16 (mvAddr i + d) v) :=
    fun d v hd => cellsLE_mapped _ fun j hj => region_of_mvarr cap (by
      simp only [mvAddr, mvarrBase]
      omega)
  exact (component 0 _ (by omega)).append (component 2 _ (by omega))

/-- INIT zeroes the work buffers and the vectors of a frame that fits its region (40_frame_mb.md R403). -/
theorem initCells_mapped (cap : Nat) {w h : Nat} (hl : geometryLegal w h = true) :
    StoresMapped cap (initCells w h) := by
  simp only [geometryLegal, frameBytes, alignUp_plane, Bool.and_eq_true, decide_eq_true_eq,
    Config.frameRegionBytes] at hl
  obtain ⟨⟨-, hh⟩, fits⟩ := hl
  have count := mbCount_le (w := w) (Nat.pos_of_ne_zero hh) (by omega)
  refine StoresMapped.append (zeroCells_mapped fun j hj => region_of_work cap ?_)
    (zeroCells_mapped fun j hj => region_of_mvarr cap ?_)
  · simp only [predBlkBase, workEnd] at *
    omega
  · simp only [mvarrBase] at *
    omega

/-! The memory inside the regions. -/

/-- Every byte the memory lists lies in a memory region. -/
def MemMapped (s : State) : Prop := ∀ c ∈ s.mem, InMemoryRegion s.params.streamCap c.1

/-- Nothing but the memory and the capacity matters. -/
theorem MemMapped.congr {s t : State} (h : MemMapped s) (hm : t.mem = s.mem) (hp : t.params = s.params) :
    MemMapped t := by
  unfold MemMapped
  rw [hm, hp]
  exact h

theorem MemMapped.storeCells {s : State} (h : MemMapped s) {cells : List Host.Cell}
    (hc : StoresMapped s.params.streamCap cells) : MemMapped (s.storeCells cells) := fun c hm =>
  (mem_setAll_sub cells s.mem c hm).elim (hc c) (h c)

theorem MemMapped.setBsBits {s : State} (h : MemMapped s) (st : Stream) (v : Word) : MemMapped (s.setBsBits st v) :=
  h.congr (setBsBits_mem s st v) (setBsBits_params s st v)

theorem MemMapped.setRes {s : State} (h : MemMapped s) (n : Fin 8) (v : Word) : MemMapped (s.setRes n v) :=
  h.congr (setRes_mem s n v) (setRes_params s n v)

theorem MemMapped.mbViewResults {s : State} (h : MemMapped s) (p : Plane) : MemMapped (mbViewResults s p) :=
  ((((((h.setRes _ _).setRes _ _).setRes _ _).setRes _ _).setRes _ _).setRes _ _).setRes _ _

theorem MemMapped.setMotion {s : State} (h : MemMapped s) (m : Motion) : MemMapped (setMotion s m) :=
  ((h.setRes _ _).setRes _ _).setRes _ _

theorem MemMapped.setCoef {s : State} (h : MemMapped s) {k : Nat} (hk : k ≤ 5) (b : Block) :
    MemMapped (s.setCoef k b) :=
  h.storeCells (coefCells_mapped _ hk b)

theorem MemMapped.loadSrc {s : State} (h : MemMapped s) (p : Plane) (mbx mby : Nat) :
    MemMapped (loadSrc s p mbx mby) :=
  h.storeCells (loadSrcCells_mapped _ s p mbx mby)

theorem MemMapped.predictToBlk {s : State} (h : MemMapped s) (p : Plane) (mbx mby : Nat) (mvx mvy : Int) :
    MemMapped (predictToBlk s p mbx mby mvx mvy) :=
  h.storeCells (predBlkCells_mapped _ s p mbx mby mvx mvy)

theorem MemMapped.residual {s : State} (h : MemMapped s) (mbx mby : Nat) : MemMapped (residual s mbx mby) :=
  h.storeCells (residCells_mapped _ s mbx mby)

theorem MemMapped.storeRef {s : State} (h : MemMapped s) {w ht : Nat} (hf : FrameSize s w ht) :
    MemMapped (storeRef s) :=
  h.storeCells (((planeCopyCells_mapped hf _ .y).append (planeCopyCells_mapped hf _ .u)).append
    (planeCopyCells_mapped hf _ .v))

theorem MemMapped.commitFrame {s : State} (h : MemMapped s) {w ht : Nat} (hf : FrameSize s w ht) (t : FrameType) :
    MemMapped (commitFrame t s) :=
  (h.storeRef hf).congr (by simp only [Machine.commitFrame, setRes_mem])
    (by simp only [Machine.commitFrame, setRes_params])

/-- INIT with a legal size. -/
theorem MemMapped.initDone {s : State} (h : MemMapped s) {w ht : Nat} (hl : geometryLegal w ht = true) :
    MemMapped (initDone s w ht) := by
  have stored : MemMapped (s.storeCells (initCells w ht)) := h.storeCells (initCells_mapped _ hl)
  unfold Machine.initDone
  generalize initCells w ht = cells at *
  exact stored

/-! Parts of a command. -/

/-- What the first part leaves true and the second keeps, their sequence leaves true. -/
theorem andThen_invariant {P : State → Prop} {r : Run} {f : State → Run} (hr : P r.state)
    (hf : ∀ t, P t → P (f t).state) : P (r.andThen f).state := by
  cases r with
  | ok t => exact hf t hr
  | error t e => exact hr

/-- What holds at the start of a loop and what each part keeps, its end has. -/
theorem forEach_invariant {α : Type} {P : State → Prop} {f : α → State → Run} {xs : List α}
    (hf : ∀ x ∈ xs, ∀ t, P t → P (f x t).state) {s : State} (hs : P s) : P (Run.forEach f xs s).state := by
  induction xs generalizing s with
  | nil => exact hs
  | cons x xs ih =>
    have first := hf x (by simp) s hs
    rw [forEach_cons]
    rcases hx : f x s with t | ⟨t, e⟩ <;> rw [hx] at first
    · exact ih (fun y hy => hf y (by simp [hy])) first
    · exact first

theorem withPlane_memMapped (sel : BitVec 4) {s : State} {f : Plane → Run} (h : MemMapped s)
    (hf : ∀ p, MemMapped (f p).state) : MemMapped (withPlane sel s f).state := by
  rcases withPlane_cases sel s f with ⟨p, -, -, e⟩ | ⟨-, -, e⟩ <;> rw [e]
  · exact hf p
  · exact h

theorem withBlock_memMapped (sel : BitVec 4) {s : State} {f : Nat → Run} (h : MemMapped s)
    (hf : ∀ k ≤ 5, MemMapped (f k).state) : MemMapped (withBlock sel s f).state := by
  rcases withBlock_cases sel s f with ⟨hk, -, e⟩ | ⟨-, -, e⟩ <;> rw [e]
  · exact hf _ hk
  · exact h

/-- Past the check for a geometry the registers are those of a frame. -/
theorem withGeometry_memMapped {s : State} {r : Run} (hs : s.Inv) (h : MemMapped s)
    (hr : FrameSize s s.geom.w.toNat s.geom.h.toNat → MemMapped r.state) : MemMapped (withGeometry s r).state := by
  rcases withGeometry_cases s r with ⟨hv, e⟩ | ⟨-, e⟩ <;> rw [e]
  · exact hr (frameSize_of_inv hs hv)
  · exact h

/-! The streams. -/

theorem putBits_memMapped {s : State} (h : MemMapped s) (st : Stream) (p : Nat) (v : Word) (i : Nat) {n : Nat}
    (fits : p + n ≤ 8 * s.params.streamCap) : MemMapped (s.putBits st p v i n) := by
  induction n generalizing s p i with
  | zero => exact h
  | succ n ih =>
    have bit : StoresMapped s.params.streamCap
        [(streamBase st + p / 8, byteWithBit (s.readByte (streamBase st + p / 8)) (p % 8) (v.getLsbD i))] :=
      List.forall_mem_singleton.2 (region_of_stream st (by omega))
    exact ih (h.storeCells bit) (p + 1) (i + 1) (by rw [storeCells_params]; omega)

/-- `emit` stores below the capacity, which it checks first (46_bitstream.md R702). -/
theorem emit_memMapped (st : Stream) (f : Field) {s : State} (h : MemMapped s) : MemMapped (emit st f s).state := by
  unfold emit
  simp only
  split
  · exact h
  · rename_i hcap
    rw [ceilDiv_eight] at hcap ⊢
    have extended : MemMapped (s.extendStream st (((s.bsBits st).toNat + f.width + 7) / 8)) :=
      h.storeCells (zeroCells_mapped fun j hj => region_of_stream st (by omega))
    refine MemMapped.setBsBits (putBits_memMapped extended st _ _ _ ?_) st _
    rw [State.extendStream, storeCells_params]
    omega

theorem emitAll_memMapped (st : Stream) (fs : List Field) {s : State} (h : MemMapped s) :
    MemMapped (emitAll st fs s).state :=
  forEach_invariant (fun f _ _ => emit_memMapped st f) h

theorem align_memMapped (st : Stream) {s : State} (h : MemMapped s) : MemMapped (align st s).state := by
  unfold align
  simp only
  split
  · exact h
  · exact emit_memMapped st _ h

/-- A command that emits fields and counts them. -/
theorem emitCounted_memMapped (st : Stream) (fs : List Field) {s : State} (h : MemMapped s) :
    MemMapped ((emitAll st fs s).andThen (withBitsWritten st s)).state :=
  andThen_invariant (P := MemMapped) (emitAll_memMapped st fs h) fun _ ht => ht

/-! One frame. -/

/-- The registers are those of a w × h frame, and the memory is inside the regions. -/
structure FrameMapped (w h : Nat) (s : State) : Prop where
  size : FrameSize s w h
  memory : MemMapped s

/-- The geometry registers alone say what frame it is. -/
theorem FrameSize.congr {s t : State} {w h : Nat} (hf : FrameSize s w h) (hg : t.geom = s.geom) :
    FrameSize t w h :=
  ⟨hf.w_pos, hf.h_pos, hf.w_le, hf.h_le, hf.fits, hg ▸ hf.width, hg ▸ hf.height, hg ▸ hf.cols, hg ▸ hf.rows,
    hg ▸ hf.yStride, hg ▸ hf.cStride, hg ▸ hf.cw, hg ▸ hf.ch, hg ▸ hf.uOff, hg ▸ hf.vOff⟩

/-- Parts that keep the geometry have only their stores to account for. -/
theorem FrameMapped.of_sameGeometry {w h : Nat} {s t : State} (hs : FrameMapped w h s) (hg : SameGeometry s t)
    (ht : MemMapped t) : FrameMapped w h t :=
  ⟨hs.size.congr hg.geom, ht⟩

/-- A macroblock of the grid has its vector in MVARR. -/
theorem mbIndex_lt {s : State} {w h : Nat} (hf : FrameSize s w h) {mbx mby : Nat} (hx : mbx < (w + 15) / 16)
    (hy : mby < (h + 15) / 16) : s.mbIndex mbx mby < 0x00100000 := by
  have count : (w + 15) / 16 * ((h + 15) / 16) ≤ 0x00100000 := mbCount_le hf.h_pos (by have := hf.fits; omega)
  have row : (mby + 1) * ((w + 15) / 16) ≤ (h + 15) / 16 * ((w + 15) / 16) := Nat.mul_le_mul_right _ hy
  rw [Nat.mul_comm ((h + 15) / 16), Nat.add_mul, Nat.one_mul] at row
  rw [State.mbIndex, hf.cols]
  omega

theorem mbCoords_bounds {s : State} {w h : Nat} (hf : FrameSize s w h) {mb : Nat × Nat} (hmb : mb ∈ s.mbCoords) :
    mb.1 < (w + 15) / 16 ∧ mb.2 < (h + 15) / 16 := by
  obtain ⟨p, hp, rfl⟩ := List.mem_map.1 hmb
  rw [mem_rowsCols, hf.cols, hf.rows] at hp
  exact hp.symm

theorem codeStagedBlock_memMapped (scale : Nat) {k : Nat} (hk : k ≤ 5) {s : State} (h : MemMapped s) :
    MemMapped (codeStagedBlock scale k s).state :=
  emitAll_memMapped .stream1 _ (((h.setCoef hk _).setCoef hk _).setCoef hk _)

theorem codeStagedBlocks_memMapped (scale : Nat) {ks : List Nat} (hks : ∀ k ∈ ks, k ≤ 5) {s : State}
    (h : MemMapped s) : MemMapped (Run.forEach (codeStagedBlock scale) ks s).state :=
  forEach_invariant (fun k hk _ ht => codeStagedBlock_memMapped scale (hks k hk) ht) h

theorem codeZeroBlocks_memMapped {ks : List Nat} (hks : ∀ k ∈ ks, k ≤ 5) {s : State} (h : MemMapped s) :
    MemMapped (Run.forEach codeZeroBlock ks s).state :=
  forEach_invariant (fun k hk _ ht => emitAll_memMapped .stream1 _ (ht.setCoef (hks k hk) _)) h

theorem encodeIntraMb_memMapped (scale : Nat) (mb : Nat × Nat) {s : State} (h : MemMapped s) :
    MemMapped (encodeIntraMb scale mb s).state :=
  codeStagedBlocks_memMapped scale (by decide) (((h.loadSrc .y mb.1 mb.2).loadSrc .u mb.1 mb.2).loadSrc .v mb.1 mb.2)

theorem encodePredictedMb_memMapped (diamond : Bool) (scale range : Nat) {mb : Nat × Nat} {s : State}
    (hi : s.mbIndex mb.1 mb.2 < 0x00100000) (h : MemMapped s) :
    MemMapped (encodePredictedMb diamond scale range mb s).state := by
  refine andThen_invariant (emitAll_memMapped .stream0 _ (h.storeCells (mvCells_mapped _ hi _ _))) fun t ht => ?_
  refine andThen_invariant (codeStagedBlocks_memMapped scale (by decide) ?_) fun u hu =>
    codeZeroBlocks_memMapped (by decide) hu
  exact (ht.predictToBlk .y mb.1 mb.2 _ _).residual mb.1 mb.2

theorem encodeMbs_frameMapped (t : FrameType) (diamond : Bool) (scale range : Nat) {w h : Nat} {s : State}
    (hs : FrameMapped w h s) : FrameMapped w h (encodeMbs t diamond scale range s).state := by
  cases t with
  | i =>
    exact forEach_invariant (fun mb _ u hu =>
      hu.of_sameGeometry (encodeIntraMb_sameGeometry scale mb u) (encodeIntraMb_memMapped scale mb hu.memory)) hs
  | p =>
    refine forEach_invariant (fun mb hmb u hu =>
      hu.of_sameGeometry (encodePredictedMb_sameGeometry diamond scale range mb u) ?_) hs
    obtain ⟨hx, hy⟩ := mbCoords_bounds hs.size hmb
    exact encodePredictedMb_memMapped diamond scale range (mbIndex_lt hu.size hx hy) hu.memory

theorem align_frameMapped (st : Stream) {w h : Nat} {s : State} (hs : FrameMapped w h s) :
    FrameMapped w h (align st s).state :=
  hs.of_sameGeometry (align_sameGeometry st s) (align_memMapped st hs.memory)

theorem commitFrame_frameMapped (t : FrameType) {w h : Nat} {s : State} (hs : FrameMapped w h s) :
    FrameMapped w h (commitFrame t s) :=
  hs.of_sameGeometry (commitFrame_sameGeometry t s) (hs.memory.commitFrame hs.size t)

/-- Steps 3 to 8 of ENCODE_FRAME store inside the regions. -/
theorem encodeFrameBody_memMapped (t : FrameType) {w h : Nat} {s : State} (hf : FrameSize s w h) (hs : MemMapped s) :
    MemMapped (encodeFrameBody t s).state := by
  have cleared : FrameMapped w h ((s.setBsBits .stream0 0).setBsBits .stream1 0) :=
    ⟨hf.congr rfl, (hs.setBsBits .stream0 0).setBsBits .stream1 0⟩
  have coded := encodeMbs_frameMapped t s.snapshotMeMode (qpToScale s.cfg.qp.toNat) s.cfg.range.toNat cleared
  have flushed := andThen_invariant (andThen_invariant coded fun _ => align_frameMapped .stream0) fun _ =>
    align_frameMapped .stream1
  exact (andThen_invariant flushed fun _ => commitFrame_frameMapped t).memory

/-! Every command. -/

theorem runInit_memMapped {s : State} (h : MemMapped s) : MemMapped (runInit s).state := by
  unfold runInit
  split
  · rename_i hl
    exact h.initDone hl
  · exact h

theorem runBsWriteBits_memMapped (st : Stream) {s : State} (h : MemMapped s) :
    MemMapped (runBsWriteBits st s).state := by
  unfold runBsWriteBits
  simp only
  split
  · exact h
  · exact emit_memMapped st _ h

theorem runEncodeFrame_memMapped {s : State} (hs : s.Inv) (h : MemMapped s) : MemMapped (runEncodeFrame s).state := by
  refine withGeometry_memMapped hs h fun hf => ?_
  simp only
  split
  · exact h
  · exact encodeFrameBody_memMapped _ hf h

/-- No command stores outside the regions: its operands are work buffers, a stream up to its capacity, or, past the
check for a geometry, a frame that fits its region. -/
theorem runInstr_memMapped (i : Instr) {s : State} (hs : s.Inv) (h : MemMapped s) :
    MemMapped (runInstr i s).state := by
  cases i with
  | nop => exact h
  | qpScale | rcFrameType => exact h.setRes 0 _
  | rcChooseQp => exact h.congr rfl rfl
  | init => exact runInit_memMapped h
  | mbView sel => exact withPlane_memMapped sel h fun p => withGeometry_memMapped hs h fun _ => h.mbViewResults p
  | meFull | meDiamond => exact withGeometry_memMapped hs h fun _ => h.setMotion _
  | loadSrc sel => exact withPlane_memMapped sel h fun p => withGeometry_memMapped hs h fun _ => h.loadSrc p _ _
  | mcBlock sel =>
    exact withPlane_memMapped sel h fun p => withGeometry_memMapped hs h fun _ => h.predictToBlk p _ _ _ _
  | residual => exact withGeometry_memMapped hs h fun _ => h.residual _ _
  | storeRef => exact withGeometry_memMapped hs h fun hf => h.storeRef hf
  | mcFrame => exact withGeometry_memMapped hs h fun hf => h.storeCells (predFrameCells_mapped hf _)
  | loadBlk sel | zeroBlk sel | fdct8 sel | idct8 sel | quant sel | dequant sel =>
    exact withBlock_memMapped sel h fun k hk => h.setCoef hk _
  | fdct16 | idct16 =>
    exact (((h.setCoef (k := 0) (by decide) _).setCoef (k := 1) (by decide) _).setCoef (k := 2) (by decide) _).setCoef
      (k := 3) (by decide) _
  | encBlock sel st => exact withBlock_memMapped sel h fun k _ => emitCounted_memMapped st _ h
  | encMv st | encMb st => exact emitCounted_memMapped st _ h
  | bsClear st => exact h.setBsBits st 0
  | bsWriteBits st => exact runBsWriteBits_memMapped st h
  | bsWriteByte st => exact andThen_invariant (align_memMapped st h) fun _ => emit_memMapped st _
  | bsFlush st => exact align_memMapped st h
  | encodeFrame => exact runEncodeFrame_memMapped hs h

/-- The end of a run stores nothing. -/
theorem finish_memMapped {opc : BitVec 8} {r : Run} {t : State} (h : MemMapped r.state)
    (ht : Run.finish opc r = .next t) : MemMapped t := by
  cases r with
  | ok u => cases ht; exact h
  | error u e => cases ht; exact h

theorem engineStep_memMapped {s t : State} (hs : s.Inv) (h : MemMapped s) (ht : engineStep s = .next t) :
    MemMapped t := by
  rcases engineStep_cases s with ⟨-, e⟩ | ⟨-, run, -, ⟨i, -, e⟩ | ⟨-, e⟩⟩ <;> rw [e] at ht
  · cases ht; exact h
  · rw [exec_eq] at ht
    exact finish_memMapped (runInstr_memMapped i hs h) ht
  · exact finish_memMapped (r := .error s .illegalCmd) h ht

/-! Host accesses and the reset input. -/

/-- A host write stores only what is mapped (R208). -/
theorem hostWrite_memMapped {s : State} (h : MemMapped s) (a n : Nat) (v : Word) : MemMapped (s.hostWrite a n v) :=
  h.storeCells fun _ hc => (mapped_iff_region s _).1 (List.mem_filter.1 hc).2

theorem writeReg_memMapped {s : State} (h : MemMapped s) (v : Word) (r : Reg) : MemMapped (s.writeReg v r) := by
  cases r with
  | status => rw [State.writeReg, writeStatus_eq]; exact h
  | _ => exact h

theorem busWrite_memMapped {s : State} (h : MemMapped s) (w : Width) (addr v : Word) :
    MemMapped (s.busWrite w addr v) := by
  unfold State.busWrite
  split
  · rename_i run _
    rcases busWriteBusy_cases s run addr v with ⟨-, -, e⟩ | ⟨-, e⟩ | ⟨-, -, e⟩ <;> rw [e]
    · rw [writeStatus_eq]; exact h
    · exact h
    · exact h
  · unfold State.busWriteIdle
    split
    · split
      · exact h
      · exact writeReg_memMapped h v _
    · exact hostWrite_memMapped h _ _ v

theorem access_memMapped {s : State} (h : MemMapped s) (a : Access) : MemMapped (s.access a) := by
  cases a with
  | read w addr =>
    obtain ⟨d, hd⟩ := access_read s w addr
    rw [hd]
    exact h
  | write w addr v =>
    unfold State.access
    simp only
    split
    · exact h
    · split
      · exact busWrite_memMapped h w addr v
      · exact h

/-- A reset lists no byte (70_reset_and_hazards.md R1001). -/
theorem setRst_memMapped {s : State} (h : MemMapped s) (level : Bool) : MemMapped (s.setRst level) := by
  unfold State.setRst
  split
  · exact h
  · split
    · exact fun c hc => absurd hc List.not_mem_nil
    · exact h

/-- Settles O12: an engine's turn stores inside the regions command by command, a host write by its own check. -/
theorem storesStayInMappedMemory : Obligations.StoresStayInMappedMemory := by
  intro s t hs h ht
  rcases hsch : s.schedule with _ | ⟨_ | a | level, rest⟩
  · rw [step_nil hsch] at ht
    exact engineStep_memMapped hs h ht
  · rw [step_engine hsch] at ht
    exact engineStep_memMapped (hs.withSchedule rest) h ht
  · rw [step_access hsch] at ht
    cases ht
    exact access_memMapped (s := { s with schedule := rest }) h a
  · rw [step_rst hsch] at ht
    cases ht
    exact setRst_memMapped (s := { s with schedule := rest }) h level

end Sys2Proof.Machine
end

section
/-! SUPPORT. The command word: its four fields as numbers, the rows of the opcode map, and what the decoder accepts
(30_encoding.md R301, R306, R307, R309). -/

namespace Sys2Proof.Machine

/-! The fields of a word. -/

theorem toNat_opc (w : Word) : (Word.opc w).toNat = w.toNat % 256 := by
  simp [Word.opc]

theorem toNat_sel (w : Word) : (Word.sel w).toNat = w.toNat / 2 ^ 8 % 16 := by
  simp [Word.sel, Nat.shiftRight_eq_div_pow]

theorem sBit_iff (w : Word) : Word.sBit w = true ↔ w.toNat / 2 ^ 12 % 2 = 1 := by
  simp [Word.sBit, BitVec.getLsbD, Nat.testBit_eq_decide_div_mod_eq]

theorem toNat_rsv (w : Word) : (Word.rsv w).toNat = w.toNat / 2 ^ 13 := by
  have bound := w.isLt
  rw [Word.rsv, BitVec.extractLsb'_toNat, Nat.shiftRight_eq_div_pow]
  omega

theorem rsv_eq_zero_iff (w : Word) : Word.rsv w = 0 ↔ w.toNat / 2 ^ 13 = 0 := by
  rw [← BitVec.toNat_inj, toNat_rsv]
  rfl

/-- The low byte of a word as a number. -/
theorem lowByte_eq (w : Word) : w.extractLsb' 0 8 = BitVec.ofNat 8 (w.toNat % 256) :=
  BitVec.eq_of_toNat_eq (by simp)

/-- The four fields make up the whole word. -/
theorem word_ext {v w : Word} (opc : Word.opc v = Word.opc w) (sel : Word.sel v = Word.sel w)
    (s : Word.sBit v = Word.sBit w) (rsv : Word.rsv v = Word.rsv w) : v = w := by
  rw [← BitVec.toNat_inj, toNat_opc, toNat_opc] at opc
  rw [← BitVec.toNat_inj, toNat_sel, toNat_sel] at sel
  rw [Bool.eq_iff_iff, sBit_iff, sBit_iff] at s
  rw [← BitVec.toNat_inj, toNat_rsv, toNat_rsv] at rsv
  apply BitVec.eq_of_toNat_eq
  omega

@[simp] theorem ofBit_bit (st : Stream) : Stream.ofBit st.bit = st := by cases st <;> rfl

@[simp] theorem bit_ofBit (b : Bool) : (Stream.ofBit b).bit = b := by cases b <;> rfl

/-! The rows of the opcode map. -/

/-- No opcode has two rows. -/
theorem opcodeRows_unique {r r' : OpcodeRow} (hr : r ∈ opcodeRows) (hr' : r' ∈ opcodeRows) (h : r.opc = r'.opc) :
    r = r' :=
  List.inj_on_of_nodup_map (f := OpcodeRow.opc) (by decide) hr hr' h

theorem findOpcodeRow_eq_some_iff {opc : BitVec 8} {row : OpcodeRow} :
    findOpcodeRow opc = some row ↔ row ∈ opcodeRows ∧ row.opc = opc := by
  constructor
  · intro h
    exact ⟨List.mem_of_find?_eq_some h, by simpa using List.find?_some h⟩
  · rintro ⟨hrow, rfl⟩
    have found : (findOpcodeRow row.opc).isSome = true := List.find?_isSome.2 ⟨row, hrow, beq_self_eq_true _⟩
    obtain ⟨row', hfind⟩ := Option.isSome_iff_exists.1 found
    have same : row'.opc = row.opc := by simpa using List.find?_some hfind
    rw [hfind, opcodeRows_unique (List.mem_of_find?_eq_some hfind) hrow same]

/-- A well-formed command has the row of its opcode, which takes its fields and gives it back. -/
theorem row_of_wf {i : Instr} (h : i.wf = true) : ∃ row, findOpcodeRow i.opcode = some row
    ∧ (i.sField = true → row.usesS = true) ∧ i.selField.toNat ≤ row.selMax
    ∧ row.command i.selField (Stream.ofBit i.sField) = i := by
  cases i with
  | mbView | loadSrc | mcBlock | loadBlk | zeroBlk | fdct8 | idct8 | quant | dequant =>
    exact ⟨_, rfl, nofun, of_decide_eq_true h, rfl⟩
  | encBlock sel st => exact ⟨_, rfl, fun _ => rfl, of_decide_eq_true h, congrArg _ (ofBit_bit st)⟩
  | encMv st | encMb st | bsClear st | bsWriteBits st | bsWriteByte st | bsFlush st =>
    exact ⟨_, rfl, fun _ => rfl, Nat.le_refl 0, congrArg _ (ofBit_bit st)⟩
  | _ => exact ⟨_, rfl, nofun, Nat.le_refl 0, rfl⟩

/-- The fields of a row's command: a row without SEL takes 0 alone, and a row without S drops it. -/
theorem command_fields {row : OpcodeRow} (hrow : row ∈ opcodeRows) (sel : BitVec 4) (st : Stream)
    (hsel : sel.toNat ≤ row.selMax) :
    (row.command sel st).opcode = row.opc ∧ (row.command sel st).sField = (row.usesS && st.bit)
      ∧ (row.command sel st).selField = sel ∧ (row.command sel st).wf = true := by
  fin_cases hrow
  all_goals refine ⟨rfl, rfl, ?_⟩
  -- the rows with a selector
  any_goals exact ⟨rfl, decide_eq_true hsel⟩
  -- the rows without
  all_goals exact ⟨(BitVec.eq_of_toNat_eq (Nat.le_zero.1 hsel)).symm, rfl⟩

/-! The decoder. -/

/-- The word is legal, by this row of R307 (R306). -/
structure LegalBy (w : Word) (row : OpcodeRow) : Prop where
  listed : row ∈ opcodeRows
  opcode : row.opc = Word.opc w
  reserved : Word.rsv w = 0
  stream : Word.sBit w = true → row.usesS = true
  selector : (Word.sel w).toNat ≤ row.selMax

/-- What the decoder accepts, and as what. -/
theorem decode_eq_ok_iff {w : Word} {i : Instr} : decode w = .ok i ↔
    ∃ row, LegalBy w row ∧ row.command (Word.sel w) (Stream.ofBit (Word.sBit w)) = i := by
  constructor
  · intro h
    unfold decode at h
    split at h
    · cases h
    · rename_i row hfind
      obtain ⟨listed, opcode⟩ := findOpcodeRow_eq_some_iff.1 hfind
      split_ifs at h with hrsv hstream hsel
      cases h
      exact ⟨row, ⟨listed, opcode, not_not.1 hrsv, by simpa using hstream, Nat.not_lt.1 hsel⟩, rfl⟩
  · rintro ⟨row, legal, rfl⟩
    simpa [decode, findOpcodeRow_eq_some_iff.2 ⟨legal.listed, legal.opcode⟩, legal.reserved,
      Nat.not_lt.2 legal.selector] using legal.stream

/-- The decoder rejects exactly the words that no row makes legal. -/
theorem decode_rejects_iff (w : Word) : (∀ i, decode w ≠ .ok i) ↔ ∀ row, ¬ LegalBy w row := by
  simp [decode_eq_ok_iff]

/-- Settles O1: the word has the command's own fields, and the row of its opcode reads them back. -/
theorem decodeOfEncodeIsTheCommand : Obligations.DecodeOfEncodeIsTheCommand := by
  intro i hwf
  obtain ⟨opc, sel, s, rsv⟩ := Laws.encodeFields_of i
  obtain ⟨row, hfind, stream, selector, command⟩ := row_of_wf hwf
  obtain ⟨listed, opcode⟩ := findOpcodeRow_eq_some_iff.1 hfind
  rw [← s] at stream command
  rw [← sel] at selector command
  exact decode_eq_ok_iff.2 ⟨row, ⟨listed, opcode.trans opc.symm, rsv, stream, selector⟩, command⟩

/-- Settles O2: the command of the word's row has the word's fields, and they make up the word (`word_ext`). -/
theorem decodedWordEncodesBack : Obligations.DecodedWordEncodesBack := by
  intro w i h
  obtain ⟨row, legal, rfl⟩ := decode_eq_ok_iff.1 h
  obtain ⟨hopc, hs, hsel, hwf⟩ :=
    command_fields legal.listed (Word.sel w) (Stream.ofBit (Word.sBit w)) legal.selector
  rw [bit_ofBit, Bool.and_eq_right_iff_imp.2 legal.stream] at hs
  obtain ⟨opc, sel, s, rsv⟩ := Laws.encodeFields_of (row.command (Word.sel w) (Stream.ofBit (Word.sBit w)))
  exact ⟨hwf, word_ext (opc.trans (hopc.trans legal.opcode)) (sel.trans hsel) (s.trans hs)
    (rsv.trans legal.reserved.symm)⟩

/-! The illegal words. -/

/-- The statements' opcode map is the decoder's. -/
theorem opcodeMap_eq : opcodeMap = opcodeRows.map fun r => (r.opc.toNat, r.selMax, r.usesS) := rfl

/-- A row has the opcode of a word exactly when it has its low byte. -/
theorem opc_toNat_eq_iff (row : OpcodeRow) (w : Word) : row.opc.toNat = w.toNat % 256 ↔ row.opc = Word.opc w := by
  rw [← toNat_opc, BitVec.toNat_inj]

/-- The four items of R306, on the decoder's rows and the fields of the word. -/
theorem illegalWord_items (w : Word) : illegalWord w ↔
    (∀ row ∈ opcodeRows, row.opc ≠ Word.opc w)
      ∨ Word.rsv w ≠ 0
      ∨ (∃ row ∈ opcodeRows, row.opc = Word.opc w ∧ Word.sBit w = true ∧ row.usesS = false)
      ∨ (∃ row ∈ opcodeRows, row.opc = Word.opc w ∧ row.selMax < (Word.sel w).toNat) := by
  simp only [illegalWord, opcodeMap_eq, List.mem_map, forall_exists_index, and_imp, forall_apply_eq_imp_iff₂,
    exists_exists_and_eq_and, Ne, opc_toNat_eq_iff, sBit_iff, toNat_sel, rsv_eq_zero_iff]

/-- A word is illegal when no row makes it legal. -/
theorem illegalWord_iff (w : Word) : illegalWord w ↔ ∀ row, ¬ LegalBy w row := by
  rw [illegalWord_items]
  constructor
  · rintro (unlisted | reserved | ⟨row', listed, opcode, hs, unused⟩ | ⟨row', listed, opcode, out⟩) row legal
    · exact unlisted row legal.listed legal.opcode
    · exact reserved legal.reserved
    · obtain rfl := opcodeRows_unique listed legal.listed (opcode.trans legal.opcode.symm)
      exact Bool.false_ne_true (unused.symm.trans (legal.stream hs))
    · obtain rfl := opcodeRows_unique listed legal.listed (opcode.trans legal.opcode.symm)
      exact Nat.not_lt.2 legal.selector out
  · intro h
    by_contra! hlegal
    obtain ⟨⟨row, listed, opcode⟩, reserved, stream, selector⟩ := hlegal
    exact h row ⟨listed, opcode, reserved, fun hs => by simpa using stream row listed opcode hs,
      selector row listed opcode⟩

/-- The illegal words are those the decoder rejects (R306, R309). -/
theorem illegalWord_iff_rejected (w : Word) : illegalWord w ↔ ∀ i, decode w ≠ .ok i :=
  (illegalWord_iff w).trans (decode_rejects_iff w).symm

/-- Settles O4: the words of ten rows, decoded. -/
theorem opcodeTableWordsDecode : Obligations.OpcodeTableWordsDecode :=
  ⟨rfl, rfl, rfl, rfl, rfl, rfl, rfl, rfl, rfl, rfl⟩

end Sys2Proof.Machine
end

section
/-! SUPPORT. The life of a command: its word is accepted, waits through the BUSY window, and the engine's turn completes
it (30_encoding.md R303 to R306). -/

namespace Sys2Proof.Machine

/-! The engine's turn. -/

section

variable {s : State} {run : Running}

theorem engineStep_decoded {i : Instr} (hrst : s.rst = false) (hrun : s.running = some run)
    (hd : decode run.word = .ok i) : engineStep s = exec i s := by
  simp [engineStep, hrst, hrun, runWord, hd]

/-- A word the decoder rejects records ILLEGAL_CMD and does nothing else (R306). -/
theorem engineStep_rejected (hrst : s.rst = false) (hrun : s.running = some run)
    (hd : ∀ i, decode run.word ≠ .ok i) :
    engineStep s = .next { s with
      running := none, done := true, err := true, errCode := 1,
      errOpc := BitVec.ofNat 8 (run.word.toNat % 256) } := by
  rcases engineStep_cases s with ⟨idle, -⟩ | ⟨-, run', hrun', ⟨i, hi, -⟩ | ⟨-, e⟩⟩
  · simp [hrst, hrun] at idle
  · cases hrun.symm.trans hrun'
    exact absurd hi (hd i)
  · cases hrun.symm.trans hrun'
    rw [e, runIllegal, lowByte_eq]
    rfl

theorem engineStep_idle (hidle : s.running = none) : engineStep s = .next s := by
  simp [engineStep, hidle]

/-- The engine's turn completes the running command, whatever its word (R303). -/
theorem engineStep_completes (hrst : s.rst = false) (hrun : s.running = some run) :
    ∃ t, engineStep s = .next t ∧ t.running = none ∧ t.done = true ∧ t.lastCmd = s.lastCmd
      ∧ t.schedule = s.schedule := by
  by_cases hd : ∃ i, decode run.word = .ok i
  · obtain ⟨i, hi⟩ := hd
    rw [engineStep_decoded hrst hrun hi]
    rcases exec_cases i s with ⟨t, -, same, h⟩ | ⟨t, e, -, same, h⟩
    · exact ⟨_, h, rfl, rfl, same.lastCmd, same.schedule⟩
    · exact ⟨_, h, rfl, rfl, same.lastCmd, same.schedule⟩
  · exact ⟨_, engineStep_rejected hrst hrun (not_exists.1 hd), rfl, rfl, rfl, rfl⟩

end

/-- The step after `withFetchWord` is the engine's turn with the word accepted. -/
theorem step_withFetchWord (s : State) (w : Word) :
    step (s.withFetchWord 32 w.toNat)
      = engineStep { s with rst := false, lastCmd := w, running := some { word := w, ctrl := s.ctrl } } := by
  have low : BitVec.ofNat 32 (w.toNat % 2 ^ 32) = w := by
    rw [Nat.mod_eq_of_lt w.isLt, BitVec.ofNat_toNat, BitVec.setWidth_eq]
  rcases hs : s.schedule with _ | ⟨e, es⟩
  · rw [step_nil (by simp only [State.withFetchWord, hs])]
    simp only [State.withFetchWord, low, hs]
  · rw [step_engine (rest := e :: es) (by simp only [State.withFetchWord, hs])]
    simp only [State.withFetchWord, low]

/-- Settles O5: the engine's turn runs what its word decodes to, and an encoding decodes to its command (O1). -/
theorem stepRunsTheAcceptedCommand : Obligations.StepRunsTheAcceptedCommand := by
  refine ⟨fun s run i hrst hrun hd => ⟨fun hs => ?_, fun rest hs => ?_⟩, fun s i hwf => ?_⟩
  · rw [step_nil hs, engineStep_decoded hrst hrun hd]
  · rw [step_engine hs]
    exact engineStep_decoded (s := { s with schedule := rest }) hrst hrun hd
  · rw [step_withFetchWord]
    exact engineStep_decoded rfl rfl (decodeOfEncodeIsTheCommand i hwf)

/-- Settles O3: the decoder rejects the illegal words (`illegalWord_iff_rejected`), and the engine's turn records a
rejected one. -/
theorem illegalWordsRaiseIllegalCmd : Obligations.IllegalWordsRaiseIllegalCmd := by
  refine fun w => ⟨illegalWord_iff_rejected w, ?_⟩
  rintro hw s run hrst hrun rfl
  have rejected := (illegalWord_iff_rejected run.word).1 hw
  refine ⟨fun hs => ?_, fun rest hs => ?_⟩
  · rw [step_nil hs, engineStep_rejected hrst hrun rejected]
  · rw [step_engine hs]
    exact engineStep_rejected (s := { s with schedule := rest }) hrst hrun rejected

/-- Settles O6: the acceptance is a register write, the window leaves the command running (`run_busy_window`), and the
engine's turn completes it (`engineStep_completes`). -/
theorem acceptedWordCompletesOnce : Obligations.AcceptedWordCompletesOnce := by
  refine ⟨fun s w window rest hrst hidle hs => ?_, fun s _ hidle => ⟨fun hs => ?_, fun rest hs => ?_⟩⟩
  · have accepted := step_write_reg (r := .cmd) hrst hidle hs
    obtain ⟨m, hrun, running, -, lastCmd, rst, schedule⟩ :=
      run_busy_window { word := w, ctrl := s.ctrl } (.engine :: rest) window
        { s with
          lastCmd := w, running := some { word := w, ctrl := s.ctrl },
          schedule := window.map Event.access ++ .engine :: rest,
          responses := { busError := false, data := 0 } :: s.responses } rfl rfl
    have turn := step_engine schedule
    have released : ({ m with schedule := rest } : State).rst = false := rst.trans hrst
    have pending : ({ m with schedule := rest } : State).running = some { word := w, ctrl := s.ctrl } := running
    obtain ⟨t, ht, idle, done, kept, left⟩ := engineStep_completes released pending
    refine ⟨_, m, t, rfl, accepted, hrun, running, lastCmd, schedule, turn.trans ht, idle, done, kept.trans lastCmd,
      left, fun i hi => ?_, fun hd => ?_⟩
    · rw [turn, engineStep_decoded released pending hi]
    · rw [engineStep_rejected released pending hd] at ht
      exact (Host.Outcome.next.inj ht).symm
  · rw [step_nil hs, engineStep_idle hidle]
  · rw [step_engine hs]
    exact engineStep_idle (s := { s with schedule := rest }) hidle

end Sys2Proof.Machine
end

section
/-! SUPPORT. The BUSY window: what each host access changes while a command runs (30_encoding.md R304, R305). -/

namespace Sys2Proof.Machine

/-- The opcode of a BUSY error is a low byte (R304 item 6). -/
theorem busyOpcode_eq (run : Running) (addr v : Word) : busyOpcode run addr v
    = BitVec.ofNat 8 ((if addr.toNat = 0x010 then v.toNat else run.word.toNat) % 256) := by
  unfold busyOpcode
  rw [lowByte_eq, lowByte_eq, apply_ite (fun n : Nat => BitVec.ofNat 8 (n % 256))]
  rfl

section

variable {s : State} {run : Running} {addr v : Word}

theorem busWriteBusy_w1c (haddr : addr.toNat = 0x00C) (hv : v.getLsbD 1 = true ∨ v.getLsbD 2 = true) :
    s.busWriteBusy run addr v = s.writeStatus v := by
  rcases busWriteBusy_cases s run addr v with ⟨-, -, e⟩ | ⟨h, -⟩ | ⟨h, -, -⟩
  · exact e
  · omega
  · exact absurd ⟨haddr, hv⟩ h

theorem busWriteBusy_ctrl (haddr : addr.toNat = 0x008) : s.busWriteBusy run addr v = s.writeCtrl v := by
  rcases busWriteBusy_cases s run addr v with ⟨h, -, -⟩ | ⟨-, e⟩ | ⟨-, h, -⟩
  · omega
  · exact e
  · exact absurd haddr h

theorem busWriteBusy_lost (hstatus : ¬ (addr.toNat = 0x00C ∧ (v.getLsbD 1 = true ∨ v.getLsbD 2 = true)))
    (hctrl : addr.toNat ≠ 0x008) : s.busWriteBusy run addr v = s.recordError .busy (busyOpcode run addr v) := by
  rcases busWriteBusy_cases s run addr v with ⟨h, hv, -⟩ | ⟨h, -⟩ | ⟨-, -, e⟩
  · exact absurd ⟨h, hv⟩ hstatus
  · exact absurd h hctrl
  · exact e

/-- An allowed write in the window. -/
theorem step_write_busy {w : Width} {rest : List Event} (hrst : s.rst = false) (hrun : s.running = some run)
    (ok : allowedByR202 w addr.toNat) (hs : s.schedule = .access (.write w addr v) :: rest) :
    step s = .next
      ((({ s with schedule := rest } : State).busWriteBusy run addr v).respond { busError := false, data := 0 }) := by
  rw [step_write_allowed hrst ok hs, busWrite_busy { s with schedule := rest } w addr v hrun]

end

/-- A write in the window changes CTRL, DONE and the error record at most. -/
theorem busWriteBusy_frame (s : State) (run : Running) (addr v : Word) : ∃ ctrl done err errCode errOpc,
    s.busWriteBusy run addr v
      = { s with ctrl := ctrl, done := done, err := err, errCode := errCode, errOpc := errOpc } := by
  rcases busWriteBusy_cases s run addr v with ⟨-, -, e⟩ | ⟨-, e⟩ | ⟨-, -, e⟩ <;> rw [e]
  · rw [writeStatus_eq]
    exact ⟨_, _, _, _, _, rfl⟩
  · exact ⟨_, _, _, _, _, rfl⟩
  · exact ⟨_, _, _, _, _, rfl⟩

/-- A write is answered, with its effect or with none. -/
theorem access_write (s : State) (w : Width) (addr v : Word) : ∃ t d,
    (t = s ∨ t = s.busWrite w addr v) ∧ s.access (.write w addr v) = t.respond d := by
  unfold State.access
  simp only
  split
  · exact ⟨s, _, .inl rfl, rfl⟩
  · split
    · exact ⟨_, _, .inr rfl, rfl⟩
    · exact ⟨s, _, .inl rfl, rfl⟩

/-- An access in the window changes CTRL, DONE, the error record and the answers at most. -/
theorem access_busy_frame {s : State} {run : Running} (hrun : s.running = some run) (a : Access) :
    ∃ ctrl done err errCode errOpc responses, s.access a = { s with
      ctrl := ctrl, done := done, err := err, errCode := errCode, errOpc := errOpc, responses := responses } := by
  cases a with
  | read w addr =>
    obtain ⟨d, hd⟩ := access_read s w addr
    exact ⟨_, _, _, _, _, _, hd⟩
  | write w addr v =>
    obtain ⟨t, d, rfl | rfl, hd⟩ := access_write s w addr v
    · exact ⟨_, _, _, _, _, _, hd⟩
    · obtain ⟨ctrl, done, err, errCode, errOpc, h⟩ := busWriteBusy_frame s run addr v
      rw [hd, busWrite_busy s w addr v hrun, h]
      exact ⟨_, _, _, _, _, _, rfl⟩

/-- What such a change leaves: every register but STATUS and CTRL. -/
theorem regValue_of_frame (s : State) (ctrl : BitVec 3) (done err : Bool) (errCode errOpc : BitVec 8)
    (schedule : List Event) (responses : List Response) {r : Reg} (hstatus : r ≠ .status) (hctrl : r ≠ .ctrl) :
    ({ s with
        ctrl := ctrl, done := done, err := err, errCode := errCode, errOpc := errOpc, schedule := schedule,
        responses := responses } : State).regValue r = s.regValue r := by
  cases r with
  | status | ctrl => contradiction
  | _ => rfl

/-- Settles O17: reads by `busRead_reg_busy` and `busRead_memory_busy`, the writes one by one, and what no access
changes by `access_busy_frame`. -/
theorem busyWindowAccesses : Obligations.BusyWindowAccesses := by
  intro s run rest hrst hrun
  have reg_ok : ∀ r : Reg, allowedByR202 .w32 r.addr.toNat := fun r => (accessAllowed_iff .w32 r.addr).1 (by simp)
  refine ⟨fun r hs => ?_, fun w addr hmem ok hs => ?_, fun v hv hs => ?_, fun v hs => ?_,
    fun w addr v hstatus hctrl ok hs => ?_, fun a hs => ?_⟩
  · rw [step_read_allowed hrst (reg_ok r) hs, busRead_reg_busy { s with schedule := rest } r run hrun]
    rfl
  · rw [step_read_allowed hrst ok hs, busRead_memory_busy { s with schedule := rest } w addr hrun hmem]
  · rw [step_write_busy hrst hrun (reg_ok .status) hs, busWriteBusy_w1c (addr_toNat .status).1 hv, writeStatus_eq]
    rfl
  · rw [step_write_busy hrst hrun (reg_ok .ctrl) hs, busWriteBusy_ctrl (addr_toNat .ctrl).1,
      BitVec.setWidth_eq_extractLsb' (by decide)]
    rfl
  · rw [step_write_busy hrst hrun ok hs, busWriteBusy_lost hstatus hctrl, busyOpcode_eq]
    rfl
  · obtain ⟨ctrl, done, err, errCode, errOpc, responses, h⟩ :=
      access_busy_frame (s := { s with schedule := rest }) hrun a
    exact ⟨_, (step_access hs).trans (congrArg Host.Outcome.next h), hrun, fun _ => rfl, fun r hstatus hctrl =>
      regValue_of_frame s ctrl done err errCode errOpc rest responses hstatus hctrl⟩

end Sys2Proof.Machine
end

section
/-! SUPPORT. Frame storage and macroblock addressing (40_frame_mb.md): when a command needs a geometry, the lists of
samples, and what NOP, INIT, MB_VIEW, LOAD_SRC and STORE_REF leave in each register and byte. -/

namespace Sys2Proof.Machine

/-! Commands that need a geometry, and the planes. -/

theorem withGeometry_present {s : State} (hv : s.geomValid = true) (r : Run) : withGeometry s r = r := by
  simp [withGeometry, hv]

theorem withGeometry_missing {s : State} (hv : s.geomValid = false) (r : Run) :
    withGeometry s r = .error s .noGeometry := by
  simp [withGeometry, hv]

/-- A run that checks for a geometry before anything else. -/
theorem needsGeometry_of {i : Instr} (f : State → Run) (h : ∀ s, runInstr i s = withGeometry s (f s)) :
    NeedsGeometry i := fun s hv => by
  rw [exec_eq, h, withGeometry_missing hv, finish_error]
  rfl

/-- Past the check for a geometry, a command that ends without error completes. -/
theorem exec_with_geometry {i : Instr} {s t : State} (hv : s.geomValid = true)
    (h : runInstr i s = withGeometry s (.ok t)) : exec i s = .next t.complete := by
  rw [exec_eq, h, withGeometry_present hv, finish_ok]

theorem withPlane_some {sel : BitVec 4} {p : Plane} (hp : planeOfSel sel = some p) (s : State) (f : Plane → Run) :
    withPlane sel s f = f p := by
  simp only [withPlane, hp]

/-- The selectors of the planes (30_encoding.md R308). -/
theorem planeOfSel_of_mem {sel : BitVec 4} {p : Plane}
    (h : (sel, p) ∈ [(0#4, Plane.y), (1#4, .u), (2#4, .v)]) : planeOfSel sel = some p := by
  have table : ∀ q ∈ [(0#4, Plane.y), (1#4, .u), (2#4, .v)], planeOfSel q.1 = some q.2 := by decide
  exact table (sel, p) h

theorem planeStride_eq (s : State) (p : Plane) :
    s.planeStride p = if p = .y then s.geom.yStride.toNat else s.geom.cStride.toNat := by
  cases p <;> rfl

theorem planeOff_eq (s : State) (p : Plane) :
    s.planeOff p = if p = .y then 0 else if p = .u then s.geom.uOff.toNat else s.geom.vOff.toNat := by
  cases p <;> rfl

/-! NOP. -/

theorem opcode_eq_zero_iff (i : Instr) : i.opcode = 0 ↔ i = .nop := by
  cases i with
  | nop => exact iff_of_true rfl rfl
  | _ => exact iff_of_false (by simp [Instr.opcode]) Instr.noConfusion

/-- Settles O23: a word that decodes is the word of its command (O2), and NOP is the command with opcode 0. -/
theorem nopOnlyCompletes : Obligations.NopOnlyCompletes := by
  refine ⟨fun s => rfl, rfl, fun w hopc hw i hi => hw ?_⟩
  obtain ⟨-, henc⟩ := decodedWordEncodesBack w i hi
  obtain ⟨opc, -, -, -⟩ := Laws.encodeFields_of i
  have zero : Word.opc w = 0 := BitVec.eq_of_toNat_eq ((toNat_opc w).trans hopc)
  have nop : i = .nop := (opcode_eq_zero_iff i).1 (by rw [← opc, henc, zero])
  rw [← henc, nop]
  rfl

/-! INIT. -/

theorem ceilDiv_sixteen (n : Nat) : ceilDiv n 16 = (n + 15) / 16 := rfl

/-- INIT's test, as its three refusals (R403). -/
theorem geometryLegal_iff (w h : Nat) : geometryLegal w h = true ↔
    ¬ (w = 0 ∨ h = 0 ∨ 0x01000000 < (w + 15) / 16 * 16 * h + 2 * ((w / 2 + 15) / 16 * 16) * (h / 2)) := by
  simp [geometryLegal, frameBytes, alignUp_plane, Config.frameRegionBytes, and_assoc]

/-- The geometry registers of a frame (10_state.md R111). -/
theorem geometryOf_eq (w h : Nat) : geometryOf w h =
    ⟨nat32 w, nat32 h, nat32 ((w + 15) / 16), nat32 ((h + 15) / 16), nat32 ((w + 15) / 16 * 16),
      nat32 ((w / 2 + 15) / 16 * 16), nat32 (w / 2), nat32 (h / 2), nat32 ((w + 15) / 16 * 16 * h),
      nat32 ((w + 15) / 16 * 16 * h + (w / 2 + 15) / 16 * 16 * (h / 2))⟩ := by
  simp only [geometryOf, alignUp_plane, ceilDiv_sixteen]

theorem exec_init_legal {s : State} (h : geometryLegal s.cfg.width.toNat s.cfg.height.toNat = true) :
    exec .init s = .next (initDone s s.cfg.width.toNat s.cfg.height.toNat).complete := by
  rw [exec_eq, runInstr, runInit, if_pos h, finish_ok]

theorem exec_init_illegal {s : State} (h : ¬ geometryLegal s.cfg.width.toNat s.cfg.height.toNat = true) :
    exec .init s = .next ((initFailed s).recordError .badGeometry 0x01).complete := by
  rw [exec_eq, runInstr, runInit, if_neg h, finish_error]
  rfl

/-- Address a is one that INIT zeroes: in a work buffer, or in the vector of a macroblock of the grid (R403). -/
def InitZeroes (w h a : Nat) : Prop :=
  (0x04000000 ≤ a ∧ a < 0x04000A00) ∨ (0x05000000 ≤ a ∧ a < 0x05000000 + 4 * (ceilDiv w 16 * ceilDiv h 16))

/-- The registers INIT leaves. -/
theorem initDone_frame (s : State) (w h : Nat) : initDone s w h = { s with
    mem := (initDone s w h).mem, refValid := false, geomValid := true, geom := geometryOf w h,
    bs0Bits := 0, bs1Bits := 0, rc := ⟨s.cfg.qp, 0, 0⟩, fr := ⟨0, 0, 0, 0, 0, 0, 0⟩ } := by
  unfold initDone
  generalize initCells w h = cells
  rfl

theorem initDone_readByte (s : State) (w h a : Nat) :
    (initDone s w h).readByte a = (s.storeCells (initCells w h)).readByte a := by
  unfold initDone
  generalize initCells w h = cells
  rfl

/-- The bytes INIT leaves at 0. -/
theorem readByte_initDone_zero (s : State) {w h a : Nat} (ha : InitZeroes w h a) : (initDone s w h).readByte a = 0 := by
  rw [initDone_readByte, initCells, storeCells_append]
  rcases ha with ⟨lo, hi⟩ | ⟨lo, hi⟩
  · rw [readByte_zeroCells_outside _ mvarrBase _ _ (.inl (by simp only [mvarrBase]; omega))]
    exact readByte_zeroCells s _ _ a lo (by simp only [predBlkBase, workEnd]; omega)
  · exact readByte_zeroCells _ _ _ a lo hi

/-- The bytes INIT leaves alone. -/
theorem readByte_initDone_outside (s : State) {w h a : Nat} (ha : ¬ InitZeroes w h a) :
    (initDone s w h).readByte a = s.readByte a := by
  obtain ⟨work, vectors⟩ := not_or.1 ha
  rw [initDone_readByte, initCells, storeCells_append,
    readByte_zeroCells_outside _ mvarrBase _ _ (by simp only [mvarrBase]; omega)]
  exact readByte_zeroCells_outside s _ _ a (by simp only [predBlkBase, workEnd]; omega)

/-- Settles O24: the two sides of INIT's test, with the registers of `initDone_frame` and the bytes of `initCells`. -/
theorem initSetsUpOrRefuses : Obligations.InitSetsUpOrRefuses := by
  refine ⟨rfl, fun s => ⟨fun refused => ?_, fun legal => ?_⟩⟩
  · rw [exec_init_illegal fun legal => (geometryLegal_iff _ _).1 legal refused]
    rfl
  · refine ⟨_, exec_init_legal ((geometryLegal_iff _ _).2 legal), ?_, fun a lo hi => ?_, fun a lo hi => ?_,
      fun a work vectors => ?_⟩
    · have frame := initDone_frame s s.cfg.width.toNat s.cfg.height.toNat
      rw [← geometryOf_eq, complete_mem]
      generalize initDone s s.cfg.width.toNat s.cfg.height.toNat = t at frame ⊢
      exact congrArg State.complete frame
    · rw [complete_readByte]
      exact readByte_initDone_zero s (.inl ⟨lo, hi⟩)
    · rw [complete_readByte]
      exact readByte_initDone_zero s (.inr ⟨lo, hi⟩)
    · rw [complete_readByte]
      exact readByte_initDone_outside s (not_or.2 ⟨work, vectors⟩)

/-! The grid and its views. -/

theorem planeW_eq (s : State) (p : Plane) :
    s.planeW p = if p = .y then s.geom.w.toNat else s.geom.cw.toNat := by
  cases p <;> rfl

theorem planeH_eq (s : State) (p : Plane) :
    s.planeH p = if p = .y then s.geom.h.toNat else s.geom.ch.toNat := by
  cases p <;> rfl

theorem mbSize_eq (p : Plane) : mbSize p = if p = .y then 16 else 8 := by cases p <;> rfl

/-- Settles O25: a view is what `view_cases` says it can be, and its luma is not empty (`view_luma_pos`). -/
theorem viewsAreClippedRectangles : Obligations.ViewsAreClippedRectangles := by
  intro s p mbx mby hs
  have n_eq : (if p = .y then 16 else 8 : Int) = mbSize p := by rw [mbSize_eq]; split <;> rfl
  have pw_eq : (if p = .y then s.geom.w.toNat else s.geom.cw.toNat : Int) = s.planeW p := by
    rw [planeW_eq]; split <;> rfl
  have ph_eq : (if p = .y then s.geom.h.toNat else s.geom.ch.toNat : Int) = s.planeH p := by
    rw [planeH_eq]; split <;> rfl
  simp only [n_eq, pw_eq, ph_eq, ← inGrid_iff]
  rcases view_cases s p mbx mby with ⟨hg, hview⟩ | ⟨hg, hview⟩
  · have luma := view_luma_pos (frameSize_of_inv hs ((inGrid_iff s mbx mby).1 hg).1) hg
    refine ⟨fun _ => ⟨?_, ?_, ?_, ?_, ?_, ?_⟩, fun out => absurd hg out⟩
    · rw [hview]
    · simp only [hview, Nat.cast_mul]
    · simp only [hview, Nat.cast_mul]
    · simp only [hview]; omega
    · simp only [hview]; omega
    · rintro rfl; exact luma
  · exact ⟨fun inside => absurd inside (by simp [hg]), fun _ => hview⟩

/-- Entry j of the loop over rows and columns. -/
theorem rowsCols_eq_map_range (h w : Nat) :
    rowsCols h w = (List.range (h * w)).map fun j => (j / w, j % w) := by
  induction h with
  | zero => simp [rowsCols]
  | succ h ih =>
    have last : ((List.range w).map fun c => (h, c))
        = (List.range w).map ((fun j => (j / w, j % w)) ∘ fun c => h * w + c) :=
      List.map_congr_left fun c hc => by
        have lt := List.mem_range.1 hc
        have pos : 0 < w := by omega
        simp [Nat.mul_comm h w, Nat.mul_add_div pos, Nat.div_eq_of_lt lt, Nat.mod_eq_of_lt lt]
    have append : rowsCols (h + 1) w = rowsCols h w ++ (List.range w).map fun c => (h, c) := by
      simp [rowsCols, List.range_succ]
    rw [append, ih, last, Nat.succ_mul, List.range_add, List.map_append, List.map_map]

/-- Entry j of the macroblock loop (40_frame_mb.md R402). -/
theorem mbCoords_eq_map_range {s : State} {w h : Nat} (hf : FrameSize s w h) :
    s.mbCoords = (List.range ((w + 15) / 16 * ((h + 15) / 16))).map fun j =>
      (j % ((w + 15) / 16), j / ((w + 15) / 16)) := by
  rw [State.mbCoords, rowsCols_eq_map_range, hf.cols, hf.rows, List.map_map, Nat.mul_comm]
  rfl

/-- A number is its quotient and its remainder, so no two entries of the loop agree. -/
theorem nodup_map_mod_div (n w : Nat) : ((List.range n).map fun j => (j % w, j / w)).Nodup :=
  List.Nodup.map (fun i j h => by
    obtain ⟨hmod, hdiv⟩ := Prod.mk.inj h
    rw [← Nat.div_add_mod i w, ← Nat.div_add_mod j w, hmod, hdiv]) List.nodup_range

/-- Pieces of 16 cut from d. -/
theorem sum_pieces (d n : Nat) : ((List.range n).map fun i => min 16 (d - 16 * i)).sum = min (16 * n) d := by
  induction n with
  | zero => simp
  | succ n ih => rw [List.sum_range_succ, ih]; omega

/-- The pieces cover d when there are enough of them (R408). -/
theorem sum_pieces_cover (d : Nat) : ((List.range ((d + 15) / 16)).map fun i => min 16 (d - 16 * i)).sum = d := by
  rw [sum_pieces]; omega

/-- The luma view of a macroblock of the grid. -/
theorem view_luma_size {s : State} {w h : Nat} (hf : FrameSize s w h) (hv : s.geomValid = true) {mbx mby : Nat}
    (hx : mbx < (w + 15) / 16) (hy : mby < (h + 15) / 16) :
    (s.view .y mbx mby).w = min 16 (w - 16 * mbx) ∧ (s.view .y mbx mby).h = min 16 (h - 16 * mby) := by
  have hg : s.inGrid mbx mby = true := (inGrid_iff s mbx mby).2 ⟨hv, hf.cols.symm ▸ hx, hf.rows.symm ▸ hy⟩
  rcases view_cases s .y mbx mby with ⟨-, hview⟩ | ⟨out, -⟩
  · rw [hview]
    simp only [mbSize, State.planeW, State.planeH, hf.width, hf.height, and_self]
  · simp [hg] at out

/-- Settles O26: the loop counts the grid (`mbCoords_eq_map_range`), and the views of a row or a column are the pieces of
16 of its length (`sum_pieces_cover`). -/
theorem gridLoopCoversTheFrame : Obligations.GridLoopCoversTheFrame := by
  intro s hs hv
  have hf := frameSize_of_inv hs hv
  simp only [mbCoords_eq_map_range hf]
  refine ⟨by simp, fun j hj => by simp [hj], nodup_map_mod_div _ _, fun mby hy => ?_, fun mbx hx => ?_⟩
  · rw [List.map_congr_left fun mbx hx => (view_luma_size hf hv (List.mem_range.1 hx) hy).1]
    exact sum_pieces_cover _
  · rw [List.map_congr_left fun mby hy => (view_luma_size hf hv hx (List.mem_range.1 hy)).2]
    exact sum_pieces_cover _

/-! MB_VIEW. -/

/-- The result registers MB_VIEW leaves: the view, and its stride and offset while it is in the grid (R405). -/
theorem mbViewResults_eq (s : State) (p : Plane) (v : View) (hview : s.view p s.args.mbx.toNat s.args.mby.toNat = v) :
    mbViewResults s p = { s with
      res := ((((((s.res.set 0 (nat32 v.x0)).set 1 (nat32 v.y0)).set 2 (nat32 v.w)).set 3 (nat32 v.h)).set 4
        (if v.valid then 1 else 0)).set 5 (nat32 (if v.valid then s.planeStride p else 0))).set 6
        (nat32 (if v.valid then s.planeOff p + v.y0 * s.planeStride p + v.x0 else 0)) } := by
  subst hview
  cases hvalid : (s.view p s.args.mbx.toNat s.args.mby.toNat).valid <;> simp [mbViewResults, State.setRes, hvalid]

theorem runInstr_mbView {sel : BitVec 4} {p : Plane} (hp : planeOfSel sel = some p) (s : State) :
    runInstr (.mbView sel) s = withGeometry s (.ok (mbViewResults s p)) :=
  withPlane_some hp s _

/-- Settles O27: MB_VIEW writes seven result registers (`mbViewResults_eq`), with the plane's stride and offset. -/
theorem mbViewReportsTheView : Obligations.MbViewReportsTheView := by
  intro s sel p hsel hv
  have run := runInstr_mbView (planeOfSel_of_mem hsel)
  have word : ∀ e : BitVec 4, encode (.mbView e) = BitVec.ofNat 32 (0x10 + 256 * e.toNat) := by decide
  refine ⟨needsGeometry_of _ run, word sel, _, exec_with_geometry hv (run s), ?_⟩
  rw [mbViewResults_eq s p _ rfl, ← planeStride_eq, ← planeOff_eq]
  exact ⟨rfl, by simp⟩
/-! LOAD_SRC. -/

/-- Two staging elements of one plane that overlap are one element. -/
theorem stagingAddr_sep (p : Plane) {r c r' c' : Nat} (hc : c < mbSize p) (hc' : c' < mbSize p)
    (h : stagingAddr p r c < stagingAddr p r' c' + 2) (h' : stagingAddr p r' c' < stagingAddr p r c + 2) :
    r = r' ∧ c = c' := by
  cases p <;> simp only [mbSize, stagingAddr] at * <;> omega

/-- What LOAD_SRC leaves in a staging element of the valid region (R406). -/
theorem elem16_loadSrc (s : State) (p : Plane) (mbx mby : Nat) {r c : Nat} (hr : r < (s.view p mbx mby).h)
    (hc : c < (s.view p mbx mby).w) : (loadSrc s p mbx mby).elem16 (stagingAddr p r c)
      = (s.sample .cur p ((s.view p mbx mby).x0 + c) ((s.view p mbx mby).y0 + r)).setWidth 16 :=
  elem16_storeElems s (rowsCols (s.view p mbx mby).h (s.view p mbx mby).w) (fun rc => stagingAddr p rc.1 rc.2)
    (fun rc => (s.sample .cur p ((s.view p mbx mby).x0 + rc.2) ((s.view p mbx mby).y0 + rc.1)).setWidth 16)
    (fun _ hx _ hy lt gt => Prod.ext_iff.2 (stagingAddr_sep p (view_position hx).2 (view_position hy).2 lt gt))
    (r, c) ((mem_rowsCols _ _ _).2 ⟨hr, hc⟩)

/-- The bytes LOAD_SRC leaves alone, the stale tail among them. -/
theorem readByte_loadSrc_outside (s : State) (p : Plane) (mbx mby : Nat) {a : Nat}
    (h : ∀ r < (s.view p mbx mby).h, ∀ c < (s.view p mbx mby).w, a < stagingAddr p r c ∨ stagingAddr p r c + 2 ≤ a) :
    (loadSrc s p mbx mby).readByte a = s.readByte a :=
  readByte_storeElems_outside s (rowsCols (s.view p mbx mby).h (s.view p mbx mby).w)
    (fun rc => stagingAddr p rc.1 rc.2) _ 2 a fun rc hrc => by
      obtain ⟨hr, hc⟩ := (mem_rowsCols _ _ _).1 hrc
      exact h rc.1 hr rc.2 hc

/-- The staging buffers of the planes, with their widths (20_memory.md R205). -/
theorem stagingAddr_of_mem {sel : BitVec 4} {p : Plane} {base width : Nat} (h : (sel, p, base, width) ∈
      [(0#4, Plane.y, 0x04000100, 16), (1#4, .u, 0x04000300, 8), (2#4, .v, 0x04000380, 8)]) :
    planeOfSel sel = some p ∧ ∀ r c, stagingAddr p r c = base + 2 * (width * r + c) := by
  simp only [List.mem_cons, Prod.mk.injEq, List.not_mem_nil, or_false] at h
  rcases h with ⟨rfl, rfl, rfl, rfl⟩ | ⟨rfl, rfl, rfl, rfl⟩ | ⟨rfl, rfl, rfl, rfl⟩ <;> exact ⟨rfl, fun _ _ => rfl⟩

theorem runInstr_loadSrc {sel : BitVec 4} {p : Plane} (hp : planeOfSel sel = some p) (s : State) :
    runInstr (.loadSrc sel) s = withGeometry s (.ok (loadSrc s p s.args.mbx.toNat s.args.mby.toNat)) :=
  withPlane_some hp s _

/-- Settles O28: LOAD_SRC stores one staging element for each sample of the view, and no two of them overlap. -/
theorem loadSrcCopiesTheValidRegion : Obligations.LoadSrcCopiesTheValidRegion := by
  intro s sel p base width hsel hv
  obtain ⟨plane, staging⟩ := stagingAddr_of_mem hsel
  have run := runInstr_loadSrc plane
  have word : ∀ e : BitVec 4, encode (.loadSrc e) = BitVec.ofNat 32 (0x11 + 256 * e.toNat) := by decide
  refine ⟨needsGeometry_of _ run, word sel, _, exec_with_geometry hv (run s), rfl, fun r hr c hc => ?_, fun a ha => ?_⟩
  · have stored := elem16_loadSrc s p s.args.mbx.toNat s.args.mby.toNat hr hc
    have small := (s.sample .cur p ((s.view p s.args.mbx.toNat s.args.mby.toNat).x0 + c)
      ((s.view p s.args.mbx.toNat s.args.mby.toNat).y0 + r)).isLt
    rw [staging] at stored
    rw [elem16_congr fun j _ => complete_readByte _ _, stored, BitVec.toNat_setWidth, Nat.mod_eq_of_lt (by omega)]
  · rw [complete_readByte]
    exact readByte_loadSrc_outside s p _ _ fun r hr c hc => by rw [staging]; exact ha r hr c hc

/-! STORE_REF. -/

theorem mem_planeCopyCells (s : State) (p : Plane) (c : Host.Cell) : c ∈ planeCopyCells s p ↔
    ∃ x y, x < s.planeW p ∧ y < s.planeH p ∧ c = (s.sampleAddr .ref p x y, s.sample .cur p x y) := by
  simp only [planeCopyCells, List.mem_map, mem_rowsCols, Prod.exists]
  constructor
  · rintro ⟨y, x, ⟨hy, hx⟩, rfl⟩
    exact ⟨x, y, hx, hy, rfl⟩
  · rintro ⟨x, y, hx, hy, rfl⟩
    exact ⟨y, x, ⟨hy, hx⟩, rfl⟩

/-- The stores of STORE_REF: one for each sample of the frame (R407). -/
theorem mem_frameCopyCells (s : State) (c : Host.Cell) :
    c ∈ planeCopyCells s .y ++ planeCopyCells s .u ++ planeCopyCells s .v ↔
      ∃ p x y, x < s.planeW p ∧ y < s.planeH p ∧ c = (s.sampleAddr .ref p x y, s.sample .cur p x y) := by
  simp only [List.mem_append, ← mem_planeCopyCells]
  constructor
  · rintro ((h | h) | h)
    · exact ⟨.y, h⟩
    · exact ⟨.u, h⟩
    · exact ⟨.v, h⟩
  · rintro ⟨p, h⟩
    cases p with
    | y => exact .inl (.inl h)
    | u => exact .inl (.inr h)
    | v => exact .inr h

/-- A sample of REF after the copy is the one of CUR: no other sample has its address. -/
theorem sample_storeRef {s : State} {w h : Nat} (hf : FrameSize s w h) (p : Plane) {x y : Nat} (hx : x < s.planeW p)
    (hy : y < s.planeH p) : (storeRef s).sample .ref p x y = s.sample .cur p x y := by
  refine readByte_storeCells_mem s _ (s.sampleAddr .ref p x y) _
    ((mem_frameCopyCells s _).2 ⟨p, x, y, hx, hy, rfl⟩) fun c hc same => ?_
  obtain ⟨q, x', y', hx', hy', rfl⟩ := (mem_frameCopyCells s c).1 hc
  obtain ⟨rfl, rfl, rfl⟩ := sampleAddr_inj hf .ref hx' hy' hx hy same
  rfl

/-- Every other byte is left alone, the padding of REF among them. -/
theorem readByte_storeRef_outside (s : State) {a : Nat}
    (h : ∀ p x y, x < s.planeW p → y < s.planeH p → a ≠ s.sampleAddr .ref p x y) :
    (storeRef s).readByte a = s.readByte a := by
  refine readByte_storeCells_notMem s _ a fun c hc same => ?_
  obtain ⟨p, x, y, hx, hy, rfl⟩ := (mem_frameCopyCells s c).1 hc
  exact h p x y hx hy same.symm

/-- Settles O29: the stores of STORE_REF are the samples of CUR at their addresses in REF (`mem_frameCopyCells`), which
differ from one sample to the next. -/
theorem storeRefCopiesTheFrame : Obligations.StoreRefCopiesTheFrame := by
  refine ⟨rfl, needsGeometry_of _ fun s => rfl, fun s hs hv => ⟨_, exec_with_geometry hv rfl, rfl, ?_, ?_⟩⟩
  · exact fun p x y hx hy => sample_storeRef (frameSize_of_inv hs hv) p hx hy
  · exact fun a ha => readByte_storeRef_outside s ha

end Sys2Proof.Machine
end

section
/-! SUPPORT. Motion estimation (41_motion_estimation.md): what a row of probes leaves of the best so far, the scan order
of the full search, and the steps of the diamond search. -/

namespace Sys2Proof.Machine

/-! The candidate test and the cost. -/

theorem inBounds_iff_displacedInFrame (s : State) (v : View) (dx dy : Int) :
    inBounds s v dx dy = true ↔ displacedInFrame s v dx dy :=
  inBounds_iff s v dx dy

theorem sad_eq_sadSum (s : State) (v : View) (dx dy : Int) : sad s v dx dy = sadSum s v dx dy :=
  sad_eq s v dx dy

/-- In the grid, (0, 0) is in bounds: the view lies inside the luma plane (R452). -/
theorem origin_displacedInFrame {s : State} (hs : s.Inv) (hv : s.geomValid = true) {mbx mby : Nat}
    (hvalid : (s.view .y mbx mby).valid = true) : displacedInFrame s (s.view .y mbx mby) 0 0 := by
  have grid : s.inGrid mbx mby = true := by
    rcases view_cases s .y mbx mby with ⟨h, -⟩ | ⟨-, e⟩
    · exact h
    · rw [e] at hvalid; exact absurd hvalid Bool.false_ne_true
  obtain ⟨hw, hh⟩ := view_luma_pos (frameSize_of_inv hs hv) grid
  obtain ⟨right, bottom⟩ := view_inside s .y mbx mby (r := (s.view .y mbx mby).h - 1)
    (c := (s.view .y mbx mby).w - 1) (by omega) (by omega)
  simp only [State.planeW, State.planeH] at right bottom
  unfold displacedInFrame
  omega

/-- Where REF has CUR's luma, the displacement (0, 0) costs nothing (R457). -/
theorem sadSum_origin_eq_zero {s : State} (mbx mby : Nat)
    (same : ∀ x y, x < s.geom.w.toNat → y < s.geom.h.toNat → s.sample .ref .y x y = s.sample .cur .y x y) :
    sadSum s (s.view .y mbx mby) 0 0 = 0 := by
  refine List.sum_eq_zero fun row hrow => ?_
  obtain ⟨r, hr, rfl⟩ := List.mem_map.1 hrow
  refine List.sum_eq_zero fun term hterm => ?_
  obtain ⟨c, hc, rfl⟩ := List.mem_map.1 hterm
  obtain ⟨hx, hy⟩ := view_inside s .y mbx mby (List.mem_range.1 hr) (List.mem_range.1 hc)
  have ex : (((s.view .y mbx mby).x0 : Int) + 0 + c).toNat = (s.view .y mbx mby).x0 + c := by omega
  have ey : (((s.view .y mbx mby).y0 : Int) + 0 + r).toNat = (s.view .y mbx mby).y0 + r := by omega
  rw [ex, ey, same _ _ hx hy, Int.sub_self, Int.natAbs_zero]

/-! A row of probes. -/

/-- `m` is the probe `d` of `probes`: in bounds, cheaper than `best`, and strictly cheaper than every in-bounds probe
before it. -/
structure WinsAt (s : State) (v : View) (probes : List (Int × Int)) (best m : Motion) (pre post : List (Int × Int)) :
    Prop where
  split : probes = pre ++ (m.dx, m.dy) :: post
  inFrame : displacedInFrame s v m.dx m.dy
  cost : m.cost = sadSum s v m.dx m.dy
  better : m.cost < best.cost
  first : ∀ d ∈ pre, displacedInFrame s v d.1 d.2 → m.cost < sadSum s v d.1 d.2

theorem WinsAt.mem {s : State} {v : View} {probes pre post : List (Int × Int)} {best m : Motion}
    (h : WinsAt s v probes best m pre post) : (m.dx, m.dy) ∈ probes :=
  h.split ▸ List.mem_append_cons_self

theorem WinsAt.snoc {s : State} {v : View} {probes pre post : List (Int × Int)} {best m : Motion}
    (h : WinsAt s v probes best m pre post) (d : Int × Int) :
    WinsAt s v (probes ++ [d]) best m pre (post ++ [d]) :=
  { h with split := by rw [h.split]; simp }

/-- What is left of `best` after the candidates `probes`: no in-bounds probe is cheaper, and it is `best` still or the
first of the cheapest probes (R453, R455). -/
structure BestOf (s : State) (v : View) (probes : List (Int × Int)) (best m : Motion) : Prop where
  le_best : m.cost ≤ best.cost
  le_probe : ∀ d ∈ probes, displacedInFrame s v d.1 d.2 → m.cost ≤ sadSum s v d.1 d.2
  stays_or_wins : m = best ∨ ∃ pre post, WinsAt s v probes best m pre post

/-- One more probe: it wins against all before it, or changes nothing. -/
theorem BestOf.snoc {s : State} {v : View} {probes : List (Int × Int)} {best m : Motion} (h : BestOf s v probes best m)
    (d : Int × Int) : BestOf s v (probes ++ [d]) best (consider s v m d) := by
  have extend {n : Motion} (old : ∀ e ∈ probes, displacedInFrame s v e.1 e.2 → n.cost ≤ sadSum s v e.1 e.2)
      (new : displacedInFrame s v d.1 d.2 → n.cost ≤ sadSum s v d.1 d.2) :
      ∀ e ∈ probes ++ [d], displacedInFrame s v e.1 e.2 → n.cost ≤ sadSum s v e.1 e.2 := by
    simpa [or_imp, forall_and] using ⟨fun x y => old (x, y), new⟩
  have probe := consider_cases s v m d
  rw [inBounds_iff_displacedInFrame, sad_eq_sadSum] at probe
  rcases probe with ⟨inFrame, cheaper, e⟩ | ⟨no_gain, e⟩ <;> rw [e]
  · have beats : ∀ e ∈ probes, displacedInFrame s v e.1 e.2 → sadSum s v d.1 d.2 < sadSum s v e.1 e.2 :=
      fun e he hin => cheaper.trans_le (h.le_probe e he hin)
    have better := cheaper.trans_le h.le_best
    exact ⟨better.le, extend (fun e he hin => (beats e he hin).le) fun _ => le_rfl,
      .inr ⟨probes, [], rfl, inFrame, rfl, better, beats⟩⟩
  · refine ⟨h.le_best, extend h.le_probe no_gain, h.stays_or_wins.imp_right ?_⟩
    rintro ⟨pre, post, wins⟩
    exact ⟨pre, post ++ [d], wins.snoc d⟩

/-- Both searches probe with this loop. -/
theorem foldl_consider_bestOf (s : State) (v : View) (probes : List (Int × Int)) (best : Motion) :
    BestOf s v probes best (probes.foldl (consider s v) best) := by
  induction probes using List.reverseRecOn with
  | nil => exact ⟨le_rfl, by simp, .inl rfl⟩
  | append_singleton probes d ih => rw [List.foldl_append]; exact ih.snoc d

/-- A best so far of cost 0 stays (R457). -/
theorem foldl_consider_of_cost_zero (s : State) (v : View) (probes : List (Int × Int)) {best : Motion}
    (h : best.cost = 0) : probes.foldl (consider s v) best = best := by
  rcases (foldl_consider_bestOf s v probes best).stays_or_wins with stays | ⟨pre, post, wins⟩
  · exact stays
  · exact absurd wins.better (by omega)

/-! The commands. -/

/-- A motion search that completes writes RES0 to RES2 (R454, R456). -/
theorem setMotion_complete (s : State) (m : Motion) : (setMotion s m).complete = { s with
    running := none, done := true,
    res := ((s.res.set 0 (BitVec.ofInt 32 m.dx)).set 1 (BitVec.ofInt 32 m.dy)).set 2 (nat32 m.cost) } := rfl

/-- The sentinel in the result registers (R452). -/
theorem setMotion_sentinel_complete (s : State) : (setMotion s sentinel).complete = { s with
    running := none, done := true, res := ((s.res.set 0 0).set 1 0).set 2 0xFFFFFFFF } := rfl

theorem exec_meFull {s : State} (hv : s.geomValid = true) : exec .meFull s
    = .next (setMotion s (fullSearch s s.args.mbx.toNat s.args.mby.toNat s.cfg.range.toNat)).complete :=
  exec_with_geometry hv rfl

theorem exec_meDiamond {s : State} (hv : s.geomValid = true) : exec .meDiamond s
    = .next (setMotion s (diamondSearch s s.args.mbx.toNat s.args.mby.toNat s.cfg.range.toNat)).complete :=
  exec_with_geometry hv rfl

theorem setMotion_complete_res (s : State) (m : Motion) : (setMotion s m).complete.res[0] = BitVec.ofInt 32 m.dx
    ∧ (setMotion s m).complete.res[1] = BitVec.ofInt 32 m.dy ∧ (setMotion s m).complete.res[2] = nat32 m.cost := by
  rw [setMotion_complete]
  simp

/-! The full search. -/

/-- `d` comes before `e` in scan order: dy outer, dx inner, both ascending (R453). -/
def ScanBefore (d e : Int × Int) : Prop := d.2 < e.2 ∨ (d.2 = e.2 ∧ d.1 < e.1)

theorem symRange_ascending (r : Nat) : (symRange r).Pairwise (· < ·) :=
  List.pairwise_map.2 (List.pairwise_lt_range.imp fun h => by omega)

theorem fullCandidates_scanBefore (r : Nat) : (fullCandidates r).Pairwise ScanBefore := by
  refine List.pairwise_flatMap.2 ⟨fun dy _ => ?_, (symRange_ascending r).imp fun {dy dy'} hlt d hd e he => ?_⟩
  · exact List.pairwise_map.2 ((symRange_ascending r).imp fun hlt => .inr ⟨rfl, hlt⟩)
  · obtain ⟨dx, -, rfl⟩ := List.mem_map.1 hd
    obtain ⟨dx', -, rfl⟩ := List.mem_map.1 he
    exact .inl hlt

/-- In a list in scan order, what comes before `d` stands before `d`. -/
theorem mem_before_of_scanBefore {pre post : List (Int × Int)} {d e : Int × Int}
    (ordered : (pre ++ d :: post).Pairwise ScanBefore) (he : e ∈ pre ++ d :: post) (before : ScanBefore e d) :
    e ∈ pre := by
  have after := (List.pairwise_cons.1 (List.pairwise_append.1 ordered).2.1).1
  rcases List.mem_append.1 he with h | h
  · exact h
  · rcases List.mem_cons.1 h with rfl | h
    · unfold ScanBefore at before; omega
    · have later := after e h
      unfold ScanBefore at before later; omega

/-- Among probes in scan order, the one that wins is strictly cheaper than those that come before it (R453). -/
theorem WinsAt.lt_of_scanBefore {s : State} {v : View} {probes pre post : List (Int × Int)} {best m : Motion}
    (h : WinsAt s v probes best m pre post) (ordered : probes.Pairwise ScanBefore) {e : Int × Int} (he : e ∈ probes)
    (before : ScanBefore e (m.dx, m.dy)) (inFrame : displacedInFrame s v e.1 e.2) : m.cost < sadSum s v e.1 e.2 := by
  rw [h.split] at ordered he
  exact h.first e (mem_before_of_scanBefore ordered he before) inFrame

theorem fullSearch_of_valid {s : State} {mbx mby : Nat} (h : (s.view .y mbx mby).valid = true) (r : Nat) :
    fullSearch s mbx mby r = (fullCandidates r).foldl (consider s (s.view .y mbx mby)) sentinel :=
  if_pos h

theorem fullSearch_of_invalid {s : State} {mbx mby : Nat} (h : (s.view .y mbx mby).valid = false) (r : Nat) :
    fullSearch s mbx mby r = sentinel :=
  if_neg (by simp [h])

theorem origin_mem_fullCandidates (r : Nat) : (0, 0) ∈ fullCandidates r :=
  (mem_fullCandidates r _).2 ⟨Nat.zero_le _, Nat.zero_le _⟩

/-- In the grid, the full search ends at a candidate: (0, 0) is one, and the sentinel's cost is above every SAD. -/
theorem fullSearch_wins {s : State} (hs : s.Inv) (hv : s.geomValid = true) {mbx mby : Nat}
    (hvalid : (s.view .y mbx mby).valid = true) (r : Nat) : ∃ pre post,
      WinsAt s (s.view .y mbx mby) (fullCandidates r) sentinel (fullSearch s mbx mby r) pre post := by
  have best := foldl_consider_bestOf s (s.view .y mbx mby) (fullCandidates r) sentinel
  rw [← fullSearch_of_valid hvalid] at best
  refine best.stays_or_wins.resolve_left fun stays => ?_
  have le := best.le_probe (0, 0) (origin_mem_fullCandidates r) (origin_displacedInFrame hs hv hvalid)
  have small := sad_le s mbx mby 0 0
  rw [stays, ← sad_eq_sadSum] at le
  exact absurd (le.trans small) (by decide)

/-- Settles O30: the search ends at a candidate (`fullSearch_wins`), no candidate is cheaper (`foldl_consider_bestOf`),
and those earlier in scan order are strictly dearer (`WinsAt.lt_of_scanBefore`). -/
theorem meFullFindsTheFirstMinimum : Obligations.MeFullFindsTheFirstMinimum := by
  refine ⟨rfl, needsGeometry_of _ fun s => rfl, fun s hs hv => ⟨fun hvalid => ?_, fun hvalid => ?_⟩⟩
  · obtain ⟨pre, post, wins⟩ := fullSearch_wins hs hv hvalid s.cfg.range.toNat
    have best := foldl_consider_bestOf s (s.view .y s.args.mbx.toNat s.args.mby.toNat)
      (fullCandidates s.cfg.range.toNat) sentinel
    rw [← fullSearch_of_valid hvalid] at best
    have run := exec_meFull hv
    generalize fullSearch s _ _ _ = m at wins best run
    obtain ⟨hdx, hdy⟩ := (mem_fullCandidates _ _).1 wins.mem
    refine ⟨m.dx, m.dy, ?_, by exact_mod_cast hdx, by exact_mod_cast hdy, wins.inFrame, ?_,
      fun dx' dy' hx hy inFrame => ?_⟩
    · rw [run, setMotion_complete, wins.cost]
    · rw [← sad_eq_sadSum]; exact sad_le s _ _ _ _
    · have mem := (mem_fullCandidates s.cfg.range.toNat (dx', dy')).2 ⟨by exact_mod_cast hx, by exact_mod_cast hy⟩
      rw [← wins.cost]
      exact ⟨best.le_probe (dx', dy') mem inFrame,
        fun before => wins.lt_of_scanBefore (e := (dx', dy')) (fullCandidates_scanBefore _) mem before inFrame⟩
  · rw [exec_meFull hv, fullSearch_of_invalid hvalid, setMotion_sentinel_complete]

/-! One step of the diamond search. -/

/-- The eight probes, written out (R455). -/
theorem diamondProbes_eq (m : Motion) (step : Nat) : diamondProbes m step =
    [(m.dx, m.dy - step), (m.dx, m.dy + step), (m.dx - step, m.dy), (m.dx + step, m.dy),
      (m.dx - step, m.dy - step), (m.dx + step, m.dy - step), (m.dx - step, m.dy + step),
      (m.dx + step, m.dy + step)] := by
  simp [diamondProbes, diamondDirs, Int.sub_eq_add_neg]

/-- Settles O31: the probe that wins (`foldl_consider_bestOf`) stands at the index of the number of probes before it. -/
theorem diamondStepMovesToTheBestProbe : Obligations.DiamondStepMovesToTheBestProbe := by
  intro s v cx cy cost step probes m
  have list : diamondProbes { dx := cx, dy := cy, cost := cost } step = probes := diamondProbes_eq _ _
  have best : BestOf s v probes { dx := cx, dy := cy, cost := cost } m :=
    list ▸ foldl_consider_bestOf s v (diamondProbes _ step) _
  refine ⟨best.le_probe, best.stays_or_wins.imp_right ?_⟩
  rintro ⟨pre, post, wins⟩
  have length : pre.length < 8 := by
    have := congrArg List.length wins.split
    simp only [List.length_append, List.length_cons, probes, List.length_nil] at this
    omega
  refine ⟨⟨pre.length, length⟩, ?_, wins.inFrame, wins.cost, wins.better, fun j' hj' q hq => wins.first q ?_⟩
  · show probes[pre.length]? = _
    rw [wins.split]; simp
  · change probes[j'.val]? = _ at hq
    rw [wins.split, List.getElem?_append_left hj'] at hq
    exact List.mem_of_getElem? hq

/-! The steps of the diamond search. -/

/-- A motion the diamond search can be at: in bounds with its own cost, no dearer than SAD(0, 0), and within `n` of
(0, 0) in each component (R456). -/
structure DiamondAt (s : State) (v : View) (n : Nat) (m : Motion) : Prop where
  inFrame : displacedInFrame s v m.dx m.dy
  cost : m.cost = sadSum s v m.dx m.dy
  le_origin : m.cost ≤ sadSum s v 0 0
  dx_le : m.dx.natAbs ≤ n
  dy_le : m.dy.natAbs ≤ n

theorem DiamondAt.mono {s : State} {v : View} {n n' : Nat} {m : Motion} (h : DiamondAt s v n m) (le : n ≤ n') :
    DiamondAt s v n' m :=
  { h with dx_le := h.dx_le.trans le, dy_le := h.dy_le.trans le }

/-- A probe is at most the step away from the centre in each component. -/
theorem near_of_mem_diamondProbes {m : Motion} {step n : Nat} {d : Int × Int} (hd : d ∈ diamondProbes m step)
    (hx : m.dx.natAbs ≤ n) (hy : m.dy.natAbs ≤ n) : d.1.natAbs ≤ n + step ∧ d.2.natAbs ≤ n + step := by
  rw [diamondProbes_eq] at hd
  simp only [List.mem_cons, List.not_mem_nil, or_false] at hd
  rcases hd with rfl | rfl | rfl | rfl | rfl | rfl | rfl | rfl <;> simp only <;> omega

/-- One step goes at most the step away. -/
theorem DiamondAt.step {s : State} {v : View} {n : Nat} {m : Motion} (h : DiamondAt s v n m) (step : Nat) :
    DiamondAt s v (n + step) ((diamondProbes m step).foldl (consider s v) m) := by
  have best := foldl_consider_bestOf s v (diamondProbes m step) m
  rcases best.stays_or_wins with stays | ⟨pre, post, wins⟩
  · rw [stays]
    exact h.mono (Nat.le_add_right _ _)
  · obtain ⟨hx, hy⟩ := near_of_mem_diamondProbes wins.mem h.dx_le h.dy_le
    exact ⟨wins.inFrame, wins.cost, best.le_best.trans h.le_origin, hx, hy⟩

/-- The steps k, k div 2, ... down to 1 together go at most 2k - 1 away (R456). -/
theorem DiamondAt.steps {s : State} {v : View} {fuel step n : Nat} {m : Motion} (h : DiamondAt s v n m) :
    DiamondAt s v (n + (2 * step - 1)) (diamondSteps s v fuel step m) := by
  induction fuel generalizing step n m with
  | zero => exact h.mono (Nat.le_add_right _ _)
  | succ fuel ih =>
    rcases Nat.eq_zero_or_pos step with rfl | pos
    · rw [diamondSteps_zero]; exact h
    · rw [diamondSteps_succ s v fuel step m pos]
      have total : n + step + (2 * (step / 2) - 1) ≤ n + (2 * step - 1) := by omega
      exact (ih (h.step step)).mono total

/-- k, k div 2, ... down to 1 (R455). -/
def halvings (k : Nat) : List Nat := (List.range (Nat.log2 k + 1)).map fun j => k / 2 ^ j

theorem halvings_one : halvings 1 = [1] := rfl

theorem halvings_of_two_le {k : Nat} (hk : 2 ≤ k) : halvings k = k :: halvings (k / 2) := by
  have log : Nat.log2 k = Nat.log2 (k / 2) + 1 := by rw [Nat.log2_def, if_pos hk]
  unfold halvings
  rw [log, List.range_succ_eq_map, List.map_cons, List.map_map, pow_zero, Nat.div_one]
  congr 1
  refine List.map_congr_left fun j _ => ?_
  rw [Function.comp_apply, Nat.succ_eq_add_one, pow_succ', Nat.div_div_eq_div_mul]

/-- With fuel for its step, the loop runs the halvings of it. -/
theorem diamondSteps_eq_foldl (s : State) (v : View) {fuel step : Nat} (m : Motion) (pos : 1 ≤ step)
    (enough : step ≤ fuel) : diamondSteps s v fuel step m
      = (halvings step).foldl (fun c k => (diamondProbes c k).foldl (consider s v) c) m := by
  induction fuel generalizing step m with
  | zero => omega
  | succ fuel ih =>
    rw [diamondSteps_succ s v fuel step m pos]
    rcases Nat.lt_or_ge step 2 with one | two
    · obtain rfl : step = 1 := by omega
      exact diamondSteps_zero s v fuel _
    · rw [halvings_of_two_le two, List.foldl_cons]
      exact ih _ (by omega) (by omega)

theorem diamondSearch_of_valid {s : State} {mbx mby : Nat} (h : (s.view .y mbx mby).valid = true) (r : Nat) :
    diamondSearch s mbx mby r = diamondSteps s (s.view .y mbx mby) r r
      { dx := 0, dy := 0, cost := sadSum s (s.view .y mbx mby) 0 0 } := by
  rw [← sad_eq_sadSum]
  exact if_pos h

theorem diamondSearch_of_invalid {s : State} {mbx mby : Nat} (h : (s.view .y mbx mby).valid = false) (r : Nat) :
    diamondSearch s mbx mby r = sentinel :=
  if_neg (by simp [h])

/-- The search from (0, 0), as the fold over its steps. -/
theorem diamondSearch_eq_foldl {s : State} {mbx mby : Nat} (h : (s.view .y mbx mby).valid = true) (r : Nat) :
    diamondSearch s mbx mby r =
      if r = 0 then { dx := 0, dy := 0, cost := sadSum s (s.view .y mbx mby) 0 0 }
      else (halvings r).foldl (fun c k => (diamondProbes c k).foldl (consider s (s.view .y mbx mby)) c)
        { dx := 0, dy := 0, cost := sadSum s (s.view .y mbx mby) 0 0 } := by
  rw [diamondSearch_of_valid h]
  split
  · next zero => rw [zero, diamondSteps_zero]
  · next pos => exact diamondSteps_eq_foldl s _ _ (by omega) le_rfl

/-- Settles O32: the search is the fold over the halvings of R (`diamondSearch_eq_foldl`), and every step keeps its
motion in bounds and within the sum of the steps (`DiamondAt.steps`). -/
theorem meDiamondRunsTheStepsOfTheSearch : Obligations.MeDiamondRunsTheStepsOfTheSearch := by
  refine ⟨rfl, needsGeometry_of _ fun s => rfl, fun s hs hv => ⟨fun hvalid => ?_, fun hvalid => ?_⟩⟩
  · have origin := origin_displacedInFrame hs hv hvalid
    have start : DiamondAt s (s.view .y s.args.mbx.toNat s.args.mby.toNat) 0
        { dx := 0, dy := 0, cost := sadSum s (s.view .y s.args.mbx.toNat s.args.mby.toNat) 0 0 } :=
      ⟨origin, rfl, le_rfl, le_rfl, le_rfl⟩
    have found := start.steps (fuel := s.cfg.range.toNat) (step := s.cfg.range.toNat)
    have run := exec_meDiamond hv
    rw [← diamondSearch_of_valid hvalid, Nat.zero_add] at found
    rw [setMotion_complete] at run
    rw [diamondSearch_eq_foldl hvalid] at found run
    exact ⟨run, found.inFrame, found.cost, found.le_origin, found.dx_le, found.dy_le⟩
  · rw [exec_meDiamond hv, diamondSearch_of_invalid hvalid, setMotion_sentinel_complete]

/-! Identical frames. -/

/-- From a centre of cost 0 the diamond search does not move (R457). -/
theorem diamondSteps_of_cost_zero (s : State) (v : View) (fuel step : Nat) {m : Motion} (h : m.cost = 0) :
    diamondSteps s v fuel step m = m := by
  induction fuel generalizing step with
  | zero => rfl
  | succ fuel ih =>
    rcases Nat.eq_zero_or_pos step with rfl | pos
    · exact diamondSteps_zero s v _ m
    · rw [diamondSteps_succ s v fuel step m pos, foldl_consider_of_cost_zero s v _ h, ih]

/-- Settles O33: SAD(0, 0) is 0 (`sadSum_origin_eq_zero`); the full search is no dearer, and the diamond search stays at
its start. -/
theorem identicalFramesCostNothing : Obligations.IdenticalFramesCostNothing := by
  intro s hs hv same hvalid
  have free := sadSum_origin_eq_zero s.args.mbx.toNat s.args.mby.toNat same
  refine ⟨⟨_, exec_meFull hv, ?_⟩, ⟨_, exec_meDiamond hv, ?_⟩⟩
  · have le := (foldl_consider_bestOf s _ (fullCandidates s.cfg.range.toNat) sentinel).le_probe (0, 0)
      (origin_mem_fullCandidates _) (origin_displacedInFrame hs hv hvalid)
    rw [← fullSearch_of_valid hvalid, free, Nat.le_zero] at le
    obtain ⟨-, -, res2⟩ := setMotion_complete_res s
      (fullSearch s s.args.mbx.toNat s.args.mby.toNat s.cfg.range.toNat)
    rw [res2, le]; rfl
  · rw [diamondSearch_of_valid hvalid, diamondSteps_of_cost_zero s _ _ _ free, free]
    exact setMotion_complete_res s { dx := 0, dy := 0, cost := 0 }

end Sys2Proof.Machine
end

section
/-! SUPPORT. Motion compensation and residual (42_motion_comp_residual.md): what MC_BLOCK, MC_FRAME and RESIDUAL
leave in each byte. -/

namespace Sys2Proof.Machine

/-! MC_BLOCK. -/

theorem predBlkAddr_eq (r c : Nat) : predBlkAddr r c = 0x04000000 + 16 * r + c := (Nat.add_assoc _ _ _).symm

/-- Two bytes of PRED_BLK with one address are one byte. -/
theorem predBlkAddr_inj {r c r' c' : Nat} (hc : c < 16) (hc' : c' < 16) (h : predBlkAddr r c = predBlkAddr r' c') :
    r = r' ∧ c = c' := by
  simp only [predBlkAddr] at h
  omega

theorem mbSize_le (p : Plane) : mbSize p ≤ 16 := by cases p <;> decide

/-- What a predicted block leaves in PRED_BLK over the valid region (R501). -/
theorem readByte_predictToBlk (s : State) (p : Plane) (mbx mby : Nat) (mvx mvy : Int) {r c : Nat}
    (hr : r < (s.view p mbx mby).h) (hc : c < (s.view p mbx mby).w) :
    (predictToBlk s p mbx mby mvx mvy).readByte (predBlkAddr r c)
      = predictSample s p (s.view p mbx mby) mvx mvy r c := by
  have column : ∀ rc ∈ rowsCols (s.view p mbx mby).h (s.view p mbx mby).w, rc.2 < 16 := fun _ h =>
    (view_position h).2.trans_le (mbSize_le p)
  exact readByte_storeBytes s (rowsCols (s.view p mbx mby).h (s.view p mbx mby).w) (fun rc => predBlkAddr rc.1 rc.2)
    (fun rc => predictSample s p (s.view p mbx mby) mvx mvy rc.1 rc.2)
    (fun x hx y hy same => Prod.ext_iff.2 (predBlkAddr_inj (column x hx) (column y hy) same))
    (r, c) ((mem_rowsCols _ _ _).2 ⟨hr, hc⟩)

/-- The bytes a predicted block leaves alone. -/
theorem readByte_predictToBlk_outside (s : State) (p : Plane) (mbx mby : Nat) (mvx mvy : Int) {a : Nat}
    (h : ∀ r < (s.view p mbx mby).h, ∀ c < (s.view p mbx mby).w, a ≠ predBlkAddr r c) :
    (predictToBlk s p mbx mby mvx mvy).readByte a = s.readByte a :=
  readByte_storeBytes_outside s (rowsCols (s.view p mbx mby).h (s.view p mbx mby).w)
    (fun rc => predBlkAddr rc.1 rc.2) _ a fun rc hrc => by
      obtain ⟨hr, hc⟩ := (mem_rowsCols _ _ _).1 hrc
      exact (h rc.1 hr rc.2 hc).symm

/-- The sampler with its clamps written out (R500). -/
theorem predictSample_eq (s : State) (p : Plane) (v : View) (mvx mvy : Int) (r c : Nat) :
    predictSample s p v mvx mvy r c = s.sample .ref p
      ((min (max (v.x0 + mvx) 0) ((s.planeW p : Int) - v.w)).toNat + c)
      ((min (max (v.y0 + mvy) 0) ((s.planeH p : Int) - v.h)).toNat + r) := rfl

theorem cast_planeW (s : State) (p : Plane) :
    (s.planeW p : Int) = if p = .y then (s.geom.w.toNat : Int) else s.geom.cw.toNat := by
  cases p <;> rfl

theorem cast_planeH (s : State) (p : Plane) :
    (s.planeH p : Int) = if p = .y then (s.geom.h.toNat : Int) else s.geom.ch.toNat := by
  cases p <;> rfl

theorem runInstr_mcBlock {sel : BitVec 4} {p : Plane} (hp : planeOfSel sel = some p) (s : State) :
    runInstr (.mcBlock sel) s
      = withGeometry s (.ok (predictToBlk s p s.args.mbx.toNat s.args.mby.toNat s.argMvx s.argMvy)) :=
  withPlane_some hp s _

/-- Settles O34: MC_BLOCK stores one byte of PRED_BLK for each sample of the view (`readByte_predictToBlk`), the one the
clamped sampler selects (`predictSample_eq`). -/
theorem mcBlockSamplesTheClampedBlock : Obligations.McBlockSamplesTheClampedBlock := by
  intro s sel p hsel hv
  have run := runInstr_mcBlock (planeOfSel_of_mem hsel)
  have word : ∀ e : BitVec 4, encode (.mcBlock e) = BitVec.ofNat 32 (0x30 + 256 * e.toNat) := by decide
  simp only [← cast_planeW, ← cast_planeH, ← predBlkAddr_eq]
  refine ⟨needsGeometry_of _ run, word sel, _, exec_with_geometry hv (run s), rfl, fun r hr c hc => ?_, fun a ha => ?_⟩
  · rw [complete_readByte, readByte_predictToBlk s p _ _ _ _ hr hc, predictSample_eq]
    rfl
  · rw [complete_readByte]
    exact readByte_predictToBlk_outside s p _ _ _ _ ha

/-! MC_FRAME. -/

/-- A view that is not empty starts at its macroblock's origin (40_frame_mb.md R401). -/
theorem view_origin {s : State} {p : Plane} {mbx mby c : Nat} (hc : c < (s.view p mbx mby).w) :
    (s.view p mbx mby).x0 = mbSize p * mbx ∧ (s.view p mbx mby).y0 = mbSize p * mby := by
  rcases view_cases s p mbx mby with ⟨-, e⟩ | ⟨-, e⟩ <;> rw [e] at hc ⊢
  · exact ⟨rfl, rfl⟩
  · exact absurd hc (Nat.not_lt_zero c)

/-- A sample of a plane lies in the view of one macroblock, at one position (R503): the views of distinct macroblocks do
not overlap. -/
theorem view_position_unique (s : State) (p : Plane) {mbx mby mbx' mby' r c r' c' : Nat}
    (hr : r < (s.view p mbx mby).h) (hc : c < (s.view p mbx mby).w)
    (hr' : r' < (s.view p mbx' mby').h) (hc' : c' < (s.view p mbx' mby').w)
    (hx : (s.view p mbx mby).x0 + c = (s.view p mbx' mby').x0 + c')
    (hy : (s.view p mbx mby).y0 + r = (s.view p mbx' mby').y0 + r') :
    mbx = mbx' ∧ mby = mby' ∧ r = r' ∧ c = c' := by
  obtain ⟨x0, y0⟩ := view_origin hc
  obtain ⟨x0', y0'⟩ := view_origin hc'
  obtain ⟨hw, hh⟩ := view_size s p mbx mby
  obtain ⟨hw', hh'⟩ := view_size s p mbx' mby'
  rw [x0, x0'] at hx
  rw [y0, y0'] at hy
  cases p <;> simp only [mbSize] at * <;> omega

theorem mem_mbCoords (s : State) (mb : Nat × Nat) :
    mb ∈ s.mbCoords ↔ mb.1 < s.geom.mbCols.toNat ∧ mb.2 < s.geom.mbRows.toNat := by
  obtain ⟨mbx, mby⟩ := mb
  simp [State.mbCoords, mem_rowsCols, and_comm]

/-- The sample MC_FRAME predicts at one position of a macroblock's view (R503). -/
def predMbSample (s : State) (p : Plane) (mbx mby r c : Nat) : Byte :=
  predictSample s p (s.view p mbx mby) (planeVector p (s.mv (s.mbIndex mbx mby))).1
    (planeVector p (s.mv (s.mbIndex mbx mby))).2 r c

/-- The stores of MC_FRAME for one macroblock in one plane. -/
theorem mem_predMbCells (s : State) (p : Plane) (mbx mby : Nat) (cell : Host.Cell) :
    cell ∈ predMbCells s p mbx mby ↔ ∃ r c, r < (s.view p mbx mby).h ∧ c < (s.view p mbx mby).w
      ∧ cell = (s.sampleAddr .pred p ((s.view p mbx mby).x0 + c) ((s.view p mbx mby).y0 + r),
          predMbSample s p mbx mby r c) := by
  simp only [predMbCells, List.mem_map, mem_rowsCols, Prod.exists, and_assoc, predMbSample, eq_comm]

/-- The stores of MC_FRAME: one for each position of each macroblock of the grid in each plane (R503). -/
theorem mem_predFrameCells (s : State) (cell : Host.Cell) :
    cell ∈ predFrameCells s ↔ ∃ p mbx mby, mbx < s.geom.mbCols.toNat ∧ mby < s.geom.mbRows.toNat
      ∧ cell ∈ predMbCells s p mbx mby := by
  simp only [predFrameCells, List.mem_flatMap, mem_mbCoords, List.mem_append]
  constructor
  · rintro ⟨mb, ⟨hx, hy⟩, (h | h) | h⟩
    · exact ⟨.y, mb.1, mb.2, hx, hy, h⟩
    · exact ⟨.u, mb.1, mb.2, hx, hy, h⟩
    · exact ⟨.v, mb.1, mb.2, hx, hy, h⟩
  · rintro ⟨p, mbx, mby, hx, hy, h⟩
    refine ⟨(mbx, mby), ⟨hx, hy⟩, ?_⟩
    cases p with
    | y => exact .inl (.inl h)
    | u => exact .inl (.inr h)
    | v => exact .inr h

/-- A sample of PRED after MC_FRAME: only the macroblock whose view it is in stores to its address. -/
theorem sample_predFrame {s : State} {w h : Nat} (hf : FrameSize s w h) (p : Plane) {mbx mby r c : Nat}
    (hx : mbx < s.geom.mbCols.toNat) (hy : mby < s.geom.mbRows.toNat)
    (hr : r < (s.view p mbx mby).h) (hc : c < (s.view p mbx mby).w) :
    (s.storeCells (predFrameCells s)).sample .pred p ((s.view p mbx mby).x0 + c) ((s.view p mbx mby).y0 + r)
      = predMbSample s p mbx mby r c := by
  obtain ⟨inW, inH⟩ := view_inside s p mbx mby hr hc
  refine readByte_storeCells_mem s _
    (s.sampleAddr .pred p ((s.view p mbx mby).x0 + c) ((s.view p mbx mby).y0 + r)) _
    ((mem_predFrameCells s _).2 ⟨p, mbx, mby, hx, hy, (mem_predMbCells s p mbx mby _).2 ⟨r, c, hr, hc, rfl⟩⟩)
    fun cell hcell same => ?_
  obtain ⟨q, mbx', mby', -, -, stored⟩ := (mem_predFrameCells s cell).1 hcell
  obtain ⟨r', c', hr', hc', rfl⟩ := (mem_predMbCells s q mbx' mby' cell).1 stored
  obtain ⟨inW', inH'⟩ := view_inside s q mbx' mby' hr' hc'
  obtain ⟨rfl, sameX, sameY⟩ := sampleAddr_inj hf .pred inW' inH' inW inH same
  obtain ⟨rfl, rfl, rfl, rfl⟩ := view_position_unique s q hr' hc' hr hc sameX sameY
  rfl

/-- Every other byte is left alone, the padding of PRED among them. -/
theorem readByte_predFrame_outside (s : State) {a : Nat}
    (h : ∀ p x y, x < s.planeW p → y < s.planeH p → a ≠ s.sampleAddr .pred p x y) :
    (s.storeCells (predFrameCells s)).readByte a = s.readByte a := by
  refine readByte_storeCells_notMem s _ a fun cell hcell same => ?_
  obtain ⟨p, mbx, mby, -, -, stored⟩ := (mem_predFrameCells s cell).1 hcell
  obtain ⟨r, c, hr, hc, rfl⟩ := (mem_predMbCells s p mbx mby cell).1 stored
  obtain ⟨inW, inH⟩ := view_inside s p mbx mby hr hc
  exact h p _ _ inW inH same.symm

/-- The vector of a plane: that of MVARR in luma, each component halved toward zero in chroma (R502). -/
theorem planeVector_eq (p : Plane) (mv : Int × Int) : planeVector p mv =
    (if p = .y then mv.1 else mv.1.tdiv 2, if p = .y then mv.2 else mv.2.tdiv 2) := by
  cases p <;> rfl

/-- Settles O35: a sample of PRED is stored by the one macroblock whose view it is in (`sample_predFrame`), with the
vector of its plane (`planeVector_eq`). -/
theorem mcFramePredictsEverySample : Obligations.McFramePredictsEverySample := by
  refine ⟨rfl, needsGeometry_of _ fun s => rfl, fun s hs hv => ⟨_, exec_with_geometry hv rfl, rfl, ?_, ?_⟩⟩
  · intro p mbx mby hx hy v i dx dy mvx mvy ox oy r hr c hc
    have stored := sample_predFrame (frameSize_of_inv hs hv) p hx hy hr hc
    rw [predMbSample, planeVector_eq, predictSample_eq] at stored
    exact stored
  · exact fun a ha => readByte_predFrame_outside s ha

/-! RESIDUAL. -/

/-- What RESIDUAL leaves in an element of the valid region (R505). -/
theorem elem16_residual (s : State) (mbx mby : Nat) {r c : Nat} (hr : r < (s.view .y mbx mby).h)
    (hc : c < (s.view .y mbx mby).w) : (residual s mbx mby).elem16 (stagingAddr .y r c)
      = low16 ((s.sample .cur .y ((s.view .y mbx mby).x0 + c) ((s.view .y mbx mby).y0 + r)).toNat
          - (s.predBlk r c).toNat) :=
  elem16_storeElems s (rowsCols (s.view .y mbx mby).h (s.view .y mbx mby).w) (fun rc => stagingAddr .y rc.1 rc.2)
    (fun rc => low16 ((s.sample .cur .y ((s.view .y mbx mby).x0 + rc.2) ((s.view .y mbx mby).y0 + rc.1)).toNat
      - (s.predBlk rc.1 rc.2).toNat))
    (fun _ hx _ hy lt gt => Prod.ext_iff.2 (stagingAddr_sep .y (view_position hx).2 (view_position hy).2 lt gt))
    (r, c) ((mem_rowsCols _ _ _).2 ⟨hr, hc⟩)

/-- The bytes RESIDUAL leaves alone, the stale tail among them. -/
theorem readByte_residual_outside (s : State) (mbx mby : Nat) {a : Nat}
    (h : ∀ r < (s.view .y mbx mby).h, ∀ c < (s.view .y mbx mby).w,
      a < stagingAddr .y r c ∨ stagingAddr .y r c + 2 ≤ a) :
    (residual s mbx mby).readByte a = s.readByte a :=
  readByte_storeElems_outside s (rowsCols (s.view .y mbx mby).h (s.view .y mbx mby).w)
    (fun rc => stagingAddr .y rc.1 rc.2) _ 2 a fun rc hrc => by
      obtain ⟨hr, hc⟩ := (mem_rowsCols _ _ _).1 hrc
      exact h rc.1 hr rc.2 hc

/-- The difference of two samples fits 16 bits (R504). -/
theorem toInt_low16_sub_byte (a b : Byte) : (low16 ((a.toNat : Int) - b.toNat)).toInt = a.toNat - b.toNat :=
  toInt_low16 (by have := a.isLt; have := b.isLt; omega)

/-- Settles O36: RESIDUAL stores one element of RESID for each sample of the luma view (`elem16_residual`), and the
difference fits it (`toInt_low16_sub_byte`). -/
theorem residualIsTheExactDifference : Obligations.ResidualIsTheExactDifference := by
  refine ⟨rfl, needsGeometry_of _ fun s => rfl, fun s hv => ⟨_, exec_with_geometry hv rfl, rfl, fun r hr c hc => ?_, ?_⟩⟩
  · have stored := congrArg BitVec.toInt (elem16_residual s _ _ hr hc)
    rw [toInt_low16_sub_byte, State.predBlk, predBlkAddr_eq] at stored
    exact stored
  · exact fun a ha => readByte_residual_outside s _ _ ha

end Sys2Proof.Machine
end

section
/-! SUPPORT. The transform commands (43_transform.md): what a command that replaces one coefficient block leaves, the
products of blocks as products of matrices, and the sums that the two transforms take. -/

namespace Sys2Proof.Machine

/-! Commands that replace a block. -/

theorem withBlock_legal {sel : BitVec 4} (hsel : sel.toNat ≤ 5) (s : State) (f : Nat → Run) :
    withBlock sel s f = f sel.toNat := by
  rcases withBlock_cases sel s f with ⟨-, -, e⟩ | ⟨h, -, -⟩
  · exact e
  · omega

/-- The words of the commands on one block: the opcode, and the block's number in SEL (30_encoding.md R301, R307). -/
theorem encode_transform8 : ∀ sel : BitVec 4,
    encode (.loadBlk sel) = BitVec.ofNat 32 (0x40 + 256 * sel.toNat)
      ∧ encode (.zeroBlk sel) = BitVec.ofNat 32 (0x41 + 256 * sel.toNat)
      ∧ encode (.fdct8 sel) = BitVec.ofNat 32 (0x42 + 256 * sel.toNat)
      ∧ encode (.idct8 sel) = BitVec.ofNat 32 (0x43 + 256 * sel.toNat) := by decide

/-- An element of COEF, read at its address. -/
theorem coefAt_eq_blockAt (s : State) (k : Nat) (r c : Fin 8) : coefAt s k r c = blockAt (s.coefBlock k) r c := by
  simp only [coefAt, blockAt, State.coefBlock, Vector.getElem_ofFn, coefAddr, coefBase]

theorem complete_complete (s : State) : s.complete.complete = s.complete := rfl

/-- A store and the end of a command exchange. -/
theorem storeCells_complete (s : State) (cells : List Host.Cell) :
    s.complete.storeCells cells = (s.storeCells cells).complete := rfl

/-- A store and the end of a command: what they change. -/
theorem complete_storeCells (s : State) (cells : List Host.Cell) : (s.storeCells cells).complete
    = { s with mem := (s.storeCells cells).complete.mem, running := none, done := true } := rfl

@[simp] theorem complete_coefBlock (s : State) (k : Nat) : s.complete.coefBlock k = s.coefBlock k := rfl

/-- What a command leaves that does nothing but write its block, with elements that fit 32 bits: the block it wrote,
every other byte, and the end of a command. -/
theorem exec_setsBlock {i : Instr} {sel : BitVec 4} {s : State} {b : Nat → Block} (hsel : sel.toNat ≤ 5)
    (run : runInstr i s = withBlock sel s fun k => .ok (s.setCoef k (b k)))
    (fits : ∀ j : Fin 64, -2147483648 ≤ (b sel.toNat)[j] ∧ (b sel.toNat)[j] ≤ 2147483647) :
    ∃ t, exec i s = .next t ∧ t = { s with mem := t.mem, running := none, done := true }
      ∧ (∀ r c, coefAt t sel.toNat r c = blockAt (b sel.toNat) r c) ∧ SameOutsideBlock s t sel.toNat := by
  refine ⟨(s.setCoef sel.toNat (b sel.toNat)).complete, ?_, complete_storeCells s _, fun r c => ?_, fun a ha => ?_⟩
  · rw [exec_eq, run, withBlock_legal hsel, finish_ok]
  · rw [coefAt_eq_blockAt, complete_coefBlock, coefBlock_setCoef s _ _ fits]
  · rw [complete_readByte, readByte_setCoef_outside s _ _ a (by simpa only [coefBase] using ha)]

/-! LOAD_BLK and ZERO_BLK. -/

/-- The staging address in closed form: block k < 4 is the quarter of RESID at row 8 (k div 2), column 8 (k mod 2), and
the two chroma buffers follow RESID (R551). -/
theorem stageAddress_eq {k : Nat} (hk : k ≤ 5) (r c : Fin 8) : stageAddress k r c = stageAddr k r c := by
  simp only [stageAddress, stageAddr, stagingAddr, residBase, cresUBase, cresVBase]
  interval_cases k <;> simp

theorem blockAt_stageBlock (s : State) {k : Nat} (hk : k ≤ 5) (r c : Fin 8) :
    blockAt (s.stageBlock k) r c = (s.elem16 (stageAddress k r c)).toInt := by
  have row : (8 * r.val + c.val) / 8 = r.val := by omega
  have col : (8 * r.val + c.val) % 8 = c.val := by omega
  simp only [stageAddress_eq hk, blockAt, State.stageBlock, Vector.getElem_ofFn, row, col]

@[simp] theorem blockAt_zeroBlock (r c : Fin 8) : blockAt zeroBlock r c = 0 := by
  simp only [blockAt, zeroBlock, Vector.getElem_replicate]

/-- Settles O37: LOAD_BLK writes the staging block and ZERO_BLK the zero block (`exec_setsBlock`). -/
theorem loadAndZeroBlock : Obligations.LoadAndZeroBlock := by
  intro s sel hsel
  obtain ⟨loadWord, zeroWord, -, -⟩ := encode_transform8 sel
  have stageFits (j : Fin 64) :
      -2147483648 ≤ (s.stageBlock sel.toNat)[j] ∧ (s.stageBlock sel.toNat)[j] ≤ 2147483647 := by
    have := stageBlock_range s sel.toNat j
    omega
  have zeroFits (j : Fin 64) : -2147483648 ≤ zeroBlock[j] ∧ zeroBlock[j] ≤ 2147483647 := by
    simp [zeroBlock]
  have load := exec_setsBlock (i := .loadBlk sel) (b := s.stageBlock) hsel rfl stageFits
  have zero := exec_setsBlock (i := .zeroBlk sel) (s := s) (b := fun _ => zeroBlock) hsel rfl zeroFits
  simp only [blockAt_stageBlock s hsel] at load
  simp only [blockAt_zeroBlock] at zero
  exact ⟨loadWord, zeroWord, load, zero⟩

/-! Blocks as matrices. -/

/-- A block as a matrix over the integers: row r, column c is element [r][c]. -/
def blockMatrix (x : Block) : Matrix (Fin 8) (Fin 8) Int := Matrix.of (blockAt x)

theorem blockMatrix_apply (x : Block) (r c : Fin 8) : blockMatrix x r c = blockAt x r c := rfl

theorem blockMatrix_injective {x y : Block} (h : blockMatrix x = blockMatrix y) : x = y :=
  block_ext fun r c => congrFun (congrFun h r) c

theorem sum8_eq_sum (f : Fin 8 → Int) : sum8 f = ∑ i, f i := (Fin.sum_univ_def f).symm

@[simp] theorem blockMatrix_matMul (a b : Block) : blockMatrix (matMul a b) = blockMatrix a * blockMatrix b := by
  ext r c
  rw [blockMatrix_apply, blockAt_matMul, Matrix.mul_apply]
  exact sum8_eq_sum _

@[simp] theorem blockMatrix_transpose (x : Block) : blockMatrix (transpose x) = (blockMatrix x).transpose := by
  ext r c
  simp only [Matrix.transpose_apply, blockMatrix_apply, blockAt_transpose]

@[simp] theorem blockMatrix_zeroBlock : blockMatrix zeroBlock = 0 := by
  ext r c
  exact blockAt_zeroBlock r c

theorem blockMatrix_map_neg (x : Block) : blockMatrix (x.map fun e => -e) = -blockMatrix x := by
  ext r c
  exact blockAt_map _ x r c

theorem blockMatrix_map_mul (n : Int) (x : Block) : blockMatrix (x.map fun e => n * e) = n • blockMatrix x := by
  ext r c
  exact blockAt_map _ x r c

/-- n on the diagonal and 0 elsewhere. -/
theorem blockMatrix_scalar (n : Int) : blockMatrix (blockOf fun r c => if r = c then n else 0) = n • 1 := by
  ext r c
  simp [blockMatrix_apply, Matrix.one_apply]

/-! FDCT8 and IDCT8. -/

/-- An element of `A · X · B` as the double sum over X (00_scope.md R10). -/
theorem blockAt_matMul_matMul (a x b : Block) (r c : Fin 8) : blockAt (matMul (matMul a x) b) r c
    = sum8 fun i => sum8 fun j => blockAt a r i * blockAt x i j * blockAt b j c := by
  rw [← blockMatrix_apply, blockMatrix_matMul, blockMatrix_matMul, Matrix.mul_apply]
  simp only [Matrix.mul_apply, sum8_eq_sum, Finset.sum_mul, blockMatrix_apply]
  exact Finset.sum_comm

/-- The entry of C, read from the parameter BASIS (R550). -/
theorem basisEntry_eq_blockAt (s : State) (r c : Fin 8) :
    basisEntry s r c = blockAt (basisBlock s.params.basis) r c := by
  simp only [basisEntry, blockAt, basisBlock, Vector.getElem_map]
  cases s.params.basis[8 * r.val + c.val] <;> rfl

/-- `sat32(asr(u, 3))` written out (00_scope.md R8). -/
theorem sat32_asr_three (u : Int) : sat32 (asr u 3) = min (max (u / 8) (-2 ^ 31)) (2 ^ 31 - 1) := by
  norm_num [sat32, asr, clampInt]

/-- `sat16(asr(u, 3))` written out (00_scope.md R8). -/
theorem sat16_asr_three (u : Int) : sat16 (asr u 3) = min (max (u / 8) (-32768)) 32767 := by
  norm_num [sat16, asr, clampInt]

/-- `fwd` of a block of COEF as the statement spells it (R554): `Cᵗ` is read by its transposed entries. -/
theorem blockAt_fwd_coefBlock (s : State) (k : Nat) (r c : Fin 8) :
    blockAt (fwd s.params.basis (s.coefBlock k)) r c =
      min (max ((sum8 fun i => sum8 fun j =>
        basisEntry s r i * coefAt s k i j * basisEntry s c j) / 8) (-2 ^ 31)) (2 ^ 31 - 1) := by
  rw [blockAt_fwd, sat32_asr_three, blockAt_matMul_matMul]
  simp only [blockAt_transpose, basisEntry_eq_blockAt, coefAt_eq_blockAt]

/-- `inv` of a block of COEF as the statement spells it (R555). -/
theorem blockAt_inv_coefBlock (s : State) (k : Nat) (r c : Fin 8) :
    blockAt (inv s.params.basis (s.coefBlock k)) r c =
      min (max ((sum8 fun i => sum8 fun j =>
        basisEntry s i r * coefAt s k i j * basisEntry s j c) / 8) (-32768)) 32767 := by
  rw [blockAt_inv, sat16_asr_three, blockAt_matMul_matMul]
  simp only [blockAt_transpose, basisEntry_eq_blockAt, coefAt_eq_blockAt]

/-- Settles O38: FDCT8 writes `fwd` of the old block (`exec_setsBlock`), which is the saturated double sum. -/
theorem fdct8IsTheForwardTransform : Obligations.Fdct8IsTheForwardTransform := by
  intro s sel hsel
  obtain ⟨-, -, word, -⟩ := encode_transform8 sel
  have forward := exec_setsBlock (i := .fdct8 sel) (b := fun k => fwd s.params.basis (s.coefBlock k)) hsel rfl
    (fwd_range _ _)
  simp only [blockAt_fwd_coefBlock] at forward
  exact ⟨word, forward⟩

/-- Settles O39: IDCT8 writes `inv` of the old block (`exec_setsBlock`), which is the clamped double sum. -/
theorem idct8IsTheInverseTransform : Obligations.Idct8IsTheInverseTransform := by
  intro s sel hsel
  obtain ⟨-, -, -, word⟩ := encode_transform8 sel
  have inverse := exec_setsBlock (i := .idct8 sel) (b := fun k => inv s.params.basis (s.coefBlock k)) hsel rfl
    (inv_range _ _)
  simp only [blockAt_inv_coefBlock] at inverse
  exact ⟨word, inverse⟩

/-! FDCT16 and IDCT16. -/

/-- One block replaced by its transform: `fdct8` is the case `fwd`, `idct8` the case `inv`. -/
def transformBlk (f : Vector Trit 64 → Block → Block) (s : State) (k : Nat) : State :=
  s.setCoef k (f s.params.basis (s.coefBlock k))

/-- A transform reads and writes nothing that the end of a command changes. -/
theorem transformBlk_complete (f : Vector Trit 64 → Block → Block) (s : State) (k : Nat) :
    transformBlk f s.complete k = (transformBlk f s k).complete := by
  rw [transformBlk, complete_params, complete_coefBlock, State.setCoef, storeCells_complete]
  rfl

/-- Blocks 0 to 3 of COEF end where block 4 begins. -/
theorem readByte_transformBlk_outside (f : Vector Trit 64 → Block → Block) (s : State) {k a : Nat} (hk : k < 4)
    (ha : a < 0x04000400 ∨ 0x04000800 ≤ a) : (transformBlk f s k).readByte a = s.readByte a :=
  readByte_setCoef_outside s k _ a (by simp only [coefBase]; omega)

/-- A loop of transforms over blocks below 4 leaves every byte outside blocks 0 to 3. -/
theorem readByte_foldl_transformBlk (f : Vector Trit 64 → Block → Block) {ks : List Nat} (hks : ∀ k ∈ ks, k < 4)
    (s : State) {a : Nat} (ha : a < 0x04000400 ∨ 0x04000800 ≤ a) :
    (ks.foldl (transformBlk f) s).readByte a = s.readByte a := by
  induction ks generalizing s with
  | nil => rfl
  | cons k ks ih =>
    rw [List.foldl_cons, ih (fun j hj => hks j (List.mem_cons_of_mem k hj)),
      readByte_transformBlk_outside f s (hks k List.mem_cons_self) ha]

/-- A loop of transforms and the end of a command: what they change. -/
theorem complete_foldl_transformBlk (f : Vector Trit 64 → Block → Block) (ks : List Nat) (s : State) :
    (ks.foldl (transformBlk f) s).complete
      = { s with mem := (ks.foldl (transformBlk f) s).complete.mem, running := none, done := true } := by
  induction ks generalizing s with
  | nil => rfl
  | cons k ks ih =>
    rw [List.foldl_cons, ih]
    simp only [transformBlk, State.setCoef, State.storeCells]

/-- What a command on one block does that transforms it. -/
theorem exec_transformBlk {f : Vector Trit 64 → Block → Block} {i : Instr} {sel : BitVec 4} (hsel : sel.toNat ≤ 5)
    (run : ∀ s, runInstr i s = withBlock sel s fun k => .ok (transformBlk f s k)) (s : State) :
    exec i s = .next (transformBlk f s sel.toNat).complete := by
  rw [exec_eq, run, withBlock_legal hsel, finish_ok]

/-- The end of the command before it is lost in its own end. -/
theorem exec_transformBlk_complete {f : Vector Trit 64 → Block → Block} {i : Instr} {sel : BitVec 4}
    (hsel : sel.toNat ≤ 5) (run : ∀ s, runInstr i s = withBlock sel s fun k => .ok (transformBlk f s k)) (s : State) :
    exec i s.complete = .next (transformBlk f s sel.toNat).complete := by
  rw [exec_transformBlk hsel run, transformBlk_complete, complete_complete]

/-- A command that transforms blocks 0 to 3 in one run, and the four commands that transform one of them each: the same
state. -/
theorem transform16_eq_four {f : Vector Trit 64 → Block → Block} {whole : Instr} {part : BitVec 4 → Instr}
    (runWhole : ∀ s, runInstr whole s = .ok ([0, 1, 2, 3].foldl (transformBlk f) s))
    (runPart : ∀ sel s, runInstr (part sel) s = withBlock sel s fun k => .ok (transformBlk f s k)) (s : State) :
    ∃ t0 t1 t2 t3, exec (part 0) s = .next t0 ∧ exec (part 1) t0 = .next t1 ∧ exec (part 2) t1 = .next t2
      ∧ exec (part 3) t2 = .next t3 ∧ exec whole s = .next t3
      ∧ t3 = { s with mem := t3.mem, running := none, done := true }
      ∧ ∀ a, (a < 0x04000400 ∨ 0x04000800 ≤ a) → t3.readByte a = s.readByte a := by
  refine ⟨_, _, _, ([0, 1, 2, 3].foldl (transformBlk f) s).complete, exec_transformBlk (by decide) (runPart 0) _,
    exec_transformBlk_complete (by decide) (runPart 1) _, exec_transformBlk_complete (by decide) (runPart 2) _,
    exec_transformBlk_complete (by decide) (runPart 3) _, ?_, complete_foldl_transformBlk f _ s, fun a ha => ?_⟩
  · rw [exec_eq, runWhole, finish_ok]
  · rw [complete_readByte, readByte_foldl_transformBlk f (by decide) s ha]

/-- Settles O40: both 16×16 commands are a loop of one transform over blocks 0 to 3 (`transform16_eq_four`). -/
theorem transform16IsFourTransforms8 : Obligations.Transform16IsFourTransforms8 := by
  refine fun s => ⟨rfl, rfl, fun p hp => ?_⟩
  obtain rfl | rfl : p = (.fdct16, .fdct8) ∨ p = (.idct16, .idct8) := by simpa using hp
  · exact transform16_eq_four (f := fwd) (fun _ => rfl) (fun _ _ => rfl) s
  · exact transform16_eq_four (f := inv) (fun _ => rfl) (fun _ _ => rfl) s

/-! The properties of the pair (R560). -/

theorem fwd_zeroBlock (m : Vector Trit 64) : fwd m zeroBlock = zeroBlock := by
  have product : matMul (matMul (basisBlock m) zeroBlock) (transpose (basisBlock m)) = zeroBlock :=
    blockMatrix_injective (by simp)
  refine block_ext fun r c => ?_
  rw [blockAt_fwd, product, blockAt_zeroBlock]
  rfl

theorem inv_zeroBlock (m : Vector Trit 64) : inv m zeroBlock = zeroBlock := by
  have product : matMul (matMul (transpose (basisBlock m)) zeroBlock) (basisBlock m) = zeroBlock :=
    blockMatrix_injective (by simp)
  refine block_ext fun r c => ?_
  rw [blockAt_inv, product, blockAt_zeroBlock]
  rfl

/-- The exact products change sign with the block. -/
theorem matMul_matMul_map_neg (a x b : Block) :
    matMul (matMul a (x.map fun e => -e)) b = (matMul (matMul a x) b).map fun e => -e :=
  blockMatrix_injective (by simp only [blockMatrix_matMul, blockMatrix_map_neg, mul_neg, neg_mul])

/-- The floor of the shift and the asymmetric range of 32 bits each keep the two results within 1 of opposite. -/
theorem natAbs_sat32_asr_neg_add (u : Int) : (sat32 (asr (-u) 3) + sat32 (asr u 3)).natAbs ≤ 1 := by
  rw [sat32_asr_three, sat32_asr_three]
  omega

theorem natAbs_fwd_neg_add_fwd (m : Vector Trit 64) (x : Block) (i : Fin 64) :
    ((fwd m (x.map fun e => -e))[i] + (fwd m x)[i]).natAbs ≤ 1 := by
  simp only [fwd, matMul_matMul_map_neg, Fin.getElem_fin, Vector.getElem_map]
  exact natAbs_sat32_asr_neg_add _

/-- For a matrix with `Cᵗ · C = 8 · I`, the exact products of the two transforms scale the block by 64. -/
theorem inverse_forward_product {c : Block} (x : Block)
    (orthogonal : matMul (transpose c) c = blockOf fun i j => if i = j then 8 else 0) :
    matMul (matMul (transpose c) (matMul (matMul c x) (transpose c))) c = x.map fun e => 64 * e := by
  have gram : (blockMatrix c).transpose * blockMatrix c = (8 : Int) • 1 := by
    rw [← blockMatrix_transpose, ← blockMatrix_matMul, orthogonal, blockMatrix_scalar]
  refine blockMatrix_injective ?_
  rw [blockMatrix_map_mul]
  simp only [blockMatrix_matMul, blockMatrix_transpose]
  generalize blockMatrix c = C at gram
  generalize blockMatrix x = X
  calc C.transpose * (C * X * C.transpose) * C
      = (C.transpose * C) * X * (C.transpose * C) := by simp only [Matrix.mul_assoc]
    _ = (64 : Int) • X := by rw [gram, smul_one_mul, mul_smul_one, smul_smul]; norm_num

/-- Settles O41: zero blocks, opposite blocks and the orthogonal case, one lemma each. -/
theorem transformProperties : Obligations.TransformProperties := by
  intro m x
  exact ⟨fwd_zeroBlock m, inv_zeroBlock m, natAbs_fwd_neg_add_fwd m x,
    fun _ orthogonal => inverse_forward_product x orthogonal⟩

end Sys2Proof.Machine
end

section
/-! SUPPORT. The quantizer (44_quantizer.md): the scale of a QP and the exponential it rounds, what division with
halves away from zero leaves over, and what QP_SCALE, QUANT and DEQUANT leave. -/

namespace Sys2Proof.Machine

/-! The scale of a QP (R600). -/

theorem qpToScale_of_nonpos {qp : Int} (h : qp ≤ 0) : qpToScale qp = 1 := if_pos h

theorem qpToScale_of_ge {qp : Int} (h : 51 ≤ qp) : qpToScale qp = 256 := by
  rw [qpToScale, if_neg (by omega), if_pos h]

/-- Between the two ends the scale is an entry of the table. -/
theorem scaleTable_getElem? {qp : Int} (h1 : 1 ≤ qp) (h2 : qp ≤ 50) :
    scaleTable[qp.toNat]? = some (qpToScale qp) := by
  have inside : qp.toNat < scaleTable.length := by simp only [scaleTable, List.length_cons, List.length_nil]; omega
  rw [qpToScale, if_neg (by omega), if_neg (by omega), List.getD_eq_getElem _ _ inside, List.getElem?_eq_getElem inside]

/-- No scale is 0, so that the quantizer can divide by it (R603). -/
theorem qpToScale_pos (qp : Int) : 1 ≤ qpToScale qp := by
  have entries : ∀ x ∈ scaleTable, 1 ≤ x := by decide
  by_cases low : qp ≤ 0
  · rw [qpToScale_of_nonpos low]
  by_cases high : 51 ≤ qp
  · rw [qpToScale_of_ge high]; decide
  · exact entries _ (List.mem_of_getElem? (scaleTable_getElem? (by omega) (by omega)))

/-- Settles O42: the two ends by their lemmas, and the entries between as the table without its last. -/
theorem qpScaleIsTheTable : Obligations.QpScaleIsTheTable := by
  refine ⟨rfl, fun s => ⟨qpToScale s.args.qp.toInt, exec_eq .qpScale s, qpToScale_of_nonpos, qpToScale_of_ge,
    fun h1 h2 => ?_⟩⟩
  have beforeLast : s.args.qp.toInt.toNat < 51 := by omega
  rw [← scaleTable_getElem? h1 h2]
  exact List.getElem?_take_of_lt (l := scaleTable) beforeLast

/-! The table against the exponential (R601). -/

/-- Five terms of the exponential series fix the growth of one QP to six decimals. -/
theorem exp_qp_step_bounds :
    (1121873 / 1000000 : ℝ) ≤ Real.exp (115 / 1000) ∧ Real.exp (115 / 1000) ≤ (1121874 / 1000000 : ℝ) := by
  constructor
  · refine le_trans ?_ (Real.sum_le_exp_of_nonneg (by norm_num) 5)
    norm_num [Finset.sum_range_succ, Nat.factorial]
  · refine (Real.exp_bound' (by norm_num) (by norm_num) (n := 5) (by norm_num)).trans ?_
    norm_num [Finset.sum_range_succ, Nat.factorial]

/-- Six decimals are enough: up to QP 50 the powers of both bounds stay within 1/2 of the table's entry. -/
theorem qpToScale_between_powers : ∀ qp ∈ Finset.Icc 1 50,
    2 * qpToScale (qp : Nat) * 1000000 ^ qp < 2 * 1121873 ^ qp + 1000000 ^ qp
      ∧ 2 * 1121874 ^ qp < (2 * qpToScale (qp : Nat) + 1) * 1000000 ^ qp := by decide

/-- Settles O43: `exp(0.115 qp)` is a power of `exp(0.115)`, which lies between powers of two decimal fractions. -/
theorem scaleTableRoundsTheExponential : Obligations.ScaleTableRoundsTheExponential := by
  intro qp h1 h2
  obtain ⟨below, above⟩ := qpToScale_between_powers qp (Finset.mem_Icc.2 ⟨h1, h2⟩)
  have unit : (0 : ℝ) < 1000000 ^ qp := by positivity
  have lower : ((qpToScale qp : ℝ) - 1 / 2) < (1121873 / 1000000 : ℝ) ^ qp := by
    rw [div_pow, lt_div_iff₀ unit]
    have : (2 * qpToScale qp * 1000000 ^ qp : ℝ) < 2 * 1121873 ^ qp + 1000000 ^ qp := by exact_mod_cast below
    linarith
  have upper : (1121874 / 1000000 : ℝ) ^ qp < (qpToScale qp : ℝ) + 1 / 2 := by
    rw [div_pow, div_lt_iff₀ unit]
    have : (2 * 1121874 ^ qp : ℝ) < (2 * qpToScale qp + 1) * 1000000 ^ qp := by exact_mod_cast above
    linarith
  obtain ⟨stepLower, stepUpper⟩ := exp_qp_step_bounds
  have powLower := pow_le_pow_left₀ (by norm_num) stepLower qp
  have powUpper := pow_le_pow_left₀ (Real.exp_nonneg _) stepUpper qp
  rw [Real.exp_nat_mul, abs_sub_lt_iff]
  constructor <;> linarith

/-! Rounding (R603). -/

/-- The quotient of magnitudes that `quantize` gives its sign. -/
def roundDiv (n s : Nat) : Nat := (n + s / 2) / s

/-- The multiple of `s` that `roundDiv` picks lies in the half-open window of length `s` that ends at `n + s div 2`. -/
theorem mul_roundDiv_bounds (n : Nat) {s : Nat} (hs : 1 ≤ s) :
    s * roundDiv n s ≤ n + s / 2 ∧ n + s / 2 < s * roundDiv n s + s :=
  ⟨Nat.mul_div_le _ _, Nat.lt_mul_div_succ _ hs⟩

theorem roundDiv_le (n : Nat) {s : Nat} (hs : 1 ≤ s) : roundDiv n s ≤ n := by
  refine Nat.le_of_lt_succ ((Nat.div_lt_iff_lt_mul hs).2 ?_)
  have grows : n ≤ n * s := Nat.le_mul_of_pos_right n hs
  rw [Nat.succ_mul]
  omega

@[simp] theorem quantize_natCast (n : Nat) {s : Nat} (hs : 1 ≤ s) : quantize n s = roundDiv n s := by
  rcases Nat.eq_zero_or_pos n with rfl | pos
  · have zero : roundDiv 0 s = 0 := Nat.le_zero.1 (roundDiv_le 0 hs)
    simp [quantize, zero]
  · simp [quantize, roundDiv, Int.sign_eq_one_of_pos (Int.natCast_pos.2 pos)]

@[simp] theorem quantize_neg (c : Int) (s : Nat) : quantize (-c) s = -quantize c s := by
  simp only [quantize, Int.sign_neg, Int.natAbs_neg, neg_mul]

/-- The multiple of `s` in magnitude. -/
theorem natAbs_mul_quantize (c : Int) {s : Nat} (hs : 1 ≤ s) :
    (s * quantize c s).natAbs = s * roundDiv c.natAbs s := by
  obtain ⟨n, rfl | rfl⟩ := c.eq_nat_or_neg <;> simp [hs, Int.natAbs_mul]

/-- The error of the round trip in magnitude: a coefficient and its multiple of `s` have the same sign. -/
theorem natAbs_sub_mul_quantize (c : Int) {s : Nat} (hs : 1 ≤ s) :
    (c - s * quantize c s).natAbs = ((c.natAbs : Int) - (s * roundDiv c.natAbs s : Nat)).natAbs := by
  obtain ⟨n, rfl | rfl⟩ := c.eq_nat_or_neg
  · simp [hs]
  · rw [quantize_neg, mul_neg, quantize_natCast n hs, Int.natAbs_neg, Int.natAbs_natCast, ← neg_sub', Int.natAbs_neg]
    push_cast
    rfl

/-- `dequantize` with `sat32` written out (R605). -/
theorem dequantize_eq (q : Int) (s : Nat) : dequantize q s = min (max (q * s) (-2 ^ 31)) (2 ^ 31 - 1) := by
  norm_num [dequantize, sat32, clampInt]

/-- A product that fits 32 bits is not saturated, and quantized coefficients of the bound's range have one (R605). -/
theorem dequantize_quantize {c : Int} {s : Nat} (hs : 1 ≤ s) (h : (c.natAbs : Int) ≤ 2 ^ 31 - 1 - (s / 2 : Nat)) :
    dequantize (quantize c s) s = s * quantize c s := by
  have window := (mul_roundDiv_bounds c.natAbs hs).1
  rw [← natAbs_mul_quantize c hs] at window
  rw [dequantize_eq, mul_comm]
  omega

theorem two_mul_quantize_error_le (c : Int) {s : Nat} (hs : 1 ≤ s) : 2 * (c - s * quantize c s).natAbs ≤ s := by
  have window := mul_roundDiv_bounds c.natAbs hs
  rw [natAbs_sub_mul_quantize c hs]
  omega

/-- A tie goes to the multiple of the larger magnitude. -/
theorem lt_mul_quantize_of_tie {c : Int} {s : Nat} (hs : 1 ≤ s) (tie : 2 * (c - s * quantize c s).natAbs = s) :
    c.natAbs < (s * quantize c s).natAbs := by
  have window := mul_roundDiv_bounds c.natAbs hs
  rw [natAbs_sub_mul_quantize c hs] at tie
  rw [natAbs_mul_quantize c hs]
  omega

theorem natAbs_quantize_le (c : Int) {s : Nat} (hs : 1 ≤ s) : (quantize c s).natAbs ≤ c.natAbs := by
  have small := roundDiv_le c.natAbs hs
  obtain ⟨n, rfl | rfl⟩ := c.eq_nat_or_neg <;> simpa [hs] using small

/-- Half of an even scale rounds up to one step. -/
theorem quantize_half {s : Nat} (hs : 1 ≤ s) (even : s % 2 = 0) : quantize (s / 2 : Nat) s = 1 := by
  have halves : s / 2 + s / 2 = s := by omega
  rw [quantize_natCast _ hs, roundDiv, halves, Nat.div_self hs, Nat.cast_one]

/-- Settles O45: the error of the exact product is at most s / 2, and within the bound the product is exact
(`dequantize_quantize`). -/
theorem quantizeRoundsAndBoundsTheError : Obligations.QuantizeRoundsAndBoundsTheError := by
  intro c s hs
  refine ⟨two_mul_quantize_error_le c hs, lt_mul_quantize_of_tie hs, natAbs_quantize_le c hs, fun h => ?_, ?_⟩
  · have error := two_mul_quantize_error_le c hs
    rw [dequantize_quantize hs h]
    omega
  · rintro even fits rfl
    rw [dequantize_quantize hs (by omega), quantize_half hs even, mul_one]
    omega

/-! QUANT and DEQUANT. -/

/-- The words of the two commands (30_encoding.md R301, R307). -/
theorem encode_quantizer : ∀ sel : BitVec 4,
    encode (.quant sel) = BitVec.ofNat 32 (0x51 + 256 * sel.toNat)
      ∧ encode (.dequant sel) = BitVec.ofNat 32 (0x52 + 256 * sel.toNat) := by decide

/-- What a command leaves that maps a function over its block, when the function keeps 32-bit values in 32 bits. -/
theorem exec_mapsBlock {i : Instr} {sel : BitVec 4} {s : State} {f : Int → Int} (hsel : sel.toNat ≤ 5)
    (run : runInstr i s = withBlock sel s fun k => .ok (s.setCoef k ((s.coefBlock k).map f)))
    (fits : ∀ x, -2147483648 ≤ x ∧ x ≤ 2147483647 → -2147483648 ≤ f x ∧ f x ≤ 2147483647) :
    ∃ t, exec i s = .next t ∧ t = { s with mem := t.mem, running := none, done := true }
      ∧ (∀ r c, coefAt t sel.toNat r c = f (coefAt s sel.toNat r c)) ∧ SameOutsideBlock s t sel.toNat := by
  have mapped := exec_setsBlock (b := fun k => (s.coefBlock k).map f) hsel run fun j => by
    simpa using fits _ (coefBlock_range s sel.toNat j)
  simpa only [blockAt_map, ← coefAt_eq_blockAt] using mapped

/-- Settles O44: each command maps its function over the block (`exec_mapsBlock`), and both functions keep 32-bit values
in 32 bits. -/
theorem quantAndDequantUseTheScale : Obligations.QuantAndDequantUseTheScale := by
  intro s sel hsel
  obtain ⟨quantWord, dequantWord⟩ := encode_quantizer sel
  have quant := exec_mapsBlock (i := .quant sel) (f := fun c => quantize c (qpToScale s.argQp)) hsel rfl
    fun c hc => quantize_range c (qpToScale_pos _) hc
  have dequant := exec_mapsBlock (i := .dequant sel) (f := fun q => dequantize q (qpToScale s.argQp)) hsel rfl
    fun _ _ => sat32_range _
  simp only [dequantize_eq] at dequant
  exact ⟨quantWord, dequantWord, quant, dequant⟩

end Sys2Proof.Machine
end

section
/-! SUPPORT. What the entropy coder emits (45_entropy.md R652 to R656): the bits of its fields, the pairs of a block with
the end-of-block pair apart (`levelPairs`), and the least and the greatest number of bits of a block. -/

namespace Sys2Proof.Machine

/-! The bits of a field. -/

/-- The bits of one field, in stream order (46_bitstream.md R702). -/
def Field.bits (f : Field) : List Bool := (List.range f.width).map fun i => f.value.getLsbD i

@[simp] theorem length_field_bits (f : Field) : f.bits.length = f.width := by simp [Field.bits]

theorem fieldBits_eq_flatten (fs : List Field) : fieldBits fs = (fs.map Field.bits).flatten := rfl

theorem bits_nat32 (v : Nat) {n : Nat} (hn : n ≤ 32) : Field.bits { value := nat32 v, width := n } = lsbFirst v n := by
  refine List.map_congr_left fun i hi => ?_
  have : i < n := List.mem_range.1 hi
  rw [nat32, BitVec.getLsbD_ofNat, decide_eq_true (by omega), Bool.true_and]

/-- A component of a vector is the low half of its register (R656). -/
theorem bits_low16 (w : Word) :
    Field.bits { value := (low16 w.toInt).setWidth 32, width := 16 } = (List.range 16).map w.getLsbD := by
  have low : low16 w.toInt = w.setWidth 16 := BitVec.signExtend_eq_setWidth_of_le w (by decide)
  refine List.map_congr_left fun i hi => ?_
  have : i < 16 := List.mem_range.1 hi
  simp [low, this, show i < 32 by omega]

/-- The fields of a vector: the low halves of both registers. -/
theorem map_bits_mvFields (s : State) : (mvFields s.argMvx s.argMvy).map Field.bits
    = [(List.range 16).map s.args.mvx.getLsbD, (List.range 16).map s.args.mvy.getLsbD] := by
  simp only [mvFields, List.map_cons, List.map_nil, State.argMvx, State.argMvy, bits_low16]

theorem map_bits_pairFields (r : Nat) (v : Int) : (pairFields r v).map Field.bits = pairChunks r v := by
  have escape : Field.bits { value := 15, width := 4 } = lsbFirst 15 4 := bits_nat32 15 (by decide)
  have sign : Field.bits { value := if v < 0 then 1 else 0, width := 1 } = [decide (v < 0)] := by
    by_cases h : v < 0 <;> simp [Field.bits, h]
  rw [pairFields, List.map_append, List.map_cons, List.map_cons, sign, bits_nat32 _ (by decide), pairChunks]
  by_cases hr : 15 < r
  · rw [runFields, if_pos hr, if_pos hr, List.map_cons, List.map_cons, escape, bits_nat32 _ (by decide)]
    rfl
  · rw [runFields, if_neg hr, if_neg hr, List.map_cons, bits_nat32 _ (by decide)]
    rfl

/-! The pairs of a block. -/

/-- The pairs of the nonzero values of a scanned sequence, after `run` zeros: all pairs but the end-of-block one (R654). -/
def levelPairs : Nat → List Int → List (Nat × Int)
  | _, [] => []
  | run, z :: zs => if z = 0 then levelPairs (run + 1) zs else (run, z) :: levelPairs 0 zs

/-- The fields of a list of pairs. -/
def pairsFields (ps : List (Nat × Int)) : List Field := ps.flatMap fun p => pairFields p.1 p.2

@[simp] theorem pairsFields_cons (p : Nat × Int) (ps : List (Nat × Int)) :
    pairsFields (p :: ps) = pairFields p.1 p.2 ++ pairsFields ps := rfl

theorem scanFields_eq (run : Nat) (zs : List Int) :
    scanFields run zs = pairsFields (levelPairs run zs) ++ pairFields (trailingRun run zs) 0 := by
  induction zs generalizing run with
  | nil => rfl
  | cons z zs ih => by_cases hz : z = 0 <;> simp [scanFields, levelPairs, trailingRun, hz, ih]

theorem runsBefore_eq (run : Nat) (zs : List Int) : runsBefore run zs = (levelPairs run zs).map Prod.fst := by
  induction zs generalizing run with
  | nil => rfl
  | cons z zs ih => by_cases hz : z = 0 <;> simp [runsBefore, levelPairs, hz, ih]

theorem length_levelPairs_le (run : Nat) (zs : List Int) : (levelPairs run zs).length ≤ zs.length := by
  induction zs generalizing run with
  | nil => simp [levelPairs]
  | cons z zs ih =>
    have := ih (run + 1)
    have := ih 0
    by_cases hz : z = 0 <;> simp [levelPairs, hz] <;> omega

theorem trailingRun_le (run : Nat) (zs : List Int) : trailingRun run zs ≤ run + zs.length := by
  induction zs generalizing run with
  | nil => simp [trailingRun]
  | cons z zs ih =>
    have := ih (run + 1)
    have := ih 0
    by_cases hz : z = 0 <;> simp [trailingRun, hz] <;> omega

/-- The pairs of `blockPairs` from positions: the values of `z` at `nz`, each with the number of positions between it and
the end of the one before (or `start`), and the end-of-block pair with the positions left up to `stop`. -/
def gapPairs (z : Fin 64 → Int) (start stop : Nat) : List (Fin 64) → List (Nat × Int)
  | [] => [(stop - start, 0)]
  | i :: nz => (i.val - start, z i) :: gapPairs z (i.val + 1) stop nz

theorem gapPairs_eq (z : Fin 64 → Int) (start stop : Nat) (nz : List (Fin 64)) :
    ((((start :: nz.map fun i => i.val + 1).zip nz).map fun q => (q.2.val - q.1, z q.2))
      ++ [(stop - (start :: nz.map fun i => i.val + 1).getLastD 0, 0)]) = gapPairs z start stop nz := by
  induction nz generalizing start with
  | nil => rfl
  | cons i nz ih => simpa [gapPairs] using ih (i.val + 1)

/-- Counting zeros along a sequence and subtracting the positions of its nonzero values give the same pairs: positions
`l` in a row, of which the first comes `run` zeros after `start`. -/
theorem levelPairs_eq_gapPairs (z : Fin 64 → Int) (l : List (Fin 64)) (start run : Nat)
    (row : l.map Fin.val = List.range' (start + run) l.length) :
    levelPairs run (l.map z) ++ [(trailingRun run (l.map z), 0)]
      = gapPairs z start (start + run + l.length) (l.filter fun i => decide (z i ≠ 0)) := by
  induction l generalizing start run with
  | nil => simp [levelPairs, trailingRun, gapPairs]
  | cons i l ih =>
    obtain ⟨hi, hl⟩ : i.val = start + run ∧ l.map Fin.val = List.range' (start + run + 1) l.length := by
      simpa [List.range'_succ] using row
    by_cases hz : z i = 0
    · have shifted := ih start (run + 1) hl
      simpa [levelPairs, trailingRun, hz, Nat.add_assoc, Nat.add_comm 1] using shifted
    · have shifted := ih (i.val + 1) 0 (by rw [hl, hi])
      have len : i.val + 1 + l.length = start + run + (l.length + 1) := by omega
      simpa [levelPairs, trailingRun, gapPairs, hz, hi, len, Nat.add_assoc, Nat.add_comm 1] using shifted

theorem blockPairs_eq (z : Fin 64 → Int) : blockPairs z
    = levelPairs 0 ((List.finRange 64).map z) ++ [(trailingRun 0 ((List.finRange 64).map z), 0)] := by
  rw [levelPairs_eq_gapPairs z (List.finRange 64) 0 0 (by decide), ← gapPairs_eq]
  rfl

theorem scan_coefBlock (s : State) (k : Nat) :
    scan s.params.zigzag (s.coefBlock k) = (List.finRange 64).map (scanAt s k) := by
  have each (i : Fin 64) : scanAt s k i = (s.coefBlock k)[s.params.zigzag[i]] := by
    rw [scanAt, coefAt_eq_blockAt]
    simp only [blockAt, Nat.div_add_mod, Fin.getElem_fin]
  apply List.ext_getElem
  · simp [scan]
  · intro n h1 h2
    simp [scan, each]

/-- The fields of a block are the chunks of the statements. -/
theorem map_bits_blockFields (s : State) (k : Nat) :
    (blockFields s.params.zigzag (s.coefBlock k)).map Field.bits = blockChunks s k := by
  rw [blockFields, scanFields_eq, scan_coefBlock, blockChunks, blockPairs_eq]
  simp [pairsFields, List.map_flatMap, map_bits_pairFields]

/-! The number of bits. -/

theorem fieldsWidth_pairFields (r : Nat) (v : Int) : fieldsWidth (pairFields r v) = if 15 < r then 25 else 17 := by
  by_cases hr : 15 < r <;> simp [fieldsWidth, pairFields, runFields, hr]

theorem scanFields_zero (run : Nat) (zs : List Int) : scanFields run (0 :: zs) = scanFields (run + 1) zs := if_pos rfl

theorem scanFields_level (run : Nat) {z : Int} (zs : List Int) (hz : z ≠ 0) :
    scanFields run (z :: zs) = pairFields run z ++ scanFields 0 zs := if_neg hz

/-- At least the end-of-block pair is written; a block of 16 elements or more takes an escape or a second pair. -/
theorem le_fieldsWidth_scanFields (run : Nat) (zs : List Int) : 17 ≤ fieldsWidth (scanFields run zs)
    ∧ (16 ≤ run + zs.length → 25 ≤ fieldsWidth (scanFields run zs)) := by
  induction zs generalizing run with
  | nil =>
    rw [scanFields, fieldsWidth_pairFields]
    simp only [List.length_nil]
    split <;> omega
  | cons z zs ih =>
    by_cases hz : z = 0
    · obtain ⟨least, escape⟩ := ih (run + 1)
      rw [hz, scanFields_zero]
      exact ⟨least, fun h => escape (by simp only [List.length_cons] at h; omega)⟩
    · obtain ⟨least, -⟩ := ih 0
      rw [scanFields_level _ _ hz, fieldsWidth_append, fieldsWidth_pairFields]
      split <;> omega

/-- No element costs more than 17 bits: a pair with the escape stands for 17 elements or more. -/
theorem fieldsWidth_scanFields_le (run : Nat) (zs : List Int) :
    fieldsWidth (scanFields run zs) ≤ 17 * (run + zs.length + 1) := by
  induction zs generalizing run with
  | nil =>
    rw [scanFields, fieldsWidth_pairFields]
    simp only [List.length_nil]
    split <;> omega
  | cons z zs ih =>
    simp only [List.length_cons]
    by_cases hz : z = 0
    · have := ih (run + 1)
      rw [hz, scanFields_zero]
      omega
    · have := ih 0
      rw [scanFields_level _ _ hz, fieldsWidth_append, fieldsWidth_pairFields]
      split <;> omega

@[simp] theorem length_scan (zigzag : Vector (Fin 64) 64) (x : Block) : (scan zigzag x).length = 64 := by simp [scan]

/-- A block costs 25 to 1105 bits (R654, R655). -/
theorem fieldsWidth_blockFields (zigzag : Vector (Fin 64) 64) (x : Block) :
    25 ≤ fieldsWidth (blockFields zigzag x) ∧ fieldsWidth (blockFields zigzag x) ≤ 1105 := by
  have least := (le_fieldsWidth_scanFields 0 (scan zigzag x)).2
  have most := fieldsWidth_scanFields_le 0 (scan zigzag x)
  rw [length_scan] at least most
  exact ⟨least (by decide), most⟩

end Sys2Proof.Machine
end

section
/-! SUPPORT. The commands of the entropy coder (45_entropy.md R655, R657, R658): a command that emits a list of fields to
one stream appends their bits, or stops at the first field that does not fit. -/

namespace Sys2Proof.Machine

theorem State.Inv.streamCap_le {s : State} (hs : s.Inv) : s.params.streamCap ≤ 0x01000000 := by
  have := hs.params
  simp only [Params.wf, Bool.and_eq_true, decide_eq_true_eq] at this
  exact this.2

theorem StreamWrite.sameOutside {s t : State} {st : Stream} {b e : Nat} (h : StreamWrite s t st b e) :
    SameOutsideStreamBits s t st b e := ⟨h.bits, h.bytes⟩

/-- The position of a state that differs from `s` in the position and in memory. -/
theorem bsBits_of_eq {s t : State} {st : Stream} {v : Word} (h : t = { s.setBsBits st v with mem := t.mem }) :
    t.bsBits st = v := by
  rw [h]
  cases st <;> rfl

/-- The bits written since a position (R655). -/
theorem nat32_add_sub (w : Word) (n : Nat) : nat32 (w.toNat + n) - w = nat32 n := by
  simp [nat32, BitVec.ofNat_add]

/-- A command that emits fields to one stream and then writes RES0 with the number of bits. -/
theorem appendsChunks_of_fields {i : Instr} {s : State} {st : Stream} {fs : List Field} (hs : s.Inv)
    (run : runInstr i s = (emitAll st fs s).andThen (withBitsWritten st s)) :
    AppendsChunks i s st (fs.map Field.bits) := by
  have cap := hs.streamCap_le
  have room := hs.streamsFit st
  simp only [AppendsChunks, ← fieldBits_eq_flatten, fieldBits_length]
  constructor
  · intro fit
    obtain ⟨t, emitted, ht, bits, zeros, write⟩ := (emitAll_cases st fs s cap).1 fit
    have counted : t.bsBits st - s.bsBits st = nat32 (fieldsWidth fs) := by
      rw [bsBits_of_eq ht, nat32_add_sub]
    refine ⟨(t.setRes 0 (nat32 (fieldsWidth fs))).complete, ?_, ?_, bits, zeros, write.sameOutside⟩
    · rw [exec_eq, run, emitted, andThen_ok, withBitsWritten, counted, finish_ok]
    · rw [ht]
      cases st <;> rfl
  · intro full
    obtain ⟨pre, f, post, t, parts, fit, stop, emitted, overflow⟩ :=
      (emitAll_cases st fs s cap).2 (by omega) full
    obtain ⟨t', emitted', ht, bits, zeros, write⟩ := (emitAll_cases st pre s cap).1 fit
    obtain rfl : t' = t := Run.ok.inj (emitted'.symm.trans emitted)
    refine ⟨(t'.recordError .overflow i.opcode).complete, pre.map Field.bits, f.bits, post.map Field.bits,
      by rw [parts, List.map_append, List.map_cons], ?_, ?_⟩
    · rw [exec_eq, run, overflow, andThen_error, finish_error]
    · rw [← fieldBits_eq_flatten, fieldBits_length, length_field_bits]
      refine ⟨fit, stop, ?_, bits, zeros, write.sameOutside⟩
      rw [ht]
      cases st <;> rfl

/-- The words of ENC_BLOCK (30_encoding.md R301, R307, R308). -/
theorem encode_encBlock (sel : BitVec 4) (st : Stream) :
    encode (.encBlock sel st) = BitVec.ofNat 32 (0x60 + 256 * sel.toNat + (if st = .stream0 then 0 else 4096)) := by
  cases st <;> revert sel <;> decide

/-- Settles O51: what ENC_BLOCK emits is `blockChunks`, and `fieldsWidth_blockFields` bounds its bits. -/
theorem encBlockAppendsThePairs : Obligations.EncBlockAppendsThePairs := by
  intro s sel st hsel hs
  obtain ⟨least, most⟩ := fieldsWidth_blockFields s.params.zigzag (s.coefBlock sel.toNat)
  have run : runInstr (.encBlock sel st) s
      = (encodeBlock st sel.toNat s).andThen (withBitsWritten st s) := withBlock_legal hsel s _
  have appends := appendsChunks_of_fields hs run
  rw [← fieldBits_length, fieldBits_eq_flatten, map_bits_blockFields] at least most
  rw [map_bits_blockFields] at appends
  exact ⟨encode_encBlock sel st, least, most, appends⟩

/-- Settles O52: the fields of a vector are the low halves of both registers (`map_bits_mvFields`). -/
theorem encMvAppendsBothComponents : Obligations.EncMvAppendsBothComponents := by
  intro s st hs
  have appends := appendsChunks_of_fields (i := .encMv st) hs rfl
  rw [map_bits_mvFields] at appends
  exact ⟨by cases st <;> decide, appends⟩

/-- The fields of a macroblock: the vector's, then those of its blocks. -/
theorem map_bits_mbFields (s : State) : (mbFields s).map Field.bits
    = (if s.args.ftype = 1 then
        [(List.range 16).map s.args.mvx.getLsbD, (List.range 16).map s.args.mvy.getLsbD]
      else [])
      ++ (List.range 6).flatMap fun k => blockChunks s k := by
  rw [mbFields, List.map_append, List.map_flatMap, apply_ite (List.map Field.bits), map_bits_mvFields, List.map_nil]
  simp only [map_bits_blockFields]

/-- Settles O53: ENC_MB emits `mbFields` to the one stream (`map_bits_mbFields`). -/
theorem encMbAppendsVectorAndBlocks : Obligations.EncMbAppendsVectorAndBlocks := by
  intro s st hs
  have appends := appendsChunks_of_fields (i := .encMb st) hs rfl
  rw [map_bits_mbFields] at appends
  exact ⟨by cases st <;> decide, appends⟩

end Sys2Proof.Machine
end

section
/-! SUPPORT. The reference decoder (45_entropy.md R668, R669): what the reader finds where the bits of fields stand, one
round of the decoder per pair of the writer, and the whole block, whose end-of-block run of 15 is read as an escape. -/

namespace Sys2Proof.Machine

/-! The reader. -/

/-- The bits `bits` stand in `buf` from position q on. -/
def BitsAt (buf : List Byte) (q : Nat) (bits : List Bool) : Prop :=
  ∀ i < bits.length, bits[i]? = some (bufBit buf (q + i))

theorem bitsAt_append {buf : List Byte} {q : Nat} {xs ys : List Bool} (h : BitsAt buf q (xs ++ ys)) :
    BitsAt buf q xs ∧ BitsAt buf (q + xs.length) ys := by
  refine ⟨fun i hi => ?_, fun i hi => ?_⟩
  · rw [← h i (by simp only [List.length_append]; omega), List.getElem?_append_left hi]
  · rw [Nat.add_assoc, ← h (xs.length + i) (by simp only [List.length_append]; omega),
      List.getElem?_append_right (by omega), Nat.add_sub_cancel_left]

theorem bitsAt_fieldBits_cons {buf : List Byte} {q : Nat} {f : Field} {fs : List Field}
    (h : BitsAt buf q (fieldBits (f :: fs))) : BitsAt buf q f.bits ∧ BitsAt buf (q + f.width) (fieldBits fs) := by
  have parts := bitsAt_append (xs := f.bits) (ys := fieldBits fs) h
  rwa [length_field_bits] at parts

theorem bitsAt_fieldBits_append {buf : List Byte} {q : Nat} {fs gs : List Field}
    (h : BitsAt buf q (fieldBits (fs ++ gs))) :
    BitsAt buf q (fieldBits fs) ∧ BitsAt buf (q + fieldsWidth fs) (fieldBits gs) := by
  rw [fieldBits_append] at h
  simpa using bitsAt_append h

theorem bufBit_of_bitsAt_field {buf : List Byte} {q : Nat} {f : Field} (h : BitsAt buf q f.bits) {i : Nat}
    (hi : i < f.width) : bufBit buf (q + i) = f.value.getLsbD i := by
  simpa [Field.bits, hi, eq_comm] using h i (by simpa using hi)

theorem bitsValue_eq_mod {buf : List Byte} {q n v : Nat} (h : ∀ i < n, bufBit buf (q + i) = v.testBit i) :
    bitsValue buf q n = v % 2 ^ n := by
  induction n generalizing q v with
  | zero => simp [bitsValue, Nat.mod_one]
  | succ n ih =>
    have first : (bufBit buf q).toNat = v % 2 := by
      rw [show bufBit buf q = v.testBit 0 from h 0 (by omega), Nat.toNat_testBit, pow_zero, Nat.div_one]
    have rest : bitsValue buf (q + 1) n = v / 2 % 2 ^ n := ih fun i hi => by
      rw [Nat.add_assoc, Nat.add_comm 1, h (i + 1) (by omega), Nat.testBit_succ]
    rw [bitsValue, first, rest, Nat.pow_succ', Nat.mod_mul]

theorem bitsValue_eq_zero_iff (buf : List Byte) (q n : Nat) :
    bitsValue buf q n = 0 ↔ ∀ i < n, bufBit buf (q + i) = false := by
  induction n generalizing q with
  | zero => simp [bitsValue]
  | succ n ih =>
    rw [bitsValue, Nat.add_eq_zero_iff, Nat.mul_eq_zero, ih, Nat.forall_lt_succ_left]
    simp [Nat.add_assoc, Nat.add_comm 1]

/-- The reader finds a field's value modulo the power of 2 of its width (46_bitstream.md R715, R717). -/
theorem readBits_field {buf : List Byte} {q : Nat} (f : Field) (h : BitsAt buf q f.bits) :
    readBits { buf := buf, pos := q } f.width
      = (f.value.toNat % 2 ^ f.width, { buf := buf, pos := q + f.width }) := by
  rw [readBits, bitsValue_eq_mod fun i hi => bufBit_of_bitsAt_field h hi]

/-! One pair. -/

/-- A run other than 15 is read as it was written. -/
theorem readRun_runFields {buf : List Byte} {q r : Nat} (hr : r ≠ 15) (bound : r ≤ 64)
    (h : BitsAt buf q (fieldBits (runFields r))) :
    readRun { buf := buf, pos := q } = (r, { buf := buf, pos := q + fieldsWidth (runFields r) }) := by
  by_cases escape : 15 < r
  · rw [runFields, if_pos escape] at h ⊢
    obtain ⟨mark, ext⟩ := bitsAt_fieldBits_cons h
    obtain ⟨ext, -⟩ := bitsAt_fieldBits_cons ext
    have readMark := readBits_field _ mark
    have readExt := readBits_field _ ext
    have value : (nat32 (r - 16)).toNat % 2 ^ 8 = r - 16 := by rw [toNat_nat32 (by omega)]; omega
    simp only [value] at readMark readExt
    simp [readRun, readMark, readExt, fieldsWidth, Nat.add_assoc, show 16 + (r - 16) = r by omega]
  · rw [runFields, if_neg escape] at h ⊢
    obtain ⟨run, -⟩ := bitsAt_fieldBits_cons h
    have read := readBits_field _ run
    have value : (nat32 r).toNat % 2 ^ 4 = r := by rw [toNat_nat32 (by omega)]; omega
    simp only [value] at read
    simp [readRun, read, hr, fieldsWidth]

/-- A run of 15 is read as the escape, with the next 8 bits as its extension (R659). -/
theorem readRun_fifteen {buf : List Byte} {q : Nat} (h : BitsAt buf q (fieldBits (runFields 15))) :
    readRun { buf := buf, pos := q } = (16 + bitsValue buf (q + 4) 8, { buf := buf, pos := q + 12 }) := by
  obtain ⟨run, -⟩ := bitsAt_fieldBits_cons (f := { value := nat32 15, width := 4 }) (fs := []) h
  have read := readBits_field _ run
  simp only [show (nat32 15).toNat % 2 ^ 4 = 15 from rfl] at read
  simp only [readRun, read, if_true]
  rfl

section

variable {zigzag : Vector (Fin 64) 64} {fuel pos : Nat} {out : Block} {buf : List Byte} {q r : Nat}

/-- What the decoder reads of a pair: its run, the magnitude of its level, and its sign. -/
theorem reads_pair {v : Int} (hr : r ≠ 15) (bound : r ≤ 64) (small : v.natAbs ≤ 4095)
    (h : BitsAt buf q (fieldBits (pairFields r v))) : ∃ q1 q2,
    readRun { buf := buf, pos := q } = (r, { buf := buf, pos := q1 })
      ∧ readBits { buf := buf, pos := q1 } 12 = (v.natAbs, { buf := buf, pos := q2 })
      ∧ readBits { buf := buf, pos := q2 } 1
        = (if v < 0 then 1 else 0, { buf := buf, pos := q + fieldsWidth (pairFields r v) }) := by
  obtain ⟨run, rest⟩ := bitsAt_fieldBits_append h
  obtain ⟨level, rest⟩ := bitsAt_fieldBits_cons rest
  obtain ⟨sign, -⟩ := bitsAt_fieldBits_cons rest
  have readLevel := readBits_field _ level
  have readSign := readBits_field _ sign
  have value : (nat32 (v.natAbs % 4096)).toNat % 2 ^ 12 = v.natAbs := by rw [toNat_nat32 (by omega)]; omega
  have bit : (if v < 0 then 1 else 0 : Word).toNat % 2 ^ 1 = if v < 0 then 1 else 0 := by split <;> rfl
  simp only [value] at readLevel
  simp only [bit] at readSign
  refine ⟨_, _, readRun_runFields hr bound run, readLevel, readSign.trans ?_⟩
  simp [pairFields, fieldsWidth, Nat.add_assoc]

/-- A pair with a level: the decoder sets its element and goes on after it. -/
theorem decodePairs_level {v : Int} (hr : r ≠ 15) (small : v.natAbs ≤ 4095) (hv : v ≠ 0) (hpos : pos + r < 64)
    (h : BitsAt buf q (fieldBits (pairFields r v))) :
    decodePairs zigzag (fuel + 1) pos out { buf := buf, pos := q }
      = decodePairs zigzag fuel (pos + r + 1) (out.set (zigzag[pos + r]).val v)
          { buf := buf, pos := q + fieldsWidth (pairFields r v) } := by
  obtain ⟨q1, q2, run, level, sign⟩ := reads_pair hr (by omega) small h
  have value : (if (if v < 0 then 1 else 0) = 1 then -(v.natAbs : Int) else v.natAbs) = v := by
    by_cases neg : v < 0
    · rw [if_pos neg, if_pos rfl]; omega
    · rw [if_neg neg, if_neg (by decide)]; omega
  simp only [decodePairs, run, level, sign, Int.natAbs_eq_zero, hv, if_false, hpos, dif_pos, value]

/-- The end-of-block pair, with a run other than 15. -/
theorem decodePairs_end (hr : r ≠ 15) (bound : r ≤ 64) (h : BitsAt buf q (fieldBits (pairFields r 0))) :
    decodePairs zigzag (fuel + 1) pos out { buf := buf, pos := q }
      = { block := out, status := .ok, reader := { buf := buf, pos := q + fieldsWidth (pairFields r 0) } } := by
  obtain ⟨q1, q2, run, level, sign⟩ := reads_pair hr bound (by decide) h
  simp [decodePairs, run, level, sign]

/-- The end-of-block pair with a run of 15 (R659): the decoder takes 8 bits of its level as an extension, so the level it
reads is 5 zero bits and the 7 bits after the pair. -/
theorem decodePairs_end_fifteen (h : BitsAt buf q (fieldBits (pairFields 15 0))) :
    ((∀ i < 7, bufBit buf (q + 17 + i) = false) → decodePairs zigzag (fuel + 1) pos out { buf := buf, pos := q }
      = { block := out, status := .ok, reader := { buf := buf, pos := q + 25 } })
    ∧ ((∃ i < 7, bufBit buf (q + 17 + i) = true) → 48 ≤ pos →
      (decodePairs zigzag (fuel + 1) pos out { buf := buf, pos := q }).status = .malformed) := by
  obtain ⟨run, rest⟩ := bitsAt_fieldBits_append h
  obtain ⟨level, rest⟩ := bitsAt_fieldBits_cons rest
  obtain ⟨sign, -⟩ := bitsAt_fieldBits_cons rest
  have zeros : ∀ i < 13, bufBit buf (q + 4 + i) = false := by
    intro i hi
    by_cases last : i = 12
    · subst last
      simpa [fieldsWidth, runFields, Nat.add_assoc] using bufBit_of_bitsAt_field sign (i := 0) (by decide)
    · simpa [nat32, fieldsWidth, runFields] using bufBit_of_bitsAt_field level (i := i) (show i < 12 by omega)
  have ext : bitsValue buf (q + 4) 8 = 0 := (bitsValue_eq_zero_iff _ _ _).2 fun i hi => zeros i (by omega)
  have level_zero : bitsValue buf (q + 12) 12 = 0 ↔ ∀ i < 7, bufBit buf (q + 17 + i) = false := by
    rw [bitsValue_eq_zero_iff]
    refine ⟨fun all i hi => ?_, fun all i hi => ?_⟩
    · rw [show q + 17 + i = q + 12 + (i + 5) by omega]
      exact all _ (by omega)
    · by_cases old : i < 5
      · rw [show q + 12 + i = q + 4 + (i + 8) by omega]
        exact zeros _ (by omega)
      · rw [show q + 12 + i = q + 17 + (i - 5) by omega]
        exact all _ (by omega)
  have readsRun := readRun_fifteen run
  rw [ext] at readsRun
  refine ⟨fun all => ?_, fun ⟨i, hi, one⟩ late => ?_⟩
  · simp [decodePairs, readsRun, readBits, level_zero.2 all]
  · have nonzero : bitsValue buf (q + 12) 12 ≠ 0 := fun zero => by simp [level_zero.1 zero i hi] at one
    simp [decodePairs, readsRun, readBits, nonzero, show ¬ pos + 16 < 64 by omega]

end

/-! The whole block. -/

/-- The block `x` up to scan position p, and 0 from there on. -/
def scannedTo (zigzag : Vector (Fin 64) 64) (x : Block) (p : Nat) : Block :=
  Vector.ofFn fun j : Fin 64 => if j ∈ zigzag.toList.take p then x[j] else 0

theorem scannedTo_zero (zigzag : Vector (Fin 64) 64) (x : Block) :
    scannedTo zigzag x 0 = Vector.replicate 64 0 := by
  ext j hj
  simp [scannedTo]

/-- A scan order without a repeat reaches every element. -/
theorem scannedTo_all {zigzag : Vector (Fin 64) 64} (perm : zigzag.toList.Nodup) (x : Block) :
    scannedTo zigzag x 64 = x := by
  have reached (j : Fin 64) : j ∈ zigzag.toList := by
    have card : zigzag.toList.toFinset.card = Fintype.card (Fin 64) := by
      rw [List.toFinset_card_of_nodup perm]; simp
    have := Finset.mem_univ j
    rwa [← Finset.eq_univ_of_card _ card, List.mem_toFinset] at this
  ext j hj
  simp [scannedTo, List.take_of_length_le, reached]

theorem scannedTo_succ (zigzag : Vector (Fin 64) 64) (x : Block) {p : Nat} (hp : p < 64) :
    scannedTo zigzag x (p + 1) = (scannedTo zigzag x p).set (zigzag[p]).val x[zigzag[p]] := by
  ext j hj
  have taken : zigzag.toList.take (p + 1) = zigzag.toList.take p ++ [zigzag[p]] := by
    rw [List.take_succ_eq_append_getElem (by simpa using hp)]; simp
  simp only [scannedTo, Vector.getElem_set, Vector.getElem_ofFn, taken, List.mem_append, List.mem_singleton]
  by_cases here : (zigzag[p]).val = j
  · subst here; simp
  · have : (⟨j, hj⟩ : Fin 64) ≠ zigzag[p] := fun e => here (congrArg Fin.val e).symm
    simp [here, this]

theorem scannedTo_succ_of_zero (zigzag : Vector (Fin 64) 64) (x : Block) {p : Nat} (hp : p < 64)
    (zero : x[zigzag[p]] = 0) : scannedTo zigzag x (p + 1) = scannedTo zigzag x p := by
  have zero : x[(zigzag[p]).val] = 0 := zero
  rw [scannedTo_succ zigzag x hp]
  ext j hj
  rw [Vector.getElem_set]
  split
  · subst j
    simp [scannedTo, zero]
  · rfl

/-- What stands at a scan position, and what follows it. -/
theorem scan_drop_cons {zigzag : Vector (Fin 64) 64} {x : Block} {p : Nat} {z : Int} {zs : List Int}
    (h : (scan zigzag x).drop p = z :: zs) : ∃ hp : p < 64, z = x[zigzag[p]] ∧ (scan zigzag x).drop (p + 1) = zs := by
  have hp : p < 64 := by
    by_contra past
    rw [List.drop_eq_nil_of_le (by rw [length_scan]; omega)] at h
    cases h
  rw [List.drop_eq_getElem_cons (by simpa using hp), List.cons.injEq] at h
  exact ⟨hp, by simpa [scan, eq_comm] using h.1, h.2⟩

/-- The decoder takes one round for each pair with a level, and comes to the end-of-block pair with the block done:
`zs` are the values from scan position `pos + run` on, and the `run` values before it are 0. -/
theorem decodePairs_levelPairs {zigzag : Vector (Fin 64) 64} {x : Block} (small : ∀ i : Fin 64, (x[i]).natAbs ≤ 4095)
    {buf : List Byte} {fuel : Nat} (zs : List Int) (run pos q : Nat) (rest : (scan zigzag x).drop (pos + run) = zs)
    (len : pos + run + zs.length = 64) (runs : 15 ∉ runsBefore run zs)
    (bits : BitsAt buf q (fieldBits (pairsFields (levelPairs run zs)))) :
    decodePairs zigzag ((levelPairs run zs).length + fuel) pos (scannedTo zigzag x (pos + run)) { buf := buf, pos := q }
      = decodePairs zigzag fuel (64 - trailingRun run zs) (scannedTo zigzag x 64)
          { buf := buf, pos := q + fieldsWidth (pairsFields (levelPairs run zs)) } := by
  induction zs generalizing run pos q with
  | nil =>
    have stop : pos + run = 64 := len
    simp [levelPairs, trailingRun, pairsFields, fieldsWidth, stop, show 64 - run = pos by omega]
  | cons z zs ih =>
    obtain ⟨hp, rfl, after⟩ := scan_drop_cons rest
    simp only [List.length_cons] at len
    by_cases hz : x[zigzag[pos + run]] = 0
    · simp only [levelPairs, trailingRun, runsBefore, hz, if_true] at runs bits ⊢
      rw [← scannedTo_succ_of_zero zigzag x hp hz]
      exact ih (run + 1) pos q after (by omega) runs bits
    · simp only [levelPairs, trailingRun, runsBefore, hz, if_false, List.mem_cons, not_or, pairsFields_cons,
        fieldsWidth_append, List.length_cons] at runs bits ⊢
      obtain ⟨pair, bits⟩ := bitsAt_fieldBits_append bits
      rw [Nat.add_right_comm, decodePairs_level (Ne.symm runs.1) (small _) hz hp pair,
        ← scannedTo_succ zigzag x hp, ← Nat.add_assoc q]
      exact ih 0 (pos + run + 1) _ after (by omega) runs.2 bits

/-- The decoder comes to the end-of-block pair of a coded block with the block done. -/
theorem decodeBlock_eq {zigzag : Vector (Fin 64) 64} {x : Block} (perm : zigzag.toList.Nodup)
    (small : ∀ i : Fin 64, (x[i]).natAbs ≤ 4095) (runs : 15 ∉ runsBefore 0 (scan zigzag x)) {buf : List Byte} {q : Nat}
    (bits : BitsAt buf q (fieldBits (blockFields zigzag x))) : ∃ fuel q',
    q + fieldsWidth (blockFields zigzag x) = q' + fieldsWidth (pairFields (trailingRun 0 (scan zigzag x)) 0)
      ∧ BitsAt buf q' (fieldBits (pairFields (trailingRun 0 (scan zigzag x)) 0))
      ∧ decodeBlock zigzag { buf := buf, pos := q }
        = decodePairs zigzag (fuel + 1) (64 - trailingRun 0 (scan zigzag x)) x { buf := buf, pos := q' } := by
  have count := length_levelPairs_le 0 (scan zigzag x)
  rw [length_scan] at count
  rw [blockFields, scanFields_eq] at bits ⊢
  obtain ⟨levels, stop⟩ := bitsAt_fieldBits_append bits
  refine ⟨64 - (levelPairs 0 (scan zigzag x)).length, _, by rw [fieldsWidth_append, Nat.add_assoc], stop, ?_⟩
  have decoded := decodePairs_levelPairs (fuel := 64 - (levelPairs 0 (scan zigzag x)).length + 1) small
    (scan zigzag x) 0 0 q rfl (by simp) runs levels
  rw [scannedTo_all perm, scannedTo_zero, ← Nat.add_assoc, Nat.add_sub_cancel' count] at decoded
  exact decoded

/-- R669, for bits that stand anywhere in a byte sequence: the decoder ends well with the block, after its last bit or, with
an end-of-block run of 15, 8 bits late. -/
theorem decodeBlock_blockFields {zigzag : Vector (Fin 64) 64} {x : Block} (perm : zigzag.toList.Nodup)
    (small : ∀ i : Fin 64, (x[i]).natAbs ≤ 4095) (runs : 15 ∉ runsBefore 0 (scan zigzag x)) {buf : List Byte} {q : Nat}
    (bits : BitsAt buf q (fieldBits (blockFields zigzag x))) :
    (trailingRun 0 (scan zigzag x) ≠ 15 → decodeBlock zigzag { buf := buf, pos := q }
      = { block := x, status := .ok, reader := { buf := buf, pos := q + fieldsWidth (blockFields zigzag x) } })
    ∧ (trailingRun 0 (scan zigzag x) = 15 →
      ((∀ i < 7, bufBit buf (q + fieldsWidth (blockFields zigzag x) + i) = false) →
        decodeBlock zigzag { buf := buf, pos := q }
          = { block := x, status := .ok, reader := { buf := buf, pos := q + fieldsWidth (blockFields zigzag x) + 8 } })
      ∧ ((∃ i < 7, bufBit buf (q + fieldsWidth (blockFields zigzag x) + i) = true) →
        (decodeBlock zigzag { buf := buf, pos := q }).status = .malformed)) := by
  obtain ⟨fuel, q', width, stop, decoded⟩ := decodeBlock_eq perm small runs bits
  rw [width, decoded]
  constructor
  · intro other
    have bound := trailingRun_le 0 (scan zigzag x)
    rw [length_scan] at bound
    exact decodePairs_end other (by omega) stop
  · intro fifteen
    rw [fifteen] at stop ⊢
    obtain ⟨ends, malformed⟩ := decodePairs_end_fifteen (zigzag := zigzag) (fuel := fuel) (pos := 64 - 15) (out := x) stop
    exact ⟨ends, fun one => malformed one (by decide)⟩

/-! The stream. -/

/-- The bits of a stream's bytes are the stream's, and 0 past the last byte. -/
theorem bufBit_streamBytes (s : State) (st : Stream) (p : Nat) :
    bufBit (s.streamBytes st) p = if p < 8 * s.bsBytes st then s.streamBit st p else false := by
  by_cases hp : p / 8 < s.bsBytes st
  · rw [if_pos (by omega)]
    simp [bufBit, State.streamBytes, State.streamBit, hp]
  · rw [if_neg (by omega)]
    simp [bufBit, State.streamBytes, hp]

/-- Fields written into an empty stream and flushed: their bits stand at the start of its bytes, and only zeros follow. -/
theorem emitAll_align_streamBytes {s : State} {st : Stream} {fs : List Field} (hs : s.Inv) (empty : s.bsBits st = 0)
    (fit : fieldsWidth fs ≤ 8 * s.params.streamCap) : ∃ t u, emitAll st fs s = .ok t ∧ align st t = .ok u
      ∧ BitsAt (u.streamBytes st) 0 (fieldBits fs)
      ∧ ∀ p, fieldsWidth fs ≤ p → bufBit (u.streamBytes st) p = false := by
  have cap := hs.streamCap_le
  have start : (s.bsBits st).toNat = 0 := by rw [empty]; rfl
  obtain ⟨t, emitted, ht, bits, -, -⟩ := (emitAll_cases st fs s cap).1 (by omega)
  rw [start, Nat.zero_add] at ht
  have pos : (t.bsBits st).toNat = fieldsWidth fs := by rw [bsBits_of_eq ht, toNat_nat32 (by omega)]
  have params : t.params = s.params := by rw [ht]; cases st <;> rfl
  obtain ⟨u, aligned, hu, zeros, write⟩ := align_ok st t (by rw [pos, params]; exact fit)
  have bytes : u.bsBytes st = (fieldsWidth fs + 7) / 8 := by
    rw [bsBytes_eq, bsBits_of_eq hu, pos, toNat_nat32 (by omega)]
    omega
  refine ⟨t, u, emitted, aligned, fun i hi => ?_, fun p hp => ?_⟩
  · rw [fieldBits_length] at hi
    rw [bits i hi, start, bufBit_streamBytes, bytes, if_pos (by omega), write.bits _ (by omega)]
  · rw [bufBit_streamBytes, bytes]
    split
    · exact zeros p (by omega) (by omega)
    · rfl

/-- Settles O54: `decodeBlock_blockFields` for bits that stand anywhere; a flushed stream holds only zeros after the block,
so there the decoder ends well with either kind of end-of-block run. -/
theorem codedBlockDecodesBack : Obligations.CodedBlockDecodesBack := by
  intro zigzag x perm small runs fs n
  refine ⟨fun buf q bits => decodeBlock_blockFields perm small runs fun i hi => bits i (by simpa using hi), ?_⟩
  intro s st k hs empty hzigzag hblock fit
  obtain ⟨t, u, emitted, aligned, bits, zeros⟩ := emitAll_align_streamBytes (fs := blockFields zigzag x) hs empty fit
  obtain ⟨other, fifteen⟩ := decodeBlock_blockFields perm small runs bits
  refine ⟨t, u, by rw [encodeBlock, hzigzag, hblock]; exact emitted, aligned, ?_⟩
  by_cases run : trailingRun 0 (scan zigzag x) = 15
  · rw [(fifteen run).1 fun i _ => zeros _ (by omega)]
    exact ⟨rfl, rfl⟩
  · rw [other run]
    exact ⟨rfl, rfl⟩

end Sys2Proof.Machine
end

section
/-! SUPPORT. The bitstream writers (46_bitstream.md R702 to R707, R717): the commands that append to one stream, what
the reader finds in a stream of emitted fields, and where a sequence of fields stops. -/

namespace Sys2Proof.Machine

/-! The reader (R717). -/

/-- Where the bits of fields stand in a row, the reader finds their values in order. -/
theorem readSeq_fields {buf : List Byte} {q : Nat} {fs : List Field} (h : BitsAt buf q (fieldBits fs)) :
    readSeq { buf := buf, pos := q } (fs.map fun f => f.width) = fs.map fun f => f.value.toNat % 2 ^ f.width := by
  induction fs generalizing q with
  | nil => rfl
  | cons f fs ih =>
    obtain ⟨first, rest⟩ := bitsAt_fieldBits_cons h
    rw [List.map_cons, List.map_cons, readSeq, readBits_field f first, ih rest]

/-- Emitted fields that fit move the position by their width, and their bits stand before it (R702). -/
theorem position_and_bits_of_emitAll {s t : State} {st : Stream} {fs : List Field} (hs : s.Inv)
    (fit : ((s.bsBits st).toNat + fieldsWidth fs + 7) / 8 ≤ s.params.streamCap) (emitted : emitAll st fs s = .ok t) :
    (t.bsBits st).toNat = (s.bsBits st).toNat + fieldsWidth fs
      ∧ ∀ j < fieldsWidth fs, (fieldBits fs)[j]? = some (t.streamBit st ((s.bsBits st).toNat + j)) := by
  have cap := hs.streamCap_le
  obtain ⟨t', emitted', ht, bits, -, -⟩ := (emitAll_cases st fs s cap).1 fit
  obtain rfl : t' = t := Run.ok.inj (emitted'.symm.trans emitted)
  exact ⟨by rw [bsBits_of_eq ht, toNat_nat32 (by omega)], bits⟩

/-- Fields written into an empty stream stand at the start of its bytes, without a flush. -/
theorem bitsAt_streamBytes_of_emitAll {s t : State} {st : Stream} {fs : List Field} (hs : s.Inv)
    (empty : s.bsBits st = 0) (fit : fieldsWidth fs ≤ 8 * s.params.streamCap) (emitted : emitAll st fs s = .ok t) :
    BitsAt (t.streamBytes st) 0 (fieldBits fs) := by
  have start : (s.bsBits st).toNat = 0 := by rw [empty]; rfl
  obtain ⟨pos, bits⟩ := position_and_bits_of_emitAll hs (by omega) emitted
  intro i hi
  rw [fieldBits_length] at hi
  rw [bits i hi, start, bufBit_streamBytes, bsBytes_eq, pos, if_pos (by omega)]

/-- Settles O49: before and after the flush the fields stand at the start of the stream (`readSeq_fields`). -/
theorem writtenFieldsReadBack : Obligations.WrittenFieldsReadBack := by
  intro s st fs hs empty _ fit
  obtain ⟨t, u, emitted, aligned, flushed, -⟩ := emitAll_align_streamBytes hs empty fit
  have unflushed := bitsAt_streamBytes_of_emitAll hs empty fit emitted
  exact ⟨t, u, emitted, aligned, readSeq_fields unflushed, readSeq_fields flushed⟩

/-! The end of a command that has written to one stream. -/

section

variable {s t : State} {st : Stream} {v : Word}

theorem complete_of_write (h : t = { s.setBsBits st v with mem := t.mem }) :
    t.complete = { s.setBsBits st v with mem := t.complete.mem, running := none, done := true } := by
  rw [h]
  cases st <;> rfl

theorem complete_recordError_of_write (e : ErrorCode) (opc : BitVec 8)
    (h : t = { s.setBsBits st v with mem := t.mem }) :
    (t.recordError e opc).complete = { s.setBsBits st v with
      mem := (t.recordError e opc).complete.mem, running := none, done := true, err := true, errCode := e.code,
      errOpc := opc } := by
  rw [h]
  cases st <;> rfl

theorem params_of_write (h : t = { s.setBsBits st v with mem := t.mem }) : t.params = s.params := by
  rw [h]
  cases st <;> rfl

end

/-! BS_WRITE_BITS (R705). -/

theorem runBsWriteBits_badArg (st : Stream) {s : State} (h : s.args.nbits.toNat < 1 ∨ 32 < s.args.nbits.toNat) :
    runBsWriteBits st s = .error s .badArg := if_pos h

theorem runBsWriteBits_legal (st : Stream) {s : State} (least : 1 ≤ s.args.nbits.toNat)
    (most : s.args.nbits.toNat ≤ 32) :
    runBsWriteBits st s = emit st { value := s.args.value, width := s.args.nbits.toNat } s := if_neg (by omega)

/-- Settles O46: a legal width makes the command one `emit` (`emit_cases`). -/
theorem bsWriteBitsAppendsTheField : Obligations.BsWriteBitsAppendsTheField := by
  intro s st
  refine ⟨by cases st <;> decide, fun illegal => ?_, fun least most full => ?_, fun least most fit => ?_⟩
  · rw [exec_eq, runInstr, runBsWriteBits_badArg st illegal]
    rfl
  · rcases emit_cases st { value := s.args.value, width := s.args.nbits.toNat } s with ⟨-, overflow⟩ | ⟨fit, -⟩
    · rw [exec_eq, runInstr, runBsWriteBits_legal st least most, overflow]
      rfl
    · exact absurd full (Nat.not_lt.2 fit)
  · rcases emit_cases st { value := s.args.value, width := s.args.nbits.toNat } s with
      ⟨full, -⟩ | ⟨-, t, emitted, ht, bits, zeros, write⟩
    · exact absurd full (Nat.not_lt.2 fit)
    · exact ⟨t.complete, by rw [exec_eq, runInstr, runBsWriteBits_legal st least most, emitted, finish_ok],
        complete_of_write ht, bits, zeros, write.sameOutside⟩

/-! BS_WRITE_BYTE (R706). -/

/-- A byte of a stream is the one its eight bits spell. -/
theorem readByte_eq_of_streamBits {s : State} {st : Stream} {k : Nat} {x : Byte}
    (h : ∀ i < 8, s.streamBit st (8 * k + i) = x.getLsbD i) : s.readByte (streamBase st + k) = x := by
  refine BitVec.eq_of_getLsbD_eq fun i hi => ?_
  rw [← h i hi, State.streamBit, show (8 * k + i) / 8 = k by omega, show (8 * k + i) % 8 = i by omega]

/-- Settles O47: after the alignment (`align_ok`) the byte is one `emit` at a byte boundary (`emit_cases`). -/
theorem bsWriteByteAlignsFirst : Obligations.BsWriteByteAlignsFirst := by
  intro s st hs
  refine ⟨by cases st <;> decide, ?_⟩
  intro b k
  have cap := hs.streamCap_le
  have room : b ≤ 8 * s.params.streamCap := hs.streamsFit st
  have step : b ≤ 8 * k := by omega
  obtain ⟨t, aligned, ht, zeros, pad⟩ := align_ok st s room
  have pos : (t.bsBits st).toNat = 8 * k := by rw [bsBits_of_eq ht, toNat_nat32 (by omega)]
  have run : exec (.bsWriteByte st) s = Run.finish 0x72
      (emit st { value := (s.args.value.extractLsb' 0 8).setWidth 32, width := 8 } t) := by
    rw [exec_eq, runInstr, runBsWriteByte, aligned, andThen_ok]
    rfl
  have byte := emit_cases st { value := (s.args.value.extractLsb' 0 8).setWidth 32, width := 8 } t
  simp only [pos, params_of_write ht] at byte
  rcases byte with ⟨full, overflow⟩ | ⟨fit, u, emitted, hu, bits, -, write⟩
  · exact ⟨fun fit => by omega, fun _ => ⟨(t.recordError .overflow 0x72).complete,
      by rw [run, overflow, finish_error], complete_recordError_of_write .overflow 0x72 ht, zeros, pad.sameOutside⟩⟩
  · refine ⟨fun _ => ?_, fun full => by omega⟩
    have hu' : u = { s.setBsBits st (nat32 (8 * k + 8)) with mem := u.mem } := by
      rw [hu, ht]
      cases st <;> rfl
    refine ⟨u.complete, by rw [run, emitted, finish_ok], complete_of_write hu', ?_, fun p hp hq => ?_,
      (pad.trans write step (by omega)).sameOutside⟩
    · refine readByte_eq_of_streamBits fun i hi => ?_
      rw [complete_streamBit, bits i hi]
      simp [hi, show i < 32 by omega]
    · rw [complete_streamBit, write.bits p (.inl hq)]
      exact zeros p hp hq

/-! BS_FLUSH and BS_CLEAR (R703, R704, R707). -/

/-- Settles O48: BS_FLUSH is the alignment (`align_ok`), BS_CLEAR writes the position alone. -/
theorem bsFlushPadsAndBsClearForgets : Obligations.BsFlushPadsAndBsClearForgets := by
  intro s st
  refine ⟨by cases st <;> decide, by cases st <;> decide, rfl, fun hs => ?_⟩
  obtain ⟨t, aligned, ht, zeros, write⟩ := align_ok st s (hs.streamsFit st)
  exact ⟨t.complete, by rw [exec_eq, runInstr, runBsFlush, aligned, finish_ok], complete_of_write ht, zeros,
    write.sameOutside⟩

/-! A sequence of fields that does not fit (R702, 60_exceptions.md R906). -/

/-- Settles O50: the fields before the failing one fit, so they move the position by their width (`emitAll_cases`). -/
theorem overflowKeepsEarlierFields : Obligations.OverflowKeepsEarlierFields := by
  intro s st fs hs full
  have room := hs.streamsFit st
  obtain ⟨pre, f, post, t, parts, fit, stop, emitted, overflow⟩ :=
    (emitAll_cases st fs s hs.streamCap_le).2 (by omega) full
  obtain ⟨pos, -⟩ := position_and_bits_of_emitAll hs fit emitted
  exact ⟨pre, f, post, t, parts, emitted, overflow, pos, by rw [pos]; exact stop⟩

end Sys2Proof.Machine
end

section
/-! SUPPORT. Rate control (47_rate_control.md): the cadence of the frame types, the thresholds and the clamp of the QP
update, and what RC_FRAME_TYPE and RC_CHOOSE_QP leave. -/

namespace Sys2Proof.Machine

/-! The frame type (R750, R751). -/

theorem frameType_of_cadence {f g : Nat} (h : f = 0 ∨ (0 < g ∧ f % g = 0)) : frameType f g = .i := if_pos h

theorem frameType_of_not_cadence {f g : Nat} (h : ¬ (f = 0 ∨ (0 < g ∧ f % g = 0))) : frameType f g = .p := if_neg h

theorem exec_rcFrameType (s : State) : exec .rcFrameType s =
    .next (s.setRes 0 ((frameType s.args.frameId.toNat s.cfg.gop.toNat).code.setWidth 32)).complete := by
  rw [exec_eq, runInstr, runRcFrameType, finish_ok]

/-- Settles O55: on the cadence the type is I, coded 0, and off it P, coded 1. -/
theorem rcFrameTypeFollowsTheGop : Obligations.RcFrameTypeFollowsTheGop := by
  refine ⟨rfl, fun s => ⟨fun onCadence => ?_, fun offCadence => ?_⟩⟩
  · rw [exec_rcFrameType, frameType_of_cadence onCadence]
    rfl
  · rw [exec_rcFrameType, frameType_of_not_cadence offCadence]
    rfl

/-! The QP function (R753, R754). -/

theorem overTarget_iff (fps kbps b : Nat) : overTarget fps kbps b = true ↔ 5 * (fps : Int) * b > 6000 * kbps := by
  rw [overTarget, decide_eq_true_iff]
  norm_cast

theorem underTarget_iff (fps kbps b : Nat) : underTarget fps kbps b = true ↔ 5 * (fps : Int) * b < 4000 * kbps := by
  rw [underTarget, decide_eq_true_iff]
  norm_cast

/-- The QP before the clamp, with the thresholds on integers. -/
theorem nextQp_eq (fps kbps q b : Nat) : nextQp fps kbps q b =
    if 5 * (fps : Int) * b > 6000 * kbps then (q : Int) + 2
    else if 5 * (fps : Int) * b < 4000 * kbps then (q : Int) - 1 else q := by
  simp only [nextQp, overTarget_iff, underTarget_iff]

theorem clampInt_nonneg {lo hi : Int} (v : Int) (hlo : 0 ≤ lo) (hhi : 0 ≤ hi) : 0 ≤ clampInt v lo hi :=
  le_min (hlo.trans (le_max_right v lo)) hhi

theorem clampInt_le (v lo hi : Int) : clampInt v lo hi ≤ hi := min_le_right _ _

theorem toNat_ofInt_of_byte {v : Int} (least : 0 ≤ v) (most : v < 256) : ((BitVec.ofInt 8 v).toNat : Int) = v := by
  rw [BitVec.toNat_ofInt]
  omega

/-- Both bounds are bytes, so the clamped QP fits its register, whichever bound is the greater (R755). -/
theorem toNat_chooseQp (cfg : CfgRegs) (q : BitVec 8) (b : Nat) : ((chooseQp cfg q b).toNat : Int) =
    clampInt (nextQp cfg.fps.toNat cfg.targetKbps.toNat q.toNat b) cfg.qpMin.toNat cfg.qpMax.toNat :=
  toNat_ofInt_of_byte (clampInt_nonneg _ (Int.natCast_nonneg _) (Int.natCast_nonneg _))
    ((clampInt_le _ _ _).trans_lt (by exact_mod_cast cfg.qpMax.isLt))

/-! RC_CHOOSE_QP (R755). -/

theorem exec_rcChooseQp (s : State) {q : BitVec 8} (h : chooseQp s.cfg s.rc.qp s.args.bitsUsed.toNat = q) :
    exec .rcChooseQp s = .next { s with
      running := none, done := true,
      rc := { qp := q, lastBits := s.args.bitsUsed, lastFrameId := s.args.frameId },
      res := s.res.set 0 (nat32 q.toNat) } := by
  rw [exec_eq, runInstr, runRcChooseQp, h, ← BitVec.ofNat_toNat, finish_ok]
  rfl

/-- Settles O56: the new QP is `chooseQp`, the clamp of `nextQp` on integers (`toNat_chooseQp`, `nextQp_eq`). -/
theorem rcChooseQpAdaptsAndClamps : Obligations.RcChooseQpAdaptsAndClamps := by
  refine ⟨rfl, fun s => ⟨chooseQp s.cfg s.rc.qp s.args.bitsUsed.toNat, ?_, exec_rcChooseQp s rfl⟩⟩
  rw [toNat_chooseQp, nextQp_eq, clampInt]

end Sys2Proof.Machine
end

section
/-! SUPPORT. What every command does at its end (60_exceptions.md R902 to R908): a command whose selector is out of its row's
range, or that finds no geometry, stops at once; any other raises only the errors of its row. Every step goes on. -/

namespace Sys2Proof.Machine

/-! Refusals. -/

theorem withPlane_illegal {sel : BitVec 4} (h : selIsPlane sel = false) (s : State) (f : Plane → Run) :
    withPlane sel s f = .error s .illegalCmd := by
  rcases withPlane_cases sel s f with ⟨-, -, legal, -⟩ | ⟨-, -, e⟩
  · rw [h] at legal
    cases legal
  · exact e

theorem withBlock_illegal {sel : BitVec 4} (h : selIsBlock sel = false) (s : State) (f : Nat → Run) :
    withBlock sel s f = .error s .illegalCmd := by
  rcases withBlock_cases sel s f with ⟨-, legal, -⟩ | ⟨-, -, e⟩
  · rw [h] at legal
    cases legal
  · exact e

theorem withPlane_legal {sel : BitVec 4} (h : selIsPlane sel = true) (s : State) (f : Plane → Run) :
    ∃ p, withPlane sel s f = f p := by
  rcases withPlane_cases sel s f with ⟨p, -, -, e⟩ | ⟨-, illegal, -⟩
  · exact ⟨p, e⟩
  · rw [h] at illegal
    cases illegal

theorem selIsBlock_iff (sel : BitVec 4) : selIsBlock sel = true ↔ sel.toNat ≤ 5 := decide_eq_true_iff

/-- A command whose selector is out of range raises ILLEGAL_CMD before anything else (log entry 10). -/
theorem runInstr_illFormed {i : Instr} (h : i.wf = false) (s : State) : runInstr i s = .error s .illegalCmd := by
  cases i with
  | mbView sel | loadSrc sel | mcBlock sel => exact withPlane_illegal h s _
  | loadBlk sel | zeroBlk sel | fdct8 sel | idct8 sel | quant sel | dequant sel | encBlock sel st =>
    exact withBlock_illegal h s _
  | _ => cases h

/-- A command that needs a geometry and finds none raises NO_GEOMETRY before anything else (60_exceptions.md R901). -/
theorem runInstr_noGeometry {i : Instr} (hwf : i.wf = true) (needs : needsGeometry i = true) {s : State}
    (hv : s.geomValid = false) : runInstr i s = .error s .noGeometry := by
  cases i with
  | mbView sel | loadSrc sel | mcBlock sel =>
    obtain ⟨p, e⟩ := withPlane_legal hwf s _
    exact e.trans (withGeometry_missing hv _)
  | storeRef | meFull | meDiamond | mcFrame | residual | encodeFrame => exact withGeometry_missing hv _
  | _ => cases needs

/-- Settles O8: an ill-formed command stops at its selector, any other at the check for a geometry. -/
theorem refusedCommandsChangeOnlyTheRecord : Obligations.RefusedCommandsChangeOnlyTheRecord := by
  refine fun i s => ⟨fun illFormed => ?_, fun hwf needs hv => ?_⟩
  · rw [exec_eq, runInstr_illFormed illFormed, finish_error]
    rfl
  · rw [exec_eq, runInstr_noGeometry hwf needs hv, finish_error]
    rfl

/-! The errors of each command. -/

/-- Every error of the run has its code in the list. -/
def RaisesOnly (codes : List (BitVec 8)) (r : Run) : Prop := ∀ t e, r = .error t e → e.code ∈ codes

theorem RaisesOnly.of_ok (codes : List (BitVec 8)) (t : State) : RaisesOnly codes (.ok t) := fun _ _ h => by cases h

theorem RaisesOnly.of_error {codes : List (BitVec 8)} (s : State) {e : ErrorCode} (h : e.code ∈ codes) :
    RaisesOnly codes (.error s e) := fun _ _ eq => by
  cases eq
  exact h

theorem RaisesOnly.andThen {codes : List (BitVec 8)} {r : Run} {f : State → Run} (hr : RaisesOnly codes r)
    (hf : ∀ t, RaisesOnly codes (f t)) : RaisesOnly codes (r.andThen f) := by
  rcases andThen_cases r f with ⟨s, -, e⟩ | ⟨s, e', hs, e⟩ <;> rw [e]
  · exact hf s
  · exact .of_error s (hr s e' hs)

theorem RaisesOnly.forEach {α : Type} {codes : List (BitVec 8)} {f : α → State → Run}
    (hf : ∀ x t, RaisesOnly codes (f x t)) (xs : List α) (s : State) : RaisesOnly codes (Run.forEach f xs s) :=
  fun u e => forEach_error (P := fun e => e.code ∈ codes) (fun x t u e => hf x t u e) xs s u e

theorem RaisesOnly.withGeometry {codes : List (BitVec 8)} (s : State) {r : Run} (h4 : 4 ∈ codes)
    (hr : RaisesOnly codes r) : RaisesOnly codes (withGeometry s r) := by
  rcases withGeometry_cases s r with ⟨-, e⟩ | ⟨-, e⟩ <;> rw [e]
  · exact hr
  · exact .of_error s h4

theorem RaisesOnly.withPlane {codes : List (BitVec 8)} {sel : BitVec 4} (hsel : selIsPlane sel = true) (s : State)
    {f : Plane → Run} (hf : ∀ p, RaisesOnly codes (f p)) : RaisesOnly codes (withPlane sel s f) := by
  obtain ⟨p, e⟩ := withPlane_legal hsel s f
  rw [e]
  exact hf p

theorem RaisesOnly.withBlock {codes : List (BitVec 8)} {sel : BitVec 4} (hsel : selIsBlock sel = true) (s : State)
    {f : Nat → Run} (hf : ∀ k, RaisesOnly codes (f k)) : RaisesOnly codes (withBlock sel s f) := by
  rw [withBlock_legal ((selIsBlock_iff sel).1 hsel)]
  exact hf _

section

variable {codes : List (BitVec 8)} (h7 : 7 ∈ codes)
include h7

theorem emit_raisesOnly (st : Stream) (f : Field) (s : State) : RaisesOnly codes (emit st f s) := by
  rcases emit_cases st f s with ⟨-, e⟩ | ⟨-, t, e, -⟩ <;> rw [e]
  · exact .of_error s h7
  · exact .of_ok codes t

theorem emitAll_raisesOnly (st : Stream) (fs : List Field) (s : State) : RaisesOnly codes (emitAll st fs s) :=
  .forEach (emit_raisesOnly h7 st) fs s

/-- A command that emits fields and counts them. -/
theorem emitCounted_raisesOnly (st : Stream) (fs : List Field) (s : State) :
    RaisesOnly codes ((emitAll st fs s).andThen (withBitsWritten st s)) :=
  (emitAll_raisesOnly h7 st fs s).andThen fun _ => .of_ok codes _

theorem align_raisesOnly (st : Stream) (s : State) : RaisesOnly codes (align st s) := by
  unfold align
  simp only
  split
  · exact .of_ok codes s
  · exact emit_raisesOnly h7 st _ s

theorem codeStagedBlocks_raisesOnly (scale : Nat) (ks : List Nat) (s : State) :
    RaisesOnly codes (Run.forEach (codeStagedBlock scale) ks s) :=
  .forEach (fun _ _ => emitAll_raisesOnly h7 _ _ _) ks s

theorem encodePredictedMb_raisesOnly (diamond : Bool) (scale range : Nat) (mb : Nat × Nat) (s : State) :
    RaisesOnly codes (encodePredictedMb diamond scale range mb s) :=
  (emitAll_raisesOnly h7 _ _ _).andThen fun _ => (codeStagedBlocks_raisesOnly h7 scale _ _).andThen fun _ =>
    .forEach (fun _ _ => emitAll_raisesOnly h7 _ _ _) _ _

theorem encodeMbs_raisesOnly (t : FrameType) (diamond : Bool) (scale range : Nat) (s : State) :
    RaisesOnly codes (encodeMbs t diamond scale range s) := by
  cases t with
  | i => exact .forEach (fun _ _ => codeStagedBlocks_raisesOnly h7 scale _ _) _ _
  | p => exact .forEach (encodePredictedMb_raisesOnly h7 diamond scale range) _ _

theorem encodeFrameBody_raisesOnly (t : FrameType) (s : State) : RaisesOnly codes (encodeFrameBody t s) :=
  (((encodeMbs_raisesOnly h7 t _ _ _ _).andThen (align_raisesOnly h7 .stream0)).andThen
    (align_raisesOnly h7 .stream1)).andThen fun _ => .of_ok codes _

end

/-- The errors of R902's rows. BS_FLUSH has none, since padding to a byte stays within the capacity (`align_ok`). -/
theorem runInstr_raisesOnly {i : Instr} (hwf : i.wf = true) {s : State} (hs : s.Inv) :
    RaisesOnly (errorsOf i) (runInstr i s) := by
  have h4 : (4 : BitVec 8) ∈ [(4 : BitVec 8)] := by decide
  have h7 : (7 : BitVec 8) ∈ [(7 : BitVec 8)] := by decide
  cases i with
  | mbView sel | loadSrc sel | mcBlock sel => exact .withPlane hwf s fun p => .withGeometry s h4 (.of_ok _ _)
  | storeRef | meFull | meDiamond | mcFrame | residual => exact .withGeometry s h4 (.of_ok _ _)
  | loadBlk sel | zeroBlk sel | fdct8 sel | idct8 sel | quant sel | dequant sel =>
    exact .withBlock hwf s fun k => .of_ok _ _
  | nop | fdct16 | idct16 | qpScale | bsClear st | rcFrameType | rcChooseQp => exact .of_ok _ _
  | encBlock sel st => exact .withBlock hwf s fun _ => emitCounted_raisesOnly h7 st _ s
  | encMv st | encMb st => exact emitCounted_raisesOnly h7 st _ s
  | bsWriteByte st => exact (align_raisesOnly h7 st s).andThen (emit_raisesOnly h7 st _)
  | bsFlush st =>
    obtain ⟨t, aligned, -⟩ := align_ok st s (hs.streamsFit st)
    intro u e h
    cases aligned.symm.trans h
  | init =>
    show RaisesOnly _ (runInit s)
    unfold runInit
    split
    · exact .of_ok _ _
    · exact .of_error _ (by decide)
  | bsWriteBits st =>
    show RaisesOnly _ (runBsWriteBits st s)
    unfold runBsWriteBits
    simp only
    split
    · exact .of_error s (List.mem_cons_self (a := (2 : BitVec 8)))
    · exact emit_raisesOnly (codes := [2, 7]) (by decide) st _ s
  | encodeFrame =>
    refine .withGeometry s (by decide) ?_
    split
    · exact .of_error _ (by decide)
    · exact encodeFrameBody_raisesOnly (by decide) _ s

/-- Settles O7: a command is a run that keeps the control fields (`exec_cases`) and raises only the errors of its row. -/
theorem everyCommandCompletes : Obligations.EveryCommandCompletes := by
  intro i s
  rcases exec_cases i s with ⟨t, -, same, h⟩ | ⟨t, e, raised, same, h⟩
  · exact ⟨t.complete, h, rfl, rfl, same.ctrl, same.lastCmd, same.cfg, same.args, same.params, same.rst, same.epoch,
      same.schedule, same.responses, .inl ⟨same.err, same.errCode, same.errOpc⟩⟩
  · refine ⟨(t.recordError e i.opcode).complete, h, rfl, rfl, same.ctrl, same.lastCmd, same.cfg, same.args, same.params,
      same.rst, same.epoch, same.schedule, same.responses, .inr ⟨rfl, rfl, fun hwf hs => ?_, fun illFormed => ?_⟩⟩
    · exact runInstr_raisesOnly hwf hs t e raised
    · cases (runInstr_illFormed illFormed s).symm.trans raised
      rfl

/-! Runs. -/

/-- No step stops the core: every command completes, every access is answered. -/
theorem step_goes_on (s : State) : ∃ t, step s = .next t := by
  have turn (s : State) : ∃ t, engineStep s = .next t := by
    rcases engineStep_cases s with ⟨-, e⟩ | ⟨-, run, -, ⟨i, -, e⟩ | ⟨-, e⟩⟩
    · exact ⟨s, e⟩
    · rcases exec_cases i s with ⟨t, -, -, h⟩ | ⟨t, _, -, -, h⟩ <;> exact ⟨_, e.trans h⟩
    · exact ⟨_, e⟩
  rcases hs : s.schedule with _ | ⟨_ | a | level, rest⟩
  · rw [step_nil hs]
    exact turn s
  · rw [step_engine hs]
    exact turn _
  · exact ⟨_, step_access hs⟩
  · exact ⟨_, step_rst hs⟩

/-- Settles O11: by induction on the length of the run, since every step goes on and keeps the invariant (O9). -/
theorem invariantStatesRunSafely : Obligations.InvariantStatesRunSafely := by
  intro s hs n
  induction n generalizing s with
  | zero => exact ⟨s, rfl, hs⟩
  | succ n ih =>
    obtain ⟨t, ht⟩ := step_goes_on s
    rw [core_run_succ n ht]
    exact ih t (stepKeepsInvariant s t hs ht)

end Sys2Proof.Machine
end

section
/-! SUPPORT. Reset (70_reset_and_hazards.md R1000 to R1002) and the bits of STATUS (10_state.md R103, 60_exceptions.md
R910). -/

namespace Sys2Proof.Machine

/-! The reset state. -/

theorem params_wf : Config.params.wf = true := by decide

/-- Settles O10: nothing is listed, latched or pending at reset (`resetWith_inv`). -/
theorem resetMeetsInvariant : Obligations.ResetMeetsInvariant := ⟨fun _ => resetWith_inv, resetWith_inv params_wf⟩

/-- An unlisted byte of a work buffer reads 0, any other its free value. -/
theorem readByte_resetWith (p : Params) (a : Nat) : (State.resetWith p).readByte a
    = if 0x04000000 ≤ a ∧ a < 0x04000A00 then 0 else Config.unspecifiedByte 0 a := by
  have work : isWork a = true ↔ 0x04000000 ≤ a ∧ a < 0x04000A00 := by
    rw [isWork, Bool.and_eq_true, decide_eq_true_iff, decide_eq_true_iff]
    rfl
  show (resetByte a).getD _ = _
  simp only [resetByte, work]
  split <;> rfl

/-- Settles O13: the registers that read 0 do so by their definitions; a byte is one of a work buffer or not
(`readByte_resetWith`). -/
theorem resetValues : Obligations.ResetValues := by
  intro p
  refine ⟨rfl, rfl, ?_, rfl, rfl, rfl, fun a low high => ?_, fun a outside => ?_, rfl, rfl⟩
  · have status : (State.resetWith p).regValue .status = 0 := show State.reset.statusWord = 0 by decide
    have bytes0 : (State.resetWith p).regValue .bs0Bytes = 0 := show nat32 (State.reset.bsBytes .stream0) = 0 by decide
    have bytes1 : (State.resetWith p).regValue .bs1Bytes = 0 := show nat32 (State.reset.bsBytes .stream1) = 0 by decide
    simp only [List.forall_mem_cons, List.not_mem_nil, false_imp_iff, implies_true, and_true, status, bytes0, bytes1,
      true_and]
    repeat' apply And.intro
    all_goals rfl
  · rw [readByte_resetWith, if_pos ⟨low, high⟩]
  · rw [readByte_resetWith, if_neg (by omega)]
    rfl

/-! The reset input. -/

/-- Settles O14: `rst` asserted, then an engine's turn, an access and the release, each as one step. -/
theorem resetInputBehaviour : Obligations.ResetInputBehaviour := by
  refine fun s rest => ⟨fun hs => ?_, fun hrst hs => ?_, fun a hrst hs => ?_, fun hrst hs => ?_⟩
  · rw [step_rst hs]
    rfl
  · rw [step_engine hs]
    simp [engineStep, hrst]
  · rw [step_access hs]
    exact congrArg _ (access_rst ({ s with schedule := rest } : State) a hrst)
  · rw [step_rst hs]
    simp [State.setRst, hrst, State.afterReset]

/-! STATUS. -/

/-- A flag stands at its bit alone. -/
theorem getLsbD_flag (b : Bool) (k : Nat) {n : Nat} (hn : n < 32) :
    ((BitVec.ofBool b).setWidth 32 <<< k).getLsbD n = (decide (n = k) && b) := by
  simp only [BitVec.getLsbD_shiftLeft, BitVec.getLsbD_setWidth, BitVec.getLsbD_ofBool]
  by_cases below : n < k
  · simp [below, show n ≠ k by omega]
  · simp [below, hn, show n - k < 32 by omega, show n - k = 0 ↔ n = k by omega]

/-- A byte stands at the eight bits from its place on. -/
theorem getLsbD_byteField (x : BitVec 8) (k : Nat) {n : Nat} (hn : n < 32) :
    (x.setWidth 32 <<< k).getLsbD n = (decide (k ≤ n ∧ n < k + 8) && x.getLsbD (n - k)) := by
  simp only [BitVec.getLsbD_shiftLeft, BitVec.getLsbD_setWidth]
  by_cases inside : k ≤ n ∧ n < k + 8
  · simp [inside, hn, show n - k < 32 by omega]
  · by_cases below : n < k
    · simp [below, inside]
    · simp [inside, BitVec.getLsbD_of_ge x (n - k) (by omega)]

/-- The bits of STATUS (R103). -/
theorem getLsbD_statusWord (s : State) {n : Nat} (hn : n < 32) : s.statusWord.getLsbD n =
    (decide (n = 0) && s.busy || decide (n = 1) && s.done || decide (n = 2) && s.err || decide (n = 3) && s.geomValid
      || decide (n = 4) && s.refValid || decide (n = 5) && s.irq
      || decide (8 ≤ n ∧ n < 16) && s.errCode.getLsbD (n - 8)
      || decide (16 ≤ n ∧ n < 24) && s.errOpc.getLsbD (n - 16)) := by
  have busy := getLsbD_flag s.busy 0 hn
  rw [BitVec.shiftLeft_zero] at busy
  simp only [State.statusWord, BitVec.getLsbD_or, busy, getLsbD_flag _ _ hn, getLsbD_byteField _ _ hn]

/-- Settles O21: the places of the flags and of the two bytes exclude each other (`getLsbD_statusWord`). -/
theorem statusBitsAndInterruptLine : Obligations.StatusBitsAndInterruptLine := by
  intro s
  refine ⟨by simp [State.irq, State.ieDone, State.ieErr], fun n hn => ?_⟩
  show s.statusWord.getLsbD n = _
  rw [getLsbD_statusWord s hn]
  by_cases flag : n < 6
  · interval_cases n <;> simp [State.busy]
  · have noFlag : n ≠ 0 ∧ n ≠ 1 ∧ n ≠ 2 ∧ n ≠ 3 ∧ n ≠ 4 ∧ n ≠ 5 := by omega
    by_cases code : 8 ≤ n ∧ n < 16
    · simp [noFlag, code, show ¬ 16 ≤ n by omega]
    · simp [noFlag, code]

end Sys2Proof.Machine
end

section
/-! SUPPORT. ENCODE_FRAME beside the host's own commands (48_encoder.md, introduction to R800; 30_encoding.md R321): a state
as the host's commands leave it (`Mirrors`), one command of the sequence beside one part of the coding (`Simulates`), a
macroblock, and a frame up to its commit. -/

namespace Sys2Proof.Machine

/-! The registers the host's commands use. -/

/-- The registers that the host's commands change and the coding of a frame does not read: ARG, RES, BUSY, DONE and the
error record. -/
structure HostRegs where
  args : ArgRegs
  res : Vector Word 8
  running : Option Running
  done : Bool
  err : Bool
  errCode : BitVec 8
  errOpc : BitVec 8

/-- A state with these registers in place of its own. -/
def State.withHost (s : State) (h : HostRegs) : State :=
  { s with
    args := h.args, res := h.res, running := h.running, done := h.done, err := h.err, errCode := h.errCode,
    errOpc := h.errOpc }

def Run.withHost (h : HostRegs) : Run → Run
  | .ok s => .ok (s.withHost h)
  | .error s e => .error (s.withHost h) e

theorem putBits_withHost (s : State) (h : HostRegs) (st : Stream) (p : Nat) (v : Word) (i n : Nat) :
    (s.withHost h).putBits st p v i n = (s.putBits st p v i n).withHost h := by
  induction n generalizing s p i with
  | zero => rfl
  | succ n ih => exact ih (s.setStreamBit st p (v.getLsbD i)) (p + 1) (i + 1)

theorem setBsBits_withHost (s : State) (h : HostRegs) (st : Stream) (v : Word) :
    (s.withHost h).setBsBits st v = (s.setBsBits st v).withHost h := by cases st <;> rfl

theorem bsBits_withHost (s : State) (h : HostRegs) (st : Stream) : (s.withHost h).bsBits st = s.bsBits st := by
  cases st <;> rfl

theorem extendStream_withHost (s : State) (h : HostRegs) (st : Stream) (bytes : Nat) :
    (s.withHost h).extendStream st bytes = (s.extendStream st bytes).withHost h := by cases st <;> rfl

theorem emit_withHost (st : Stream) (f : Field) (s : State) (h : HostRegs) :
    emit st f (s.withHost h) = (emit st f s).withHost h := by
  have params : (s.withHost h).params = s.params := rfl
  simp only [emit, bsBits_withHost, params, extendStream_withHost, putBits_withHost, setBsBits_withHost]
  split <;> rfl

theorem andThen_withHost {h : HostRegs} {f : State → Run} (hf : ∀ s, f (s.withHost h) = (f s).withHost h) (r : Run) :
    (r.withHost h).andThen f = (r.andThen f).withHost h := by
  cases r with
  | ok s => exact hf s
  | error s e => rfl

theorem forEach_withHost {α : Type} {h : HostRegs} {f : α → State → Run}
    (hf : ∀ x s, f x (s.withHost h) = (f x s).withHost h) (xs : List α) (s : State) :
    Run.forEach f xs (s.withHost h) = (Run.forEach f xs s).withHost h := by
  induction xs generalizing s with
  | nil => rfl
  | cons x xs ih => rw [forEach_cons, hf, andThen_withHost ih, forEach_cons]

theorem emitAll_withHost (st : Stream) (fs : List Field) (s : State) (h : HostRegs) :
    emitAll st fs (s.withHost h) = (emitAll st fs s).withHost h :=
  forEach_withHost (fun f s => emit_withHost st f s h) fs s

theorem align_withHost (st : Stream) (s : State) (h : HostRegs) :
    align st (s.withHost h) = (align st s).withHost h := by
  simp only [align, bsBits_withHost, emit_withHost]
  split <;> rfl

theorem diamondSteps_withHost (s : State) (h : HostRegs) (v : View) (fuel step : Nat) (m : Motion) :
    diamondSteps (s.withHost h) v fuel step m = diamondSteps s v fuel step m := by
  induction fuel generalizing step m with
  | zero => rfl
  | succ fuel ih =>
    rcases Nat.eq_zero_or_pos step with rfl | pos
    · rfl
    · rw [diamondSteps_succ _ _ _ _ _ pos, diamondSteps_succ _ _ _ _ _ pos, ih]
      rfl

theorem fullSearch_withHost (s : State) (h : HostRegs) (mbx mby r : Nat) :
    fullSearch (s.withHost h) mbx mby r = fullSearch s mbx mby r := rfl

theorem diamondSearch_withHost (s : State) (h : HostRegs) (mbx mby r : Nat) :
    diamondSearch (s.withHost h) mbx mby r = diamondSearch s mbx mby r := by
  simp only [diamondSearch, diamondSteps_withHost]
  rfl

theorem storeCells_withHost (s : State) (h : HostRegs) (cells : List Host.Cell) :
    (s.withHost h).storeCells cells = (s.storeCells cells).withHost h := rfl

theorem setCoef_withHost (s : State) (h : HostRegs) (k : Nat) (b : Block) :
    (s.withHost h).setCoef k b = (s.setCoef k b).withHost h := storeCells_withHost s h _

theorem coefBlock_withHost (s : State) (h : HostRegs) (k : Nat) : (s.withHost h).coefBlock k = s.coefBlock k := rfl

theorem stageBlock_withHost (s : State) (h : HostRegs) (k : Nat) : (s.withHost h).stageBlock k = s.stageBlock k := rfl

theorem setCoef_geomValid (s : State) (k : Nat) (b : Block) : (s.setCoef k b).geomValid = s.geomValid :=
  storeCells_geomValid s _

/-! One command beside one part of the coding. -/

/-- `u` is `s` as the host's commands leave it, with a geometry. -/
structure Mirrors (s u : State) : Prop where
  geomValid : s.geomValid = true
  same : ∃ h : HostRegs, u = s.withHost h

/-- A run beside a run: both go on, or both have raised an error. -/
inductive MirrorsRun : Run → Run → Prop
  | ok {t t' : State} (h : Mirrors t t') : MirrorsRun (.ok t) (.ok t')
  | error (t t' : State) (e e' : ErrorCode) : MirrorsRun (.error t e) (.error t' e')

/-- What the host's commands leave beside a run of the coding, from ERR = `e`: its state with ERR as it was, or ERR = 1. -/
inductive Follows (e : Bool) : Run → State → Prop
  | ok {t v : State} (h : Mirrors t v) (err : v.err = e) : Follows e (.ok t) v
  | error (t : State) (c : ErrorCode) {v : State} (err : v.err = true) : Follows e (.error t c) v

/-- With the operands `a`, the commands do what the part `f` does. -/
def Simulates (a : ArgRegs) (f : State → Run) (is : List Instr) : Prop :=
  ∀ s u, Mirrors s u → u.args = a → Follows u.err (f s) (runCommands is u)

theorem runCommands_args (is : List Instr) (s : State) : (runCommands is s).args = s.args := by
  induction is generalizing s with
  | nil => rfl
  | cons i is ih =>
    rcases exec_cases i s with ⟨t, -, same, h⟩ | ⟨t, e, -, same, h⟩ <;> rw [runCommands_cons is h, ih] <;>
      exact same.args

/-- The end of a run that raised no error. -/
theorem Mirrors.complete {s u : State} (h : Mirrors s u) : Mirrors s u.complete := by
  obtain ⟨hv, k, rfl⟩ := h
  exact ⟨hv, { k with running := none, done := true }, rfl⟩

theorem Mirrors.setRes {s u : State} (h : Mirrors s u) (n : Fin 8) (v : Word) : Mirrors s (u.setRes n v) := by
  obtain ⟨hv, k, rfl⟩ := h
  exact ⟨hv, { k with res := k.res.set n v }, rfl⟩

/-- A part that gives the same run on both sides but for the host's registers. -/
theorem Mirrors.run {s u : State} (h : Mirrors s u) {f : State → Run} (keeps : SameGeometry s (f s).state)
    (same : ∀ k, f (s.withHost k) = (f s).withHost k) : MirrorsRun (f s) (f u) := by
  obtain ⟨hv, k, rfl⟩ := h
  have still := keeps.geomValid.trans hv
  rw [same]
  cases hf : f s with
  | ok t => exact .ok ⟨by rw [hf] at still; exact still, k, rfl⟩
  | error t e => exact .error ..

theorem Mirrors.emitAll {s u : State} (h : Mirrors s u) (st : Stream) (fs : List Field) :
    MirrorsRun (emitAll st fs s) (emitAll st fs u) :=
  h.run (emitAll_sameGeometry st fs s) (emitAll_withHost st fs s)

theorem Mirrors.align {s u : State} (h : Mirrors s u) (st : Stream) : MirrorsRun (align st s) (align st u) :=
  h.run (align_sameGeometry st s) (align_withHost st s)

/-- RES0 is a register of the host's commands. -/
theorem MirrorsRun.withBitsWritten {r r' : Run} (h : MirrorsRun r r') (st : Stream) (u : State) :
    MirrorsRun r (r'.andThen (withBitsWritten st u)) := by
  cases h with
  | ok h => exact .ok (h.setRes _ _)
  | error => exact .error ..

/-- One command. -/
theorem Simulates.of_run {a : ArgRegs} {f : State → Run} {i : Instr}
    (h : ∀ s u, Mirrors s u → u.args = a → MirrorsRun (f s) (runInstr i u)) : Simulates a f [i] := by
  intro s u m ha
  have beside := h s u m ha
  rcases exec_cases i u with ⟨t, run, same, hx⟩ | ⟨t, e, run, -, hx⟩ <;> rw [runCommands_cons [] hx] <;>
    rw [run] at beside
  · generalize f s = r at beside ⊢
    cases beside with
    | ok m' => exact .ok m'.complete same.err
  · generalize f s = r at beside ⊢
    cases beside with
    | error => exact .error _ _ rfl

/-- One command that raises no error. -/
theorem Simulates.of_ok {a : ArgRegs} {g : State → State} {i : Instr} (geom : ∀ s, (g s).geomValid = s.geomValid)
    (h : ∀ s k, s.geomValid = true → k.args = a → runInstr i (s.withHost k) = .ok ((g s).withHost k)) :
    Simulates a (fun s => .ok (g s)) [i] :=
  Simulates.of_run fun s u m ha => by
    obtain ⟨hv, k, rfl⟩ := m
    rw [h s k hv ha]
    exact .ok ⟨(geom s).trans hv, k, rfl⟩

theorem Follows.trans {e : Bool} {v w : State} {r : Run} (h : Follows v.err r w) (k : v.err = e) : Follows e r w :=
  k ▸ h

/-- Two parts, one after the other: after an error the host goes on with ERR set. -/
theorem Simulates.andThen {a : ArgRegs} {f g : State → Run} {is js : List Instr} (hf : Simulates a f is)
    (hg : Simulates a g js) : Simulates a (fun s => (f s).andThen g) (is ++ js) := by
  intro s u m ha
  have first := hf s u m ha
  have args := (runCommands_args is u).trans ha
  show Follows u.err ((f s).andThen g) _
  rw [runCommands_append]
  generalize runCommands is u = v at first args ⊢
  generalize f s = r at first ⊢
  cases first with
  | ok m' err => exact (hg _ v m' args).trans err
  | error t c err => exact .error _ _ (runCommands_err js v err)

/-- One part for each element of a list. -/
theorem Simulates.forEach {α β : Type} {a : ArgRegs} {f : β → State → Run} {g : α → β} {is : α → List Instr}
    {ks : List α} (h : ∀ k ∈ ks, Simulates a (f (g k)) (is k)) :
    Simulates a (Run.forEach f (ks.map g)) (ks.flatMap is) := by
  induction ks with
  | nil => exact fun s u m _ => .ok m rfl
  | cons k ks ih => exact (h k (by simp)).andThen (ih fun j hj => h j (by simp [hj]))

/-! The commands of a macroblock. -/

section

variable (a : ArgRegs)

theorem loadSrc_simulates {sel : BitVec 4} {p : Plane} (hp : planeOfSel sel = some p) :
    Simulates a (fun s => .ok (loadSrc s p a.mbx.toNat a.mby.toNat)) [.loadSrc sel] :=
  .of_ok (fun _ => rfl) fun s k hv ha => by
    subst ha
    exact (runInstr_loadSrc hp _).trans (withGeometry_present (s := s.withHost k) hv _)

theorem mcBlock_simulates {sel : BitVec 4} {p : Plane} (hp : planeOfSel sel = some p) :
    Simulates a (fun s => .ok (predictToBlk s p a.mbx.toNat a.mby.toNat a.mvx.toInt a.mvy.toInt)) [.mcBlock sel] :=
  .of_ok (fun _ => rfl) fun s k hv ha => by
    subst ha
    exact (runInstr_mcBlock hp _).trans (withGeometry_present (s := s.withHost k) hv _)

theorem residual_simulates : Simulates a (fun s => .ok (residual s a.mbx.toNat a.mby.toNat)) [.residual] :=
  .of_ok (fun _ => rfl) fun s k hv ha => by
    subst ha
    exact withGeometry_present (s := s.withHost k) hv _

/-- A command that replaces block k by a block read from the memory. -/
theorem setsBlock_simulates {i : Instr} {k : BitVec 4} {b : State → Block} (hk : k.toNat ≤ 5)
    (run : ∀ u : State, u.args = a → runInstr i u = withBlock k u fun k => .ok (u.setCoef k (b u)))
    (same : ∀ s h, b (s.withHost h) = b s) : Simulates a (fun s => .ok (s.setCoef k.toNat (b s))) [i] :=
  .of_ok (fun s => setCoef_geomValid s _ _) fun s h _ ha => by
    rw [run _ ha, withBlock_legal hk, same, setCoef_withHost]

theorem loadBlk_simulates {k : BitVec 4} (hk : k.toNat ≤ 5) :
    Simulates a (fun s => .ok (loadBlk s k.toNat)) [.loadBlk k] :=
  setsBlock_simulates a hk (b := fun s => s.stageBlock k.toNat) (fun u _ => by
    simp only [runInstr, runLoadBlk, withBlock_legal hk, loadBlk]) fun s h => stageBlock_withHost s h _

theorem zeroBlk_simulates {k : BitVec 4} (hk : k.toNat ≤ 5) :
    Simulates a (fun s => .ok (zeroBlk s k.toNat)) [.zeroBlk k] :=
  setsBlock_simulates a hk (b := fun _ => zeroBlock) (fun u _ => by
    simp only [runInstr, runZeroBlk, withBlock_legal hk, zeroBlk]) fun _ _ => rfl

theorem fdct8_simulates {k : BitVec 4} (hk : k.toNat ≤ 5) :
    Simulates a (fun s => .ok (fdct8 s k.toNat)) [.fdct8 k] :=
  setsBlock_simulates a hk (b := fun s => fwd s.params.basis (s.coefBlock k.toNat)) (fun u _ => by
    simp only [runInstr, runFdct8, withBlock_legal hk, fdct8]) fun s h => by rw [coefBlock_withHost]; rfl

theorem quant_simulates {k : BitVec 4} (hk : k.toNat ≤ 5) :
    Simulates a (fun s => .ok (quantBlk s k.toNat (qpToScale a.qp.toInt))) [.quant k] :=
  setsBlock_simulates a hk (b := fun s => (s.coefBlock k.toNat).map fun c => quantize c (qpToScale a.qp.toInt))
    (fun u ha => by
      subst ha
      simp only [runInstr, runQuant, withBlock_legal hk, quantBlk, State.argQp]) fun s h => by
    rw [coefBlock_withHost]

theorem encBlock_simulates (st : Stream) {k : BitVec 4} (hk : k.toNat ≤ 5) :
    Simulates a (encodeBlock st k.toNat) [.encBlock k st] :=
  .of_run fun s u m _ => by
    have run : runInstr (.encBlock k st) u = (encodeBlock st k.toNat u).andThen (withBitsWritten st u) :=
      withBlock_legal hk u _
    have fields : blockFields u.params.zigzag (u.coefBlock k.toNat)
        = blockFields s.params.zigzag (s.coefBlock k.toNat) := by
      obtain ⟨-, h, rfl⟩ := m
      rfl
    rw [run, encodeBlock, encodeBlock, fields]
    exact (m.emitAll st _).withBitsWritten st u

theorem encMv_simulates (st : Stream) :
    Simulates a (emitAll st (mvFields a.mvx.toInt a.mvy.toInt)) [.encMv st] :=
  .of_run fun s u m ha => by
    subst ha
    exact (m.emitAll st _).withBitsWritten st u

theorem bsFlush_simulates (st : Stream) : Simulates a (align st) [.bsFlush st] := .of_run fun _ _ m _ => m.align st

/-- A staged block is coded in four parts, one for each command. -/
theorem codeStagedBlock_eq (scale k : Nat) : codeStagedBlock scale k = fun s =>
    (Run.ok (loadBlk s k)).andThen fun s => (Run.ok (fdct8 s k)).andThen fun s =>
      (Run.ok (quantBlk s k scale)).andThen (encodeBlock .stream1 k) := by
  funext s
  simp only [andThen_ok, codeStagedBlock]

theorem codeZeroBlock_eq (k : Nat) : codeZeroBlock k = fun s =>
    (Run.ok (zeroBlk s k)).andThen (encodeBlock .stream1 k) := by
  funext s
  simp only [andThen_ok, codeZeroBlock]

/-- `ENCODE_BLOCK8 k, S1` (30_encoding.md R321). -/
theorem codeBlockCommands_simulate {k : BitVec 4} (hk : k.toNat ≤ 5) :
    Simulates a (codeStagedBlock (qpToScale a.qp.toInt) k.toNat) (codeBlockCommands k) :=
  codeStagedBlock_eq _ _ ▸ (loadBlk_simulates a hk).andThen ((fdct8_simulates a hk).andThen ((quant_simulates a hk).andThen
    (encBlock_simulates a .stream1 hk)))

theorem zeroBlockCommands_simulate {k : BitVec 4} (hk : k.toNat ≤ 5) :
    Simulates a (codeZeroBlock k.toNat) [.zeroBlk k, .encBlock k .stream1] :=
  codeZeroBlock_eq _ ▸ (zeroBlk_simulates a hk).andThen (encBlock_simulates a .stream1 hk)

/-- The command sequence of an I-frame macroblock (48_encoder.md R804). -/
theorem intraMbCommands_simulate :
    Simulates a (encodeIntraMb (qpToScale a.qp.toInt) (a.mbx.toNat, a.mby.toNat)) intraMbCommands :=
  have planes := (loadSrc_simulates a (sel := 0) (p := .y) rfl).andThen
    ((loadSrc_simulates a (sel := 1) (p := .u) rfl).andThen (loadSrc_simulates a (sel := 2) (p := .v) rfl))
  have blocks := Simulates.forEach (a := a) (g := BitVec.toNat) (ks := [0, 1, 2, 3, 4, 5]) fun _ hk =>
    codeBlockCommands_simulate a ((by decide : ∀ k ∈ [0#4, 1, 2, 3, 4, 5], k.toNat ≤ 5) _ hk)
  planes.andThen blocks

/-- The command sequence of a P-frame macroblock after its search (48_encoder.md R805). -/
theorem predictedMbCommands_simulate :
    Simulates a (fun s => (emitAll .stream0 (mvFields a.mvx.toInt a.mvy.toInt) s).andThen fun s =>
        (Run.forEach (codeStagedBlock (qpToScale a.qp.toInt)) [0, 1, 2, 3]
          (residual (predictToBlk s .y a.mbx.toNat a.mby.toNat a.mvx.toInt a.mvy.toInt) a.mbx.toNat a.mby.toNat)).andThen
        (Run.forEach codeZeroBlock [4, 5]))
      ([.encMv .stream0, .mcBlock 0, .residual] ++ [0, 1, 2, 3].flatMap codeBlockCommands
        ++ [.zeroBlk 4, .encBlock 4 .stream1, .zeroBlk 5, .encBlock 5 .stream1]) :=
  have staged := Simulates.forEach (a := a) (g := BitVec.toNat) (ks := [0, 1, 2, 3]) fun _ hk =>
    codeBlockCommands_simulate a ((by decide : ∀ k ∈ [0#4, 1, 2, 3], k.toNat ≤ 5) _ hk)
  have zero := Simulates.forEach (a := a) (g := BitVec.toNat) (ks := [4, 5]) fun _ hk =>
    zeroBlockCommands_simulate a ((by decide : ∀ k ∈ [4#4, 5], k.toNat ≤ 5) _ hk)
  (encMv_simulates a .stream0).andThen ((((mcBlock_simulates a (sel := 0) (p := .y) rfl).andThen
    (residual_simulates a)).andThen staged).andThen zero)

end

end Sys2Proof.Machine
end

section
/-! SUPPORT. A whole frame by the host's commands (48_encoder.md R803 to R808): each macroblock, the grid loop, and the frame
up to its commit, beside the coding of ENCODE_FRAME. -/

namespace Sys2Proof.Machine

/-! The vector of a search. -/

/-- Both components are at most `n` from 0. -/
def Motion.Within (m : Motion) (n : Nat) : Prop := m.dx.natAbs ≤ n ∧ m.dy.natAbs ≤ n

theorem foldl_consider_within (s : State) (v : View) {probes : List (Int × Int)} {best : Motion} {n : Nat}
    (hb : best.Within n) (hp : ∀ d ∈ probes, d.1.natAbs ≤ n ∧ d.2.natAbs ≤ n) :
    (probes.foldl (consider s v) best).Within n := by
  rcases (foldl_consider_bestOf s v probes best).stays_or_wins with stays | ⟨pre, post, wins⟩
  · rw [stays]
    exact hb
  · exact hp _ wins.mem

theorem diamondSteps_within (s : State) (v : View) {fuel step n : Nat} {m : Motion} (hm : m.Within n) :
    (diamondSteps s v fuel step m).Within (n + 2 * step) := by
  have mono {m : Motion} {n n' : Nat} (h : m.Within n) (le : n ≤ n') : m.Within n' := ⟨h.1.trans le, h.2.trans le⟩
  induction fuel generalizing step n m with
  | zero => exact mono hm (Nat.le_add_right _ _)
  | succ fuel ih =>
    rcases Nat.eq_zero_or_pos step with rfl | pos
    · exact hm
    · rw [diamondSteps_succ s v fuel step m pos]
      have next := foldl_consider_within s v (mono hm (Nat.le_add_right n step)) fun d hd =>
        near_of_mem_diamondProbes hd hm.1 hm.2
      exact mono (ih next) (by omega)

/-- A search goes at most twice its range away, so its vector fits the registers it is passed on in. -/
theorem searchFor_within (diamond : Bool) (s : State) (mb : Nat × Nat) (range : Nat) :
    (searchFor diamond s mb range).Within (2 * range) := by
  have origin {n : Nat} {c : Nat} : Motion.Within { dx := 0, dy := 0, cost := c } n := ⟨Nat.zero_le _, Nat.zero_le _⟩
  cases diamond with
  | true =>
    show (diamondSearch s mb.1 mb.2 range).Within _
    rcases hv : (s.view .y mb.1 mb.2).valid with _ | _
    · rw [diamondSearch_of_invalid hv]
      exact origin
    · rw [diamondSearch_of_valid hv]
      simpa using diamondSteps_within s (s.view .y mb.1 mb.2) (fuel := range) (step := range)
        (origin (n := 0) (c := sadSum s (s.view .y mb.1 mb.2) 0 0))
  | false =>
    show (fullSearch s mb.1 mb.2 range).Within _
    rcases hv : (s.view .y mb.1 mb.2).valid with _ | _
    · rw [fullSearch_of_invalid hv]
      exact origin
    · rw [fullSearch_of_valid hv]
      refine foldl_consider_within s _ origin fun d hd => ?_
      obtain ⟨hx, hy⟩ := (mem_fullCandidates range d).1 hd
      omega

theorem searchFor_withHost (diamond : Bool) (s : State) (h : HostRegs) (mb : Nat × Nat) (range : Nat) :
    searchFor diamond (s.withHost h) mb range = searchFor diamond s mb range := by
  cases diamond with
  | true => exact diamondSearch_withHost s h _ _ _
  | false => exact fullSearch_withHost s h _ _ _

/-! One macroblock. -/

/-- The macroblock of one frame type by host commands. -/
def hostMb (t : FrameType) (diamond : Bool) : State → Nat × Nat → State :=
  match t with
  | .i => hostIntraMb
  | .p => hostPredictedMb diamond

/-- The coding of one macroblock, for the operands CFG holds. -/
def encodeMb (t : FrameType) (diamond : Bool) (cfg : CfgRegs) : Nat × Nat → State → Run :=
  match t with
  | .i => encodeIntraMb (qpToScale cfg.qp.toNat)
  | .p => encodePredictedMb diamond (qpToScale cfg.qp.toNat) cfg.range.toNat

theorem encodeMbs_eq (t : FrameType) (diamond : Bool) (cfg : CfgRegs) (s : State) :
    encodeMbs t diamond (qpToScale cfg.qp.toNat) cfg.range.toNat s
      = Run.forEach (encodeMb t diamond cfg) s.mbCoords s := by cases t <;> rfl

theorem encodeMb_sameGeometry (t : FrameType) (diamond : Bool) (cfg : CfgRegs) (mb : Nat × Nat) (s : State) :
    SameGeometry s (encodeMb t diamond cfg mb s).state := by
  cases t with
  | i => exact encodeIntraMb_sameGeometry _ mb s
  | p => exact encodePredictedMb_sameGeometry diamond _ _ mb s

theorem hostMb_err (t : FrameType) (diamond : Bool) (u : State) (mb : Nat × Nat) (he : u.err = true) :
    (hostMb t diamond u mb).err = true := by
  cases t with
  | i => exact runCommands_err _ _ he
  | p => exact runCommands_err _ _ (runCommands_err _ (withMbArgs mb u) he)

/-- ARG_QP is CFG_QP, which is not negative. -/
theorem toInt_setWidth_byte (q : BitVec 8) : (q.setWidth 32).toInt = (q.toNat : Int) := by
  rw [BitVec.toInt_setWidth, Int.bmod_eq_of_le] <;> omega

theorem Mirrors.withMbArgs {s u : State} (h : Mirrors s u) (mb : Nat × Nat) : Mirrors s (withMbArgs mb u) := by
  obtain ⟨hv, k, rfl⟩ := h
  exact ⟨hv, { k with args := { k.args with mbx := nat32 mb.1, mby := nat32 mb.2, qp := s.cfg.qp.setWidth 32 } }, rfl⟩

/-- The search by a host command. -/
theorem runSearch_eq (diamond : Bool) {u : State} (hv : u.geomValid = true) :
    runCommands [if diamond then .meDiamond else .meFull] u
      = (setMotion u (searchFor diamond u (u.args.mbx.toNat, u.args.mby.toNat) u.cfg.range.toNat)).complete := by
  cases diamond with
  | true => exact runCommands_cons [] (exec_meDiamond hv)
  | false => exact runCommands_cons [] (exec_meFull hv)

theorem setWidth_ofInt (v : Int) : (BitVec.ofInt 32 v).setWidth 16 = low16 v := by
  apply BitVec.eq_of_toNat_eq
  simp only [low16, BitVec.toNat_setWidth, BitVec.toNat_ofInt]
  omega

/-- What the host passes on of a search: the vector, to ARG_MVX, ARG_MVY and MVARR. -/
theorem withSearchResult_eq (i : Nat) (u : State) (m : Motion) : withSearchResult i (setMotion u m).complete
    = { setMv (setMotion u m).complete i m.dx m.dy with
        args := { u.args with mvx := low32 m.dx, mvy := low32 m.dy } } := by
  obtain ⟨dx, dy, -⟩ := setMotion_complete_res u m
  rw [withSearchResult, dx, dy, setWidth_ofInt, setWidth_ofInt]
  rfl

theorem Mirrors.withSearchResult {s u : State} (h : Mirrors s u) (i : Nat) (m : Motion) :
    Mirrors (setMv s i m.dx m.dy) (withSearchResult i (setMotion u m).complete) := by
  obtain ⟨hv, k, rfl⟩ := h
  rw [withSearchResult_eq]
  exact ⟨hv, { k with
    args := { k.args with mvx := low32 m.dx, mvy := low32 m.dy }, res := (setMotion (s.withHost k) m).res,
    running := none, done := true }, rfl⟩

theorem Mirrors.cfg {s u : State} (h : Mirrors s u) : u.cfg = s.cfg := by
  obtain ⟨-, k, rfl⟩ := h
  rfl

theorem Mirrors.geom {s u : State} (h : Mirrors s u) : u.geom = s.geom := by
  obtain ⟨-, k, rfl⟩ := h
  rfl

/-- The operands of one macroblock's commands. -/
structure MbArgs (a : ArgRegs) (cfg : CfgRegs) (mb : Nat × Nat) : Prop where
  mbx : a.mbx.toNat = mb.1
  mby : a.mby.toNat = mb.2
  qp : a.qp.toInt = cfg.qp.toNat

theorem mbArgs_withMbArgs {s u : State} (h : Mirrors s u) {mb : Nat × Nat} (hx : mb.1 < 2 ^ 32) (hy : mb.2 < 2 ^ 32) :
    MbArgs (withMbArgs mb u).args s.cfg mb :=
  ⟨toNat_nat32 hx, toNat_nat32 hy, h.cfg ▸ toInt_setWidth_byte u.cfg.qp⟩

/-- An I-frame macroblock by host commands (48_encoder.md R804). -/
theorem hostIntraMb_follows {s u : State} (h : Mirrors s u) {mb : Nat × Nat} (hx : mb.1 < 2 ^ 32)
    (hy : mb.2 < 2 ^ 32) : Follows u.err (encodeIntraMb (qpToScale s.cfg.qp.toNat) mb s) (hostIntraMb u mb) := by
  obtain ⟨mbx, mby, qp⟩ := mbArgs_withMbArgs h hx hy
  have run := intraMbCommands_simulate (withMbArgs mb u).args s (withMbArgs mb u) (h.withMbArgs mb) rfl
  rw [mbx, mby, qp] at run
  exact run

/-- The search by a host command finds the vector the coding finds. -/
theorem runSearch_withMbArgs (diamond : Bool) {s u : State} (h : Mirrors s u) {mb : Nat × Nat} (hx : mb.1 < 2 ^ 32)
    (hy : mb.2 < 2 ^ 32) : runCommands [if diamond then .meDiamond else .meFull] (withMbArgs mb u)
      = (setMotion (withMbArgs mb u) (searchFor diamond s mb s.cfg.range.toNat)).complete := by
  obtain ⟨mbx, mby, -⟩ := mbArgs_withMbArgs h hx hy
  obtain ⟨hv, k, hk⟩ := h.withMbArgs mb
  have valid : (withMbArgs mb u).geomValid = true := hk ▸ hv
  rw [runSearch_eq diamond valid, mbx, mby, (h.withMbArgs mb).cfg]
  nth_rw 2 [hk]
  rw [searchFor_withHost]

/-- A P-frame macroblock by host commands (48_encoder.md R805). -/
theorem hostPredictedMb_follows (diamond : Bool) {s u : State} (h : Mirrors s u) {mb : Nat × Nat} (hx : mb.1 < 2 ^ 32)
    (hy : mb.2 < 2 ^ 32) :
    Follows u.err (encodePredictedMb diamond (qpToScale s.cfg.qp.toNat) s.cfg.range.toNat mb s)
      (hostPredictedMb diamond u mb) := by
  have near := searchFor_within diamond s mb s.cfg.range.toNat
  have range := s.cfg.range.isLt
  have search := runSearch_withMbArgs diamond h hx hy
  rw [hostPredictedMb, search, State.mbIndex, h.geom, ← State.mbIndex, encodePredictedMb]
  generalize searchFor diamond s mb s.cfg.range.toNat = m at near ⊢
  obtain ⟨nearX, nearY⟩ := near
  have passed := (h.withMbArgs mb).withSearchResult (s.mbIndex mb.1 mb.2) m
  have left := withSearchResult_eq (s.mbIndex mb.1 mb.2) (withMbArgs mb u) m
  generalize withSearchResult (s.mbIndex mb.1 mb.2) (setMotion (withMbArgs mb u) m).complete = w at passed left ⊢
  have args : MbArgs w.args s.cfg mb := by
    obtain ⟨mbx, mby, qp⟩ := mbArgs_withMbArgs h hx hy
    rw [left]
    exact ⟨mbx, mby, qp⟩
  have dx : w.args.mvx.toInt = m.dx := by
    rw [left]
    exact toInt_low32 (by omega)
  have dy : w.args.mvy.toInt = m.dy := by
    rw [left]
    exact toInt_low32 (by omega)
  have err : w.err = u.err := by
    rw [left]
    rfl
  have run := predictedMbCommands_simulate w.args _ w passed rfl
  rw [args.mbx, args.mby, args.qp, dx, dy, err] at run
  exact run

theorem hostMb_follows (t : FrameType) (diamond : Bool) {s u : State} (h : Mirrors s u) {mb : Nat × Nat}
    (hx : mb.1 < 2 ^ 32) (hy : mb.2 < 2 ^ 32) :
    Follows u.err (encodeMb t diamond s.cfg mb s) (hostMb t diamond u mb) := by
  cases t with
  | i => exact hostIntraMb_follows h hx hy
  | p => exact hostPredictedMb_follows diamond h hx hy

/-! The grid loop. -/

theorem foldl_hostMb_err (t : FrameType) (diamond : Bool) (mbs : List (Nat × Nat)) (u : State) (he : u.err = true) :
    (mbs.foldl (hostMb t diamond) u).err = true := by
  induction mbs generalizing u with
  | nil => exact he
  | cons mb mbs ih => exact ih _ (hostMb_err t diamond u mb he)

/-- The macroblocks one after another: after an error the host goes on with ERR set. -/
theorem foldl_hostMb_follows (t : FrameType) (diamond : Bool) {mbs : List (Nat × Nat)}
    (small : ∀ mb ∈ mbs, mb.1 < 2 ^ 32 ∧ mb.2 < 2 ^ 32) {s u : State} (h : Mirrors s u) :
    Follows u.err (Run.forEach (encodeMb t diamond s.cfg) mbs s) (mbs.foldl (hostMb t diamond) u) := by
  induction mbs generalizing s u with
  | nil => exact .ok h rfl
  | cons mb mbs ih =>
    obtain ⟨hx, hy⟩ := small mb (by simp)
    have first := hostMb_follows t diamond h hx hy
    have kept := (encodeMb_sameGeometry t diamond s.cfg mb s).cfg
    rw [forEach_cons, List.foldl_cons]
    generalize hostMb t diamond u mb = v at first ⊢
    generalize encodeMb t diamond s.cfg mb s = r at first kept ⊢
    cases first with
    | ok h' err =>
      rw [andThen_ok, ← kept]
      exact (ih (fun mb' hmb => small mb' (by simp [hmb])) h').trans err
    | error s' e err => exact .error _ _ (foldl_hostMb_err t diamond mbs v err)

/-! The frame. -/

/-- Steps 3 to 5: the streams cleared, the macroblocks coded, the streams flushed (48_encoder.md R803 to R806). -/
def codedFrame (t : FrameType) (s : State) : Run :=
  ((encodeMbs t s.snapshotMeMode (qpToScale s.cfg.qp.toNat) s.cfg.range.toNat
      ((s.setBsBits .stream0 0).setBsBits .stream1 0)).andThen (align .stream0)).andThen (align .stream1)

/-- Steps 3 to 8 are steps 3 to 5 and the commit. -/
theorem encodeFrameBody_eq (t : FrameType) (s : State) :
    encodeFrameBody t s = (codedFrame t s).andThen fun v => .ok (commitFrame t v) := rfl

/-- The frame by host commands, up to STORE_REF. -/
def hostCoded (codeMb : State → Nat × Nat → State) (s : State) : State :=
  runCommands [.bsFlush .stream0, .bsFlush .stream1]
    (s.mbCoords.foldl codeMb (runCommands [.bsClear .stream0, .bsClear .stream1] s))

theorem hostFrame_eq (codeMb : State → Nat × Nat → State) (s : State) :
    hostFrame codeMb s = runCommands [.storeRef] (hostCoded codeMb s) :=
  runCommands_append [.bsFlush .stream0, .bsFlush .stream1] [.storeRef] _

theorem mbCoords_small (s : State) : ∀ mb ∈ s.mbCoords, mb.1 < 2 ^ 32 ∧ mb.2 < 2 ^ 32 := fun mb hmb => by
  obtain ⟨p, hp, rfl⟩ := List.mem_map.1 hmb
  obtain ⟨hr, hc⟩ := (mem_rowsCols _ _ _).1 hp
  have := s.geom.mbCols.isLt
  have := s.geom.mbRows.isLt
  exact ⟨by omega, by omega⟩

/-- A part after a run, beside one command after what the host has left. -/
theorem Follows.andThen {a : ArgRegs} {e : Bool} {r : Run} {v : State} {g : State → Run} {js : List Instr}
    (h : Follows e r v) (ha : v.args = a) (hg : Simulates a g js) : Follows e (r.andThen g) (runCommands js v) := by
  cases h with
  | ok h' err => exact (hg _ v h' ha).trans err
  | error t c err => exact .error _ _ (runCommands_err js v err)

/-- The frame by host commands, from the state with ERR set or cleared first, beside its coding. -/
theorem hostCoded_follows (t : FrameType) {s : State} (hv : s.geomValid = true) (e : Bool) :
    Follows e (codedFrame t s) (hostCoded (hostMb t s.snapshotMeMode) { s with err := e }) := by
  have cleared : Mirrors ((s.setBsBits .stream0 0).setBsBits .stream1 0)
      (runCommands [.bsClear .stream0, .bsClear .stream1] { s with err := e }) :=
    ⟨hv, ⟨s.args, s.res, none, true, e, s.errCode, s.errOpc⟩, rfl⟩
  have coded := foldl_hostMb_follows t s.snapshotMeMode (mbCoords_small s) cleared
  have flushed := (coded.andThen rfl (bsFlush_simulates _ .stream0)).andThen rfl (bsFlush_simulates _ .stream1)
  have flushes := runCommands_append [.bsFlush .stream0] [.bsFlush .stream1]
  rw [codedFrame, encodeMbs_eq, hostCoded]
  exact (flushes _) ▸ flushed

/-! STORE_REF and the commit. -/

/-- The type of the frame ENCODE_FRAME codes. -/
def State.frameType (s : State) : FrameType := Machine.frameType s.args.frameId.toNat s.cfg.gop.toNat

theorem frameType_eq_i_iff (s : State) : s.frameType = .i ↔ IntraFrame s := by
  by_cases h : IntraFrame s
  · exact iff_of_true (frameType_of_cadence h) h
  · exact iff_of_false (by rw [State.frameType, frameType_of_not_cadence h]; exact nofun) h

theorem snapshotMeMode_eq (s : State) :
    s.snapshotMeMode = ((s.running.map Running.ctrl).getD s.ctrl).getLsbD 2 := by
  rw [State.snapshotMeMode]
  cases s.running <;> rfl

/-- The frame by the host's own commands. -/
theorem frameByCommands_iff (s u : State) :
    FrameByCommands s u ↔ u = hostFrame (hostMb s.frameType s.snapshotMeMode) s := by
  rw [FrameByCommands, ← snapshotMeMode_eq]
  by_cases h : IntraFrame s
  · rw [(frameType_eq_i_iff s).2 h]
    simp [h, hostMb]
  · rw [State.frameType, frameType_of_not_cadence h]
    simp [h, hostMb]

/-- What the host's STORE_REF leaves after a frame that was coded without an error. -/
theorem runStoreRef_of_mirrors {v u : State} (h : Mirrors v u) :
    (runCommands [.storeRef] u).mem = (storeRef v).mem ∧ (runCommands [.storeRef] u).bs0Bits = v.bs0Bits
      ∧ (runCommands [.storeRef] u).bs1Bits = v.bs1Bits ∧ (runCommands [.storeRef] u).refValid = true
      ∧ (runCommands [.storeRef] u).err = u.err := by
  obtain ⟨hv, k, rfl⟩ := h
  have run : exec .storeRef (v.withHost k) = .next (storeRef (v.withHost k)).complete := exec_with_geometry hv rfl
  rw [runCommands_cons [] run]
  exact ⟨rfl, rfl, rfl, rfl, rfl⟩

theorem frameByCommands_eq {s u : State} {e : Bool} (h : FrameByCommands { s with err := e } u) :
    u = runCommands [.storeRef] (hostCoded (hostMb s.frameType s.snapshotMeMode) { s with err := e }) :=
  ((frameByCommands_iff _ u).1 h).trans (hostFrame_eq _ _)

/-- What the host's commands leave of a frame whose coding raises no error. -/
theorem frameByCommands_of_coded {s v u : State} {e : Bool} (hv : s.geomValid = true)
    (coded : codedFrame s.frameType s = .ok v) (h : FrameByCommands { s with err := e } u) :
    u.mem = (storeRef v).mem ∧ u.bs0Bits = v.bs0Bits ∧ u.bs1Bits = v.bs1Bits ∧ u.refValid = true ∧ u.err = e := by
  have follows := hostCoded_follows s.frameType hv e
  rw [coded] at follows
  rw [frameByCommands_eq h]
  generalize hostCoded _ _ = w at follows ⊢
  cases follows with
  | ok m err =>
    obtain ⟨mem, bs0, bs1, refValid, kept⟩ := runStoreRef_of_mirrors m
    exact ⟨mem, bs0, bs1, refValid, kept.trans err⟩

/-- A frame whose coding raises an error raises one for the host. -/
theorem frameByCommands_of_error {s v u : State} {c : ErrorCode} {e : Bool} (hv : s.geomValid = true)
    (coded : codedFrame s.frameType s = .error v c) (h : FrameByCommands { s with err := e } u) : u.err = true := by
  have follows := hostCoded_follows s.frameType hv e
  rw [coded] at follows
  rw [frameByCommands_eq h]
  generalize hostCoded _ _ = w at follows ⊢
  cases follows with
  | error _ _ err => exact runCommands_err _ _ err

end Sys2Proof.Machine
end

section
/-! SUPPORT. What the coding of a frame leaves (48_encoder.md R803 to R806): the bits of each stream, the bytes that can differ,
and nothing else; and that it ends early only when a stream is full (`Codes`). -/

namespace Sys2Proof.Machine

/-! The coding of a part. -/

/-- A byte that coding does not write: it is in no work buffer, in none of the first `vectors` vectors, and in neither stream
up to its position (20_memory.md R205). -/
def Untouched (vectors : Nat) (t : State) (a : Nat) : Prop :=
  ¬ (0x04000000 ≤ a ∧ a < 0x04000A00) ∧ ¬ (0x05000000 ≤ a ∧ a < 0x05000000 + 4 * vectors)
    ∧ ∀ st, ¬ (streamBase st ≤ a ∧ a < streamBase st + ((t.bsBits st).toNat + 7) / 8)

/-- Coding has changed the memory and the bit counts alone. -/
def SameRegisters (s t : State) : Prop := t = { s with mem := t.mem, bs0Bits := t.bs0Bits, bs1Bits := t.bs1Bits }

theorem SameRegisters.trans {s t u : State} (h : SameRegisters s t) (k : SameRegisters t u) : SameRegisters s u := by
  unfold SameRegisters at *
  rw [k, h]

/-- From s to t coding has written `mvBits` bits to stream 0 and `least` to `most` bits to stream 1, and no byte elsewhere
but in the work buffers and the first `vectors` vectors. -/
structure Coded (vectors mvBits least most : Nat) (s t : State) : Prop where
  inv : t.Inv
  registers : SameRegisters s t
  bits0 : t.bs0Bits.toNat = s.bs0Bits.toNat + mvBits
  bits1_ge : s.bs1Bits.toNat + least ≤ t.bs1Bits.toNat
  bits1_le : t.bs1Bits.toNat ≤ s.bs1Bits.toNat + most
  bytes : ∀ a, Untouched vectors t a → t.readByte a = s.readByte a

/-- What coding has left when it ends early: no register but the bit counts has changed, and no byte of CUR, REF or PRED. -/
structure KeepsFrames (s t : State) : Prop where
  registers : SameRegisters s t
  bytes : ∀ a, a < 0x04000000 → t.readByte a = s.readByte a

/-- A part of the coding: it writes what `Coded` says, or a stream has no room for what it can write. -/
inductive Codes (vectors mvBits least most : Nat) (s : State) : Run → Prop
  | ok {t : State} (h : Coded vectors mvBits least most s t) : Codes vectors mvBits least most s (.ok t)
  | overflow {t : State} (keeps : KeepsFrames s t)
      (full : 8 * s.params.streamCap < s.bs0Bits.toNat + mvBits ∨ 8 * s.params.streamCap < s.bs1Bits.toNat + most) :
      Codes vectors mvBits least most s (.error t .overflow)

theorem streamBase_ge (st : Stream) : 0x06000000 ≤ streamBase st := by cases st <;> decide

/-- The bytes of the frame regions lie below everything coding writes. -/
theorem untouched_of_frame {a : Nat} (h : a < 0x04000000) (vectors : Nat) (t : State) : Untouched vectors t a :=
  ⟨by omega, by omega, fun st => by have := streamBase_ge st; omega⟩

section

variable {vectors m lo hi m' lo' hi' : Nat} {s t u : State}

theorem Coded.params (h : Coded vectors m lo hi s t) : t.params = s.params := by rw [h.registers]

theorem Coded.geom (h : Coded vectors m lo hi s t) : t.geom = s.geom := by rw [h.registers]

theorem Coded.epoch (h : Coded vectors m lo hi s t) : t.epoch = s.epoch := by rw [h.registers]

theorem Coded.keepsFrames (h : Coded vectors m lo hi s t) : KeepsFrames s t :=
  ⟨h.registers, fun a ha => h.bytes a (untouched_of_frame ha _ _)⟩

theorem KeepsFrames.trans (h : KeepsFrames s t) (k : KeepsFrames t u) : KeepsFrames s u :=
  ⟨h.registers.trans k.registers, fun a ha => (k.bytes a ha).trans (h.bytes a ha)⟩

theorem Coded.refl (hs : s.Inv) : Coded vectors 0 0 0 s s := ⟨hs, rfl, rfl, le_rfl, le_rfl, fun _ _ => rfl⟩

/-- The positions only grow, so what the second part leaves alone the first does. -/
theorem Coded.trans (h : Coded vectors m lo hi s t) (k : Coded vectors m' lo' hi' t u) :
    Coded vectors (m + m') (lo + lo') (hi + hi') s u where
  inv := k.inv
  registers := h.registers.trans k.registers
  bits0 := by have := h.bits0; have := k.bits0; omega
  bits1_ge := by have := h.bits1_ge; have := k.bits1_ge; omega
  bits1_le := by have := h.bits1_le; have := k.bits1_le; omega
  bytes a ha := by
    obtain ⟨work, mv, streams⟩ := ha
    refine (k.bytes a ⟨work, mv, streams⟩).trans (h.bytes a ⟨work, mv, fun st => ?_⟩)
    have outside := streams st
    have grows : (t.bsBits st).toNat ≤ (u.bsBits st).toNat := by
      cases st with
      | stream0 => exact k.bits0 ▸ Nat.le_add_right _ _
      | stream1 => exact (Nat.le_add_right _ _).trans k.bits1_ge
    omega

/-- A part after what has been coded. -/
theorem Codes.after {r : Run} (h : Coded vectors m lo hi s t) (k : Codes vectors m' lo' hi' t r) :
    Codes vectors (m + m') (lo + lo') (hi + hi') s r := by
  cases k with
  | ok k => exact .ok (h.trans k)
  | overflow keeps full =>
    have := h.bits0
    have := h.bits1_le
    rw [h.params] at full
    exact .overflow (h.keepsFrames.trans keeps) (by omega)

theorem Codes.after_store {r : Run} (h : Coded vectors 0 0 0 s t) (k : Codes vectors m lo hi t r) :
    Codes vectors m lo hi s r := by
  simpa only [Nat.zero_add] using k.after h

theorem Codes.andThen {r : Run} {f : State → Run} (h : Codes vectors m lo hi s r)
    (hf : ∀ t, Coded vectors m lo hi s t → Codes vectors m' lo' hi' t (f t)) :
    Codes vectors (m + m') (lo + lo') (hi + hi') s (r.andThen f) := by
  cases h with
  | ok h => exact (hf _ h).after h
  | overflow keeps full => exact .overflow keeps (by omega)

/-- A loop codes as many times what a part codes. -/
theorem Codes.forEach {α : Type} {f : α → State → Run} {xs : List α} (hs : s.Inv)
    (hf : ∀ x ∈ xs, ∀ t, t.Inv → t.geom = s.geom → Codes vectors m lo hi t (f x t)) :
    Codes vectors (m * xs.length) (lo * xs.length) (hi * xs.length) s (Run.forEach f xs s) := by
  induction xs generalizing s with
  | nil => exact .ok (Coded.refl hs)
  | cons x xs ih =>
    have all := (hf x (by simp) s hs rfl).andThen (f := Run.forEach f xs) fun t ht =>
      ih ht.inv fun y hy u hu hg => hf y (by simp [hy]) u hu (hg.trans ht.geom)
    rw [forEach_cons]
    simpa only [List.length_cons, Nat.mul_succ, Nat.add_comm] using all

end

/-! Stores. -/

/-- A list of stores to the work buffers and the first vectors. -/
theorem storeCells_coded {vectors : Nat} {s : State} (hs : s.Inv) {cells : List Host.Cell}
    (h : ∀ a, ¬ (0x04000000 ≤ a ∧ a < 0x04000A00) → ¬ (0x05000000 ≤ a ∧ a < 0x05000000 + 4 * vectors) →
      (s.storeCells cells).readByte a = s.readByte a) : Coded vectors 0 0 0 s (s.storeCells cells) :=
  ⟨hs.update _ _ _ _ _ _ _ (wf_setAll cells _ hs.memory) _ _ _ _, rfl, rfl, le_rfl, le_rfl, fun a ha => h a ha.1 ha.2.1⟩

section

variable {vectors : Nat} {s : State} (hs : s.Inv)
include hs

theorem setCoef_coded {k : Nat} (hk : k ≤ 5) (b : Block) : Coded vectors 0 0 0 s (s.setCoef k b) :=
  storeCells_coded hs fun a work _ => readByte_setCoef_outside s k b a (by simp only [coefBase]; omega)

theorem loadSrc_coded (p : Plane) (mbx mby : Nat) : Coded vectors 0 0 0 s (loadSrc s p mbx mby) :=
  storeCells_coded hs fun a work _ => readByte_loadSrc_outside s p mbx mby fun r hr c hc => by
    obtain ⟨row, col⟩ := view_position ((mem_rowsCols _ _ (r, c)).2 ⟨hr, hc⟩)
    have := stagingAddr_bounds p (r := r) (c := c) row col
    omega

theorem predictToBlk_coded (p : Plane) (mbx mby : Nat) (mvx mvy : Int) :
    Coded vectors 0 0 0 s (predictToBlk s p mbx mby mvx mvy) :=
  storeCells_coded hs fun a work _ => readByte_predictToBlk_outside s p mbx mby mvx mvy fun r hr c hc => by
    obtain ⟨row, col⟩ := view_position ((mem_rowsCols _ _ (r, c)).2 ⟨hr, hc⟩)
    have := mbSize_le p
    rw [predBlkAddr_eq]
    omega

theorem residual_coded (mbx mby : Nat) : Coded vectors 0 0 0 s (residual s mbx mby) :=
  storeCells_coded hs fun a work _ => readByte_residual_outside s mbx mby fun r hr c hc => by
    obtain ⟨row, col⟩ := view_position ((mem_rowsCols _ _ (r, c)).2 ⟨hr, hc⟩)
    have := stagingAddr_bounds .y (r := r) (c := c) row col
    omega

theorem setMv_coded {i : Nat} (hi : i < vectors) (dx dy : Int) : Coded vectors 0 0 0 s (setMv s i dx dy) :=
  storeCells_coded hs fun a _ mv => readByte_storeCells_notMem s _ a fun c hc => by
    simp only [cells16, List.mem_append, mem_cellsLE, mvAddr, mvarrBase] at hc
    rcases hc with ⟨j, hj, rfl⟩ | ⟨j, hj, rfl⟩ <;> simp only <;> omega

end

/-! The streams. -/

/-- What `emitAll` leaves: the fields appended, or no room for them (`emitAll_cases`). -/
theorem emitAll_appends (st : Stream) (fs : List Field) {s : State} (hs : s.Inv) :
    (∃ t, emitAll st fs s = .ok t
      ∧ t = { s.setBsBits st (nat32 ((s.bsBits st).toNat + fieldsWidth fs)) with mem := t.mem }
      ∧ (t.bsBits st).toNat = (s.bsBits st).toNat + fieldsWidth fs
      ∧ StreamWrite s t st (s.bsBits st).toNat ((s.bsBits st).toNat + fieldsWidth fs))
    ∨ ∃ t, emitAll st fs s = .error t .overflow ∧ KeepsFrames s t
      ∧ 8 * s.params.streamCap < (s.bsBits st).toNat + fieldsWidth fs := by
  have cap := hs.streamCap_le
  have room := hs.streamsFit st
  by_cases fit : ((s.bsBits st).toNat + fieldsWidth fs + 7) / 8 ≤ s.params.streamCap
  · obtain ⟨t, emitted, ht, -, -, write⟩ := (emitAll_cases st fs s cap).1 fit
    exact .inl ⟨t, emitted, ht, by rw [bsBits_of_eq ht, toNat_nat32 (by omega)], write⟩
  · obtain ⟨pre, f, post, t, -, fits, -, emitted, overflow⟩ := (emitAll_cases st fs s cap).2 (by omega) (by omega)
    obtain ⟨t', emitted', ht, -, -, write⟩ := (emitAll_cases st pre s cap).1 fits
    obtain rfl : t' = t := Run.ok.inj (emitted'.symm.trans emitted)
    refine .inr ⟨t', overflow, ⟨?_, fun a ha => write.bytes a (by have := streamBase_ge st; omega)⟩, by omega⟩
    unfold SameRegisters
    rw [ht]
    cases st <;> rfl

/-- The invariant through a part that keeps the geometry, the control fields and the streams. -/
theorem State.Inv.keeps {s t : State} (hs : s.Inv) (hg : SameGeometry s t) (hk : KeepsStreams s t) : t.Inv := by
  obtain ⟨h0, h1⟩ := (streamsFit_iff t).1 (hk.fit hs.streamsFit)
  exact {
    memory := hg.wf hs.memory
    params := hg.params ▸ hs.params
    geometry := by simpa only [State.geomOk, hg.geomValid, hg.geom] using hs.geometry
    reference := by rw [hk.refValid, hg.geomValid]; exact hs.reference
    stream0 := h0
    stream1 := h1
    errorRecord := by simpa only [State.errorRecordOk, hg.err, hg.errCode, hg.errOpc] using hs.errorRecord
    pending := by simpa only [State.pendingOk, hg.running, hg.lastCmd] using hs.pending }

theorem emitAll_inv {st : Stream} {fs : List Field} {s t : State} (hs : s.Inv) (h : emitAll st fs s = .ok t) : t.Inv := by
  have hg := emitAll_sameGeometry st fs s
  have hk := emitAll_keepsStreams st fs s
  rw [h] at hg hk
  exact hs.keeps hg hk

/-- A byte outside the stream up to its position is outside what a write stores. -/
theorem StreamWrite.untouched {s t : State} {st : Stream} {b e vectors : Nat} (h : StreamWrite s t st b e)
    (he : (t.bsBits st).toNat = e) {a : Nat} (ha : Untouched vectors t a) : t.readByte a = s.readByte a := by
  obtain ⟨-, -, streams⟩ := ha
  have outside := streams st
  rw [he] at outside
  exact h.bytes a (by omega)

/-- Fields for stream 0. -/
theorem emitAll_codes_stream0 (vectors : Nat) (fs : List Field) {s : State} (hs : s.Inv) :
    Codes vectors (fieldsWidth fs) 0 0 s (emitAll .stream0 fs s) := by
  rcases emitAll_appends .stream0 fs hs with ⟨t, e, ht, bits, write⟩ | ⟨t, e, keeps, full⟩
  · have same : SameRegisters s t ∧ t.bs1Bits = s.bs1Bits := by
      unfold SameRegisters
      rw [ht]
      exact ⟨rfl, rfl⟩
    have bits1 := congrArg BitVec.toNat same.2
    have inv := emitAll_inv hs e
    rw [e]
    exact .ok ⟨inv, same.1, bits, bits1.ge, bits1.le, fun a ha => write.untouched bits ha⟩
  · rw [e]
    exact .overflow keeps (.inl full)

/-- Fields for stream 1. -/
theorem emitAll_codes_stream1 (vectors : Nat) (fs : List Field) {least most : Nat} {s : State} (hs : s.Inv)
    (hl : least ≤ fieldsWidth fs) (hm : fieldsWidth fs ≤ most) : Codes vectors 0 least most s (emitAll .stream1 fs s) := by
  rcases emitAll_appends .stream1 fs hs with ⟨t, e, ht, bits, write⟩ | ⟨t, e, keeps, full⟩
  · have same : SameRegisters s t ∧ t.bs0Bits = s.bs0Bits := by
      unfold SameRegisters
      rw [ht]
      exact ⟨rfl, rfl⟩
    have inv := emitAll_inv hs e
    have bits' : t.bs1Bits.toNat = s.bs1Bits.toNat + fieldsWidth fs := bits
    rw [e]
    exact .ok ⟨inv, same.1, congrArg _ same.2, by omega, by omega,
      fun a ha => write.untouched bits ha⟩
  · have full' : 8 * s.params.streamCap < s.bs1Bits.toNat + fieldsWidth fs := full
    rw [e]
    exact .overflow keeps (.inr (by omega))

/-- The flush of stream 1 pads it to a byte. -/
theorem align_codes_stream1 (vectors : Nat) {s : State} (hs : s.Inv) :
    ∃ t, align .stream1 s = .ok t ∧ Coded vectors 0 0 7 s t ∧ t.bs1Bits.toNat % 8 = 0 := by
  have cap := hs.streamCap_le
  have room := hs.stream1
  obtain ⟨t, aligned, ht, -, write⟩ := align_ok .stream1 s room
  obtain ⟨position, hp⟩ : ∃ position, position = 8 * ((s.bs1Bits.toNat + 7) / 8) := ⟨_, rfl⟩
  replace ht : t = { s.setBsBits .stream1 (nat32 position) with mem := t.mem } := hp ▸ ht
  replace write : StreamWrite s t .stream1 s.bs1Bits.toNat position := hp ▸ write
  have bits : t.bs1Bits.toNat = position :=
    (congrArg BitVec.toNat (bsBits_of_eq ht)).trans (toNat_nat32 (by omega))
  have same : SameRegisters s t ∧ t.bs0Bits = s.bs0Bits := by
    unfold SameRegisters
    rw [ht]
    exact ⟨rfl, rfl⟩
  have inv : t.Inv := by
    have hg := align_sameGeometry .stream1 s
    have hk := align_keepsStreams .stream1 s
    rw [aligned] at hg hk
    exact hs.keeps hg hk
  exact ⟨t, aligned, ⟨inv, same.1, congrArg _ same.2, by omega, by omega,
    fun a ha => write.untouched bits ha⟩, by omega⟩

/-- A stream of whole bytes needs no padding. -/
theorem align_of_aligned {st : Stream} {s : State} (h : (s.bsBits st).toNat % 8 = 0) : align st s = .ok s := if_pos h

/-! A macroblock. -/

section

variable {vectors : Nat} {s : State} (hs : s.Inv)
include hs

theorem encodeBlock_codes (k : Nat) : Codes vectors 0 25 1105 s (encodeBlock .stream1 k s) :=
  have width := fieldsWidth_blockFields s.params.zigzag (s.coefBlock k)
  emitAll_codes_stream1 vectors _ hs width.1 width.2

theorem codeStagedBlock_codes (scale : Nat) {k : Nat} (hk : k ≤ 5) :
    Codes vectors 0 25 1105 s (codeStagedBlock scale k s) :=
  have loaded := setCoef_coded (vectors := vectors) hs hk (s.stageBlock k)
  have transformed := loaded.trans (setCoef_coded loaded.inv hk _)
  have quantized := transformed.trans (setCoef_coded transformed.inv hk _)
  .after_store quantized (encodeBlock_codes quantized.inv k)

theorem codeZeroBlock_codes {k : Nat} (hk : k ≤ 5) : Codes vectors 0 25 1105 s (codeZeroBlock k s) :=
  have zeroed := setCoef_coded (vectors := vectors) hs hk zeroBlock
  .after_store zeroed (encodeBlock_codes zeroed.inv k)

/-- The six blocks of an I-frame macroblock. -/
theorem encodeIntraMb_codes (scale : Nat) (mb : Nat × Nat) : Codes vectors 0 150 6630 s (encodeIntraMb scale mb s) :=
  have y := loadSrc_coded (vectors := vectors) hs .y mb.1 mb.2
  have yu := y.trans (loadSrc_coded y.inv .u mb.1 mb.2)
  have yuv := yu.trans (loadSrc_coded yu.inv .v mb.1 mb.2)
  .after_store yuv (.forEach yuv.inv fun _ hk _ ht _ =>
    codeStagedBlock_codes ht scale ((by decide : ∀ k ∈ [0, 1, 2, 3, 4, 5], k ≤ 5) _ hk))

/-- The vector and the six blocks of a P-frame macroblock, whose vector is one of the first. -/
theorem encodePredictedMb_codes (diamond : Bool) (scale range : Nat) {mb : Nat × Nat}
    (hi : s.mbIndex mb.1 mb.2 < vectors) :
    Codes vectors 32 150 6630 s (encodePredictedMb diamond scale range mb s) := by
  obtain ⟨m, hm⟩ : ∃ m, m = searchFor diamond s mb range := ⟨_, rfl⟩
  have vector := setMv_coded hs hi m.dx m.dy
  have coded := Codes.after_store vector (emitAll_codes_stream0 vectors (mvFields m.dx m.dy) vector.inv)
  rw [encodePredictedMb, ← hm]
  refine coded.andThen (lo' := 150) (hi' := 6630) (m' := 0) fun t ht => ?_
  have predicted := predictToBlk_coded (vectors := vectors) ht.inv .y mb.1 mb.2 m.dx m.dy
  have difference := predicted.trans (residual_coded predicted.inv mb.1 mb.2)
  have luma := Codes.after_store difference (.forEach (xs := [0, 1, 2, 3]) difference.inv fun _ hk _ hu _ =>
    codeStagedBlock_codes hu scale ((by decide : ∀ k ∈ [0, 1, 2, 3], k ≤ 5) _ hk))
  exact luma.andThen fun u hu => .forEach (xs := [4, 5]) hu.inv fun _ hk _ hw _ =>
    codeZeroBlock_codes hw ((by decide : ∀ k ∈ [4, 5], k ≤ 5) _ hk)

end

/-! The frame. -/

/-- The vectors a frame of n macroblocks writes: none for an I-frame (48_encoder.md R804, R805). -/
def FrameType.vectors (t : FrameType) (n : Nat) : Nat :=
  match t with
  | .i => 0
  | .p => n

/-- The macroblocks of the grid. -/
def State.mbCount (s : State) : Nat := s.geom.mbCols.toNat * s.geom.mbRows.toNat

/-- The state with both streams cleared (48_encoder.md R803). -/
def State.cleared (s : State) : State := (s.setBsBits .stream0 0).setBsBits .stream1 0

theorem length_mbCoords (s : State) : s.mbCoords.length = s.mbCount := by
  simp [State.mbCoords, rowsCols, State.mbCount, Nat.mul_comm]

theorem mbIndex_lt_mbCount {s : State} {mb : Nat × Nat} (h : mb ∈ s.mbCoords) : s.mbIndex mb.1 mb.2 < s.mbCount := by
  obtain ⟨hx, hy⟩ := (mem_mbCoords s mb).1 h
  have row : (mb.2 + 1) * s.geom.mbCols.toNat ≤ s.geom.mbRows.toNat * s.geom.mbCols.toNat := Nat.mul_le_mul_right _ hy
  rw [State.mbIndex, State.mbCount, Nat.mul_comm s.geom.mbCols.toNat]
  rw [Nat.succ_mul] at row
  omega

theorem encodeMbs_codes (t : FrameType) (diamond : Bool) (scale range : Nat) {s : State} (hs : s.Inv) :
    Codes (t.vectors s.mbCount) (32 * t.vectors s.mbCount) (150 * s.mbCount) (6630 * s.mbCount) s
      (encodeMbs t diamond scale range s) := by
  rw [← length_mbCoords]
  cases t with
  | i =>
    have loop := Codes.forEach (vectors := 0) (xs := s.mbCoords) hs fun mb _ u hu _ => encodeIntraMb_codes hu scale mb
    rw [Nat.zero_mul] at loop
    exact loop
  | p =>
    refine .forEach hs fun mb hmb u hu hg => encodePredictedMb_codes hu diamond scale range ?_
    show u.mbIndex mb.1 mb.2 < s.mbCoords.length
    rw [length_mbCoords, State.mbIndex, hg]
    exact mbIndex_lt_mbCount hmb

/-- What the coding of a frame can leave, from cleared streams: the frame in whole bytes, or a stream without room for it. -/
theorem codedFrame_cases (t : FrameType) {s : State} (hs : s.Inv) :
    (∃ v, codedFrame t s = .ok v
        ∧ Coded (t.vectors s.mbCount) (32 * t.vectors s.mbCount) (150 * s.mbCount) (6630 * s.mbCount + 7) s.cleared v
        ∧ v.bs1Bits.toNat % 8 = 0)
      ∨ ∃ v, codedFrame t s = .error v .overflow ∧ KeepsFrames s.cleared v
        ∧ (8 * s.params.streamCap < 32 * t.vectors s.mbCount ∨ 8 * s.params.streamCap < 6630 * s.mbCount) := by
  have inv : s.cleared.Inv := { hs with stream0 := Nat.zero_le _, stream1 := Nat.zero_le _ }
  have run := encodeMbs_codes t s.snapshotMeMode (qpToScale s.cfg.qp.toNat) s.cfg.range.toNat inv
  rw [codedFrame, ← State.cleared]
  generalize encodeMbs t _ _ _ s.cleared = r at run ⊢
  cases run with
  | @ok v coded =>
    have whole : (v.bsBits .stream0).toNat % 8 = 0 := by
      show v.bs0Bits.toNat % 8 = 0
      rw [coded.bits0]
      show (0 + 32 * _) % 8 = 0
      omega
    obtain ⟨w, flushed, padded, aligned⟩ := align_codes_stream1 (t.vectors s.mbCount) coded.inv
    exact .inl ⟨w, by rw [andThen_ok, align_of_aligned whole, andThen_ok, flushed], coded.trans padded, aligned⟩
  | overflow keeps full =>
    have capacity : 8 * s.params.streamCap < 0 + 32 * t.vectors s.mbCount
        ∨ 8 * s.params.streamCap < 0 + 6630 * s.mbCount := full
    exact .inr ⟨_, rfl, keeps, by omega⟩

end Sys2Proof.Machine
end

section
/-! SUPPORT. ENCODE_FRAME (48_encoder.md R800 to R813): its refusals, when a frame fits its streams, and what its commit
leaves. -/

namespace Sys2Proof.Machine

/-! The first checks. -/

theorem runInstr_encodeFrame (s : State) : runInstr .encodeFrame s
    = withGeometry s (if s.frameType = .p ∧ s.refValid = false then .error s .noRef else encodeFrameBody s.frameType s) :=
  rfl

theorem frameType_eq_p_iff (s : State) : s.frameType = .p ↔ ¬ IntraFrame s := by
  rw [← frameType_eq_i_iff]
  cases s.frameType <;> simp

/-- Settles O57: without a geometry the first check stops the command, and a P-frame without a reference the second. -/
theorem encodeFrameRefusals : Obligations.EncodeFrameRefusals := by
  refine ⟨rfl, fun s => ⟨needsGeometry_of (i := .encodeFrame) _ runInstr_encodeFrame s, fun hv inter noRef => ?_⟩⟩
  rw [exec_eq, runInstr_encodeFrame, withGeometry_present hv, if_pos ⟨(frameType_eq_p_iff s).2 inter, noRef⟩,
    finish_error]
  rfl

/-- Past its first checks ENCODE_FRAME codes the frame and commits it. -/
theorem exec_encodeFrame {s : State} (hv : s.geomValid = true) (href : IntraFrame s ∨ s.refValid = true) :
    exec .encodeFrame s
      = Run.finish 0x90 ((codedFrame s.frameType s).andThen fun v => .ok (commitFrame s.frameType v)) := by
  have passes : ¬ (s.frameType = .p ∧ s.refValid = false) := by
    rintro ⟨inter, noRef⟩
    rcases href with intra | ref
    · exact (frameType_eq_p_iff s).1 inter intra
    · exact absurd (noRef.symm.trans ref) (by decide)
  rw [exec_eq, runInstr_encodeFrame, withGeometry_present hv, if_neg passes, encodeFrameBody_eq]
  rfl

/-! When a frame fits. -/

theorem vectors_le (t : FrameType) (n : Nat) : t.vectors n ≤ n := by cases t <;> simp [FrameType.vectors]

/-- A frame fits its streams exactly when its coding raises no error: the host's commands code it alike
(`frameByCommands_of_coded`, `frameByCommands_of_error`), and with room for the worst case no stream overflows. -/
theorem frameFits_iff {s : State} (hs : s.Inv) (hv : s.geomValid = true) :
    FrameFits s ↔ ∃ v, codedFrame s.frameType s = .ok v := by
  constructor
  · intro fits
    rcases codedFrame_cases s.frameType hs with ⟨v, coded, -⟩ | ⟨v, coded, -, full⟩
    · exact ⟨v, coded⟩
    · exfalso
      rcases fits with room | ⟨u, commands, clear⟩
      · have := vectors_le s.frameType s.mbCount
        rw [← State.mbCount] at room
        omega
      · exact absurd (clear.symm.trans (frameByCommands_of_error hv coded commands)) (by decide)
  · rintro ⟨v, coded⟩
    have commands := (frameByCommands_iff { s with err := false } _).2 rfl
    exact .inr ⟨_, commands, (frameByCommands_of_coded hv coded commands).2.2.2.2⟩

/-! The commit. -/

/-- What the commit of a coded frame writes (R807 to R809). -/
theorem commitFrame_eq (t : FrameType) (v : State) (bits : Nat)
    (hb : bits = 8 * (v.bsBytes .stream0 + v.bsBytes .stream1)) : commitFrame t v = { v with
      mem := (storeRef v).mem, refValid := true
      rc := { qp := chooseQp v.cfg v.rc.qp bits, lastBits := nat32 bits, lastFrameId := v.args.frameId }
      fr := { ftype := t.code, id := v.args.frameId, tsLo := v.args.tsLo, tsHi := v.args.tsHi, qp := v.cfg.qp,
              mvBytes := nat32 (v.bsBytes .stream0), coefBytes := nat32 (v.bsBytes .stream1) }
      res := (((v.res.set 0 (t.code.setWidth 32)).set 1 (nat32 (v.bsBytes .stream0))).set 2
        (nat32 (v.bsBytes .stream1))).set 3 ((chooseQp v.cfg v.rc.qp bits).setWidth 32) } := by
  obtain ⟨mem, stored⟩ : ∃ mem, storeRef v = { v with mem := mem, refValid := true } := ⟨_, rfl⟩
  simp only [commitFrame, ← hb, stored]
  rfl

/-- A frame that fits: what its coding leaves, and the commit. -/
theorem exec_encodeFrame_of_fits {s : State} (hs : s.Inv) (hv : s.geomValid = true)
    (href : IntraFrame s ∨ s.refValid = true) (fits : FrameFits s) : ∃ v, codedFrame s.frameType s = .ok v
      ∧ Coded (s.frameType.vectors s.mbCount) (32 * s.frameType.vectors s.mbCount) (150 * s.mbCount)
        (6630 * s.mbCount + 7) s.cleared v
      ∧ v.bs1Bits.toNat % 8 = 0 ∧ exec .encodeFrame s = .next (commitFrame s.frameType v).complete := by
  obtain ⟨v, coded⟩ := (frameFits_iff hs hv).1 fits
  have run : exec .encodeFrame s = .next (commitFrame s.frameType v).complete := by
    rw [exec_encodeFrame hv href, coded, andThen_ok, finish_ok]
  rcases codedFrame_cases s.frameType hs with ⟨w, h, parts⟩ | ⟨w, h, -⟩ <;> cases coded.symm.trans h
  exact ⟨v, coded, parts.1, parts.2, run⟩

/-- Coding from cleared streams changes the memory and the bit counts alone. -/
theorem SameRegisters.of_cleared {s v : State} (h : SameRegisters s.cleared v) : ∃ mem bs0 bs1,
    v = { s with mem := mem, bs0Bits := bs0, bs1Bits := bs1 } := ⟨_, _, _, h⟩

/-- Settles O60: the host's commands do what the coding does (`hostCoded_follows`), and STORE_REF stores what the commit
stores. -/
theorem encodeFrameEqualsTheHostCommands : Obligations.EncodeFrameEqualsTheHostCommands := by
  intro s hs hv href fits u commands
  obtain ⟨v, coded, leaves, -, run⟩ := exec_encodeFrame_of_fits hs hv href fits
  obtain ⟨mem, bs0, bs1, refValid, -⟩ := frameByCommands_of_coded (e := s.err) hv coded commands
  obtain ⟨_, _, _, rfl⟩ := leaves.registers.of_cleared
  rw [mem, bs0, bs1]
  refine ⟨_, run, ?_, ?_, ?_, ?_, refValid⟩ <;> rw [commitFrame_eq _ _ _ rfl] <;> rfl

/-- Settles O58: a frame fits exactly when its coding raises no error (`frameFits_iff`), and only then is it committed. -/
theorem encodeFrameCommitsOnlyOnSuccess : Obligations.EncodeFrameCommitsOnlyOnSuccess := by
  intro s hs hv href
  by_cases fits : FrameFits s
  · obtain ⟨v, -, leaves, -, run⟩ := exec_encodeFrame_of_fits hs hv href fits
    obtain ⟨_, _, _, rfl⟩ := leaves.registers.of_cleared
    refine ⟨_, run, fun _ => ?_, fun no => absurd fits no⟩
    rw [commitFrame_eq _ _ _ rfl]
    exact ⟨rfl, rfl, rfl, rfl⟩
  · rcases codedFrame_cases s.frameType hs with ⟨v, coded, -⟩ | ⟨v, coded, keeps, -⟩
    · exact absurd ((frameFits_iff hs hv).2 ⟨v, coded⟩) fits
    · have run : exec .encodeFrame s = .next (v.recordError .overflow 0x90).complete := by
        rw [exec_encodeFrame hv href, coded, andThen_error, finish_error]
      have bytes : ∀ a, a < 0x04000000 → v.readByte a = s.readByte a := keeps.bytes
      obtain ⟨_, _, _, rfl⟩ := keeps.registers.of_cleared
      exact ⟨_, run, fun yes => absurd yes fits, fun _ => ⟨rfl, bytes⟩⟩

/-! The committed frame. -/

theorem code_eq_zero_iff (s : State) : s.frameType.code = 0 ↔ IntraFrame s := by
  rw [← frameType_eq_i_iff]
  cases s.frameType <;> simp [FrameType.code]

section

variable {s v : State} {vectors m lo hi : Nat} (leaves : Coded vectors m lo hi s.cleared v)
include leaves

/-- The reference is a copy of CUR, which coding does not write (R808). -/
theorem sample_storeRef_of_coded (hs : s.Inv) (hv : s.geomValid = true) (p : Plane) {x y : Nat} (hx : x < s.planeW p)
    (hy : y < s.planeH p) : (storeRef v).readByte (s.sampleAddr .ref p x y) = s.sample .cur p x y := by
  have bytes : ∀ a, a < 0x04000000 → v.readByte a = s.readByte a := leaves.keepsFrames.bytes
  have inFrame := (sampleAddr_bounds (frameSize_of_inv hs hv) .cur p hx hy).2
  have inv := leaves.inv
  obtain ⟨_, _, _, rfl⟩ := leaves.registers.of_cleared
  exact (sample_storeRef (frameSize_of_inv inv hv) p hx hy).trans (bytes _ (inFrame.trans (by decide)))

/-- Beyond what coding writes, only the samples of REF differ (R808). -/
theorem readByte_storeRef_of_coded {a : Nat} (ha : Untouched vectors v a)
    (outside : ∀ p x y, x < s.planeW p → y < s.planeH p → a ≠ s.sampleAddr .ref p x y) :
    (storeRef v).readByte a = s.readByte a := by
  have bytes : v.readByte a = s.readByte a := leaves.bytes a ha
  obtain ⟨_, _, _, rfl⟩ := leaves.registers.of_cleared
  refine Eq.trans (readByte_storeRef_outside _ ?_) bytes
  exact outside

/-- The committed frame, from the state before the command. -/
theorem commitFrame_of_coded (t : FrameType) {mvBytes coefBytes bits : Nat} (h0 : v.bsBytes .stream0 = mvBytes)
    (h1 : v.bsBytes .stream1 = coefBytes) (hb : bits = 8 * (mvBytes + coefBytes)) : (commitFrame t v).complete = { s with
      mem := (storeRef v).mem, refValid := true, running := none, done := true
      bs0Bits := v.bs0Bits, bs1Bits := v.bs1Bits
      rc := { qp := chooseQp s.cfg s.rc.qp bits, lastBits := nat32 bits, lastFrameId := s.args.frameId }
      fr := { ftype := t.code, id := s.args.frameId, tsLo := s.args.tsLo, tsHi := s.args.tsHi, qp := s.cfg.qp,
              mvBytes := nat32 mvBytes, coefBytes := nat32 coefBytes }
      res := (((s.res.set 0 (t.code.setWidth 32)).set 1 (nat32 mvBytes)).set 2 (nat32 coefBytes)).set 3
        ((chooseQp s.cfg s.rc.qp bits).setWidth 32) } := by
  rw [commitFrame_eq t v bits (by rw [h0, h1, hb]), h0, h1]
  generalize (storeRef v).mem = mem
  obtain ⟨_, _, _, rfl⟩ := leaves.registers.of_cleared
  rfl

end

/-- The place of a sample is a matter of the geometry. -/
theorem sampleAddr_congr {s t : State} (h : t.geom = s.geom) (f : FrameId) (p : Plane) (x y : Nat) :
    t.sampleAddr f p x y = s.sampleAddr f p x y := by
  simp only [State.sampleAddr, planeOff_eq, planeStride_eq, h]

theorem vectors_intra {s : State} (h : IntraFrame s) (n : Nat) : s.frameType.vectors n = 0 := by
  rw [(frameType_eq_i_iff s).2 h, FrameType.vectors]

theorem vectors_inter {s : State} (h : ¬ IntraFrame s) (n : Nat) : s.frameType.vectors n = n := by
  rw [(frameType_eq_p_iff s).2 h, FrameType.vectors]

/-- A position of whole bytes. -/
theorem bsBytes_of_whole {s : State} {st : Stream} (h : (s.bsBits st).toNat % 8 = 0) :
    s.bsBytes st = (s.bsBits st).toNat / 8 := by
  rw [bsBytes_eq]
  omega

/-- The bytes outside the streams, as the statement spells them. -/
theorem untouched_of_whole {vectors a : Nat} {v : State} (whole0 : v.bs0Bits.toNat % 8 = 0)
    (whole1 : v.bs1Bits.toNat % 8 = 0) (work : ¬ (0x04000000 ≤ a ∧ a < 0x04000A00))
    (mv : ¬ (0x05000000 ≤ a ∧ a < 0x05000000 + 4 * vectors))
    (s0 : ¬ (0x06000000 ≤ a ∧ a < 0x06000000 + v.bs0Bits.toNat / 8))
    (s1 : ¬ (0x07000000 ≤ a ∧ a < 0x07000000 + v.bs1Bits.toNat / 8)) : Untouched vectors v a := by
  refine ⟨work, mv, fun st => ?_⟩
  cases st with
  | stream0 => simp only [streamBase, stream0Base, State.bsBits]; omega
  | stream1 => simp only [streamBase, stream1Base, State.bsBits]; omega

/-- Settles O59: the registers are those of the commit (`commitFrame_of_coded`), the counts and the other bytes those of
the coding (`Coded`), and REF is the copy of CUR. -/
theorem encodeFrameCommitsTheFrame : Obligations.EncodeFrameCommitsTheFrame := by
  intro s hs hv href fits
  obtain ⟨v, -, leaves, whole1, run⟩ := exec_encodeFrame_of_fits hs hv href fits
  have bits0 : v.bs0Bits.toNat = 0 + 32 * s.frameType.vectors s.mbCount := leaves.bits0
  have least : 0 + 150 * s.mbCount ≤ v.bs1Bits.toNat := leaves.bits1_ge
  have most : v.bs1Bits.toNat ≤ 0 + (6630 * s.mbCount + 7) := leaves.bits1_le
  have whole0 : v.bs0Bits.toNat % 8 = 0 := by omega
  have room0 := leaves.inv.stream0
  have room1 := leaves.inv.stream1
  have cap : v.params = s.params := leaves.params
  have mvBytes : v.bsBytes .stream0 = v.bs0Bits.toNat / 8 := bsBytes_of_whole whole0
  have coefBytes : v.bsBytes .stream1 = v.bs1Bits.toNat / 8 := bsBytes_of_whole whole1
  have committed := commitFrame_of_coded leaves s.frameType mvBytes coefBytes rfl
  rw [cap] at room0 room1
  have epoch : s.epoch = (storeRef v).epoch := leaves.epoch.symm
  generalize (commitFrame s.frameType v).complete = t at run committed
  have read : ∀ a, t.readByte a = (storeRef v).readByte a :=
    readByte_congr (by rw [committed]) (by rw [committed]; exact epoch)
  have stream0 : t.bs0Bits = v.bs0Bits := by rw [committed]
  have stream1 : t.bs1Bits = v.bs1Bits := by rw [committed]
  have geom : t.geom = s.geom := by rw [committed]
  refine ⟨t, run, ?_⟩
  rw [FrameCommitted, stream0, stream1, ← State.mbCount]
  refine ⟨?_, fun p x y hx hy => ?_, fun intra => ?_, fun inter => ?_, whole1, by omega, by omega, room0, room1,
    ⟨s.frameType.code, code_eq_zero_iff s, ?_, ?_, ?_⟩, fun a work mv s0 s1 outside => ?_⟩
  · rw [committed]
  · rw [State.sample, read, sampleAddr_congr geom]
    exact sample_storeRef_of_coded leaves hs hv p hx hy
  · rw [vectors_intra intra] at bits0
    exact BitVec.eq_of_toNat_eq bits0
  · rw [bits0, vectors_inter inter, Nat.zero_add]
  · rw [committed]
  · rw [committed]
  · rw [committed]
    simp
  · have vector : ¬ (0x05000000 ≤ a ∧ a < 0x05000000 + 4 * s.frameType.vectors s.mbCount) := by
      by_cases intra : IntraFrame s
      · rw [vectors_intra intra]
        omega
      · rw [vectors_inter intra]
        exact fun h => mv ⟨intra, h⟩
    rw [read]
    exact readByte_storeRef_of_coded leaves (untouched_of_whole whole0 whole1 work vector s0 s1) outside

end Sys2Proof.Machine
end
